-- ==== Sys2Proof/Word.lean ====
section
/-! DEFINITION. The word types of the block and its closed sets of names. -/

namespace Sys2Proof

/-- `u8` (R10). -/
abbrev Byte := BitVec 8
/-- `u16` (R10). -/
abbrev Half := BitVec 16
/-- `u32` (R10). -/
abbrev Word := BitVec 32

/-- The values of `ST` (R21). -/
inductive FramerState where
  | waiting
  | lengthPending
  | receiving
  deriving DecidableEq, Repr, Inhabited

/-- The values of `MODE` (R28). -/
inductive Mode where
  | hostDebug
  | peripheralBus
  deriving DecidableEq, Repr, Inhabited

/-- `REPLY_ORDER`, `CK_WORD_ORDER` (R8). -/
inductive ByteOrder where
  | le
  | be
  deriving DecidableEq, Repr, Inhabited

/-- `PACK_ORDER` (R8, R222). -/
inductive PackOrder where
  | msbFirst
  | lsbFirst
  deriving DecidableEq, Repr, Inhabited

/-- The byte buffers of R60. -/
inductive Buffer where
  | rxbuf
  | fbuf
  | pkbuf
  deriving DecidableEq, Repr, Inhabited

/-- What the unpacker is pointed at (R37, R215): a byte sequence, or the first `n` bytes of the pack
buffer itself (R34: "by the unpacker when it is pointed at it"; R60). -/
inductive UpSource where
  | bytes (b : List Byte)
  | pkBuf (n : Nat)
  deriving DecidableEq, Repr, Inhabited

/-- The payload of `RB.CK` (R242): bytes, or the packed stream that the response builder reads from
the pack buffer, `PK.BUF[0 .. PK.LEN-1]` (R34, R60, R248). -/
inductive Payload where
  | bytes (b : List Byte)
  | packed
  deriving DecidableEq, Repr, Inhabited

/-- A collaborator's answer as the environment gives it (R195): completion with a value (which only
`handle` returns), an expired wait, or a debug-halt. -/
inductive Reply where
  | ok (w : Word)
  | timeout
  | halt
  deriving DecidableEq, Repr, Inhabited

end Sys2Proof
end

