-- ==== Sys2Proof/Config.lean ====
section
/-! DEFINITION. The configuration record of R8, and the free values: constants without a body that
stand for what the spec calls a draw or unspecified. -/

namespace Sys2Proof

/-- An entry of `REGISTRY` (R181): a resource address, its capability set of opcodes, and those of
them whose result is a packed stream (R248: "resource/opcode dependent"; log entry 28). -/
structure Resource where
  addr   : Byte
  caps   : List Byte
  packed : List Byte
  deriving DecidableEq, Repr, Inhabited

/-- An entry of `CMD_ROUTE` (R8, R166): a command code and operand bytes, and the triple they are
routed to. -/
structure Route where
  code     : Half
  operands : List Byte
  addr     : Byte
  op       : Byte
  operand  : Half
  deriving DecidableEq, Repr, Inhabited

/-- `RXBUF_SIZE` (R8, R24). -/
abbrev Config.rxbufSize : Nat := 255
/-- `FBUF_SIZE` (R8, R31). -/
abbrev Config.fbufSize : Nat := 255
/-- `CK_MIN_LEN` (R8, R162). -/
abbrev Config.ckMinLen : Nat := 7
/-- `CMD_GET_ID` (R8, R103). -/
abbrev Config.cmdGetId : Half := 0x0003
/-- `ST_OK` (R8, R245). -/
abbrev Config.stOk : Byte := 0x00

/-- The parameters of R8. `SYNC`, `SOF`, `REPLY_ORDER`, `CK_WORD_ORDER` and `PACK_ORDER` have the
spec's values in `Config.device` and are fields so that the other value can be taken (R9, R93, R222). -/
structure Config where
  sync             : Byte
  sof              : Byte
  pkbufSize        : Nat
  flowControl      : Bool
  registry         : List Resource
  opStart          : Byte
  opStop           : Byte
  opSleep          : Byte
  opWakeup         : Byte
  opRead           : Byte
  opWrite          : Byte
  sentinel         : Word
  stUnsupported    : Byte
  stResend         : Byte
  stUnknownError   : Byte
  lifecycleResult  : Word
  replyOrder       : ByteOrder
  ckWordOrder      : ByteOrder
  family           : Byte
  ident            : Byte
  cmdRoute         : List Route
  packOrder        : PackOrder
  resetMode        : Mode
  timeoutTicks     : Nat
  deriving DecidableEq, Repr, Inhabited

/-- The six generic opcodes (R101). -/
def Config.generic (c : Config) : List Byte :=
  [c.opStart, c.opStop, c.opSleep, c.opWakeup, c.opRead, c.opWrite]

/-- Well-formedness of a configuration (R8, R181): `PKBUF_SIZE` at least 1, the opcodes pairwise
distinct, the statuses distinct, every resource with the six generic opcodes. -/
abbrev Config.Legal (c : Config) : Prop :=
  1 ≤ c.pkbufSize ∧ c.generic.Nodup ∧
    [stOk, c.stUnsupported, c.stResend, c.stUnknownError].Nodup ∧
    ∀ r ∈ c.registry, ∀ o ∈ c.generic, o ∈ r.caps

/-- `REGISTRY(a)` (R181): the capability set of `a`, or nothing outside the domain. -/
def Config.capsOf (c : Config) (a : Byte) : Option (List Byte) :=
  (c.registry.find? (fun r => r.addr == a)).map Resource.caps

/-- `a ∈ dom(REGISTRY)` (R181). -/
def Config.hasResource (c : Config) (a : Byte) : Bool := (c.capsOf a).isSome

/-- `a ∈ dom(REGISTRY)` and `o ∈ REGISTRY(a)` (R101, first row). -/
def Config.known (c : Config) (a o : Byte) : Bool :=
  match c.capsOf a with
  | some caps => caps.contains o
  | none => false

/-- The four opcodes that call a lifecycle entry point and answer `LIFECYCLE_RESULT` (R188 to R191). -/
def Config.lifecycle (c : Config) : List Byte := [c.opStart, c.opStop, c.opSleep, c.opWakeup]

/-- The opcodes of `a` whose result is a packed stream (R224, R248). -/
def Config.packedOf (c : Config) (a : Byte) : List Byte :=
  match c.registry.find? (fun r => r.addr == a) with
  | some r => r.packed
  | none => []

/-- The result of the command is a packed stream (R224, R248): a command that is passed to `handle`,
and one that the resource answers so. -/
def Config.packs (c : Config) (a o : Byte) : Bool :=
  c.known a o && !c.lifecycle.contains o && (c.packedOf a).contains o

/-- `CMD_ROUTE(code, operands)` (R166). -/
def Config.routeOf (c : Config) (code : Half) (operands : List Byte) : Option (Byte × Byte × Half) :=
  (c.cmdRoute.find? (fun r => r.code == code && r.operands == operands)).map
    (fun r => (r.addr, r.op, r.operand))

/-- The values the spec fixes (R8): `SYNC`, `SOF` from the source, the three orders by decision. -/
def Config.withSpecValues (c : Config) : Config :=
  { c with sync := 0xEB, sof := 0xFF, replyOrder := .le, ckWordOrder := .be, packOrder := .msbFirst }

/-- A configuration that is legal, so that the opaque choice below has somewhere to fall back to.
It is no device's: no rule and no statement rests on it (log entry 3). -/
def Config.minimal : Config where
  sync := 0xEB
  sof := 0xFF
  pkbufSize := 1
  flowControl := false
  registry := []
  opStart := 0
  opStop := 1
  opSleep := 2
  opWakeup := 3
  opRead := 4
  opWrite := 5
  sentinel := 0
  stUnsupported := 1
  stResend := 2
  stUnknownError := 3
  lifecycleResult := 0
  replyOrder := .le
  ckWordOrder := .be
  family := 0
  ident := 0
  cmdRoute := []
  packOrder := .msbFirst
  resetMode := .hostDebug
  timeoutTicks := 0

/-- The OPEN parameters of R8: nothing is known of them. -/
opaque Config.openParams : Config

/-- The device's configuration: any legal one with the spec's fixed values (log entries 1 and 3). -/
def Config.device : Config :=
  (if Config.openParams.Legal then Config.openParams else Config.minimal).withSpecValues

/-- The values the registers "unspecified" at reset (R49, R300) hold after an `EV.RESET`, each within
the range its rule gives it. -/
structure FreeRegs where
  len    : Byte
  cnt    : Byte
  ca     : Byte
  co     : Byte
  cx     : Half
  flen   : Fin 256
  pkIdx  : Nat
  pkFree : Fin 8
  upSrc  : UpSource
  upIdx  : Nat
  upFree : Fin 8
  deriving DecidableEq, Repr, Inhabited

/-- Free value: the registers after the n-th reset (U10). -/
opaque Config.freeRegs : Nat → FreeRegs
/-- Free value: what a buffer byte that nothing has written since the n-th reset holds (U10, U11). -/
opaque Config.freeCell : Buffer → Nat → Nat → Byte
/-- Free value: the n-th draw, when it is a collaborator's answer (R195, U3). -/
opaque Config.freeReply : Nat → Reply
/-- Free value: the n-th draw, when it is `EN[a]` after a timeout of `start` or `stop` (U2). -/
opaque Config.freeBit : Nat → Bool
/-- Free value: the n-th draw, when it is the streaming reply word after a timeout (U1). -/
opaque Config.freeWord : Nat → Word
/-- Free value: the n-th draw, when it is the status of a reply after a timeout (U1). -/
opaque Config.freeStatus : Nat → Byte
/-- Free value: the n-th draw, when it is the payload of a reply after a timeout (U1) or of a packed
stream that no reply can spell (log entry 29), cut to the 0 to 249 bytes of R166 where it is used. -/
opaque Config.freeBytes : Nat → List Byte
/-- Free value: a byte past the end of the byte sequence that the unpacker is pointed at, where `UP.N`
says more than its length, which no `UP.INIT` sets up. -/
opaque Config.freeSourceByte : Nat → Byte

end Sys2Proof
end

