-- ==== Sys2Proof/Machine/Operands.lean ====
section
/-! DEFINITION. Operand assembly, byte and bit orders, the checksum and the frame tests: the helpers
that decoding and the meanings share. -/

namespace Sys2Proof

/-- The high concatenated with the low byte, `{h, l}` (R10, R99). -/
def join16 (h l : Byte) : Half := BitVec.ofNat 16 (h.toNat * 256 + l.toNat)

/-- `v[15:8]`. -/
def hiByte (v : Half) : Byte := BitVec.ofNat 8 (v.toNat / 256)

/-- `v[7:0]`. -/
def loByte (v : Half) : Byte := BitVec.ofNat 8 v.toNat

/-- Byte `i` of a `u32`, byte 0 being `w[7:0]`. -/
def byteOf (w : Word) (i : Nat) : Byte := BitVec.ofNat 8 (w.toNat / 256 ^ i)

/-- The four bytes of a `u32` in an order (R93, `word_bytes` of R166). -/
def wordBytes (w : Word) : ByteOrder → List Byte
  | .le => [byteOf w 0, byteOf w 1, byteOf w 2, byteOf w 3]
  | .be => [byteOf w 3, byteOf w 2, byteOf w 1, byteOf w 0]

/-- The `u32` that four bytes spell, `b0` being bits 7:0. -/
def joinWord (b0 b1 b2 b3 : Byte) : Word :=
  BitVec.ofNat 32 (b0.toNat + 256 * (b1.toNat + 256 * (b2.toNat + 256 * b3.toNat)))

/-- `CK8`: the sum of the bytes modulo 256 (R96). -/
def ck8 (bs : List Byte) : Byte := bs.foldl (fun s b => s + b) 0

/-- The tests of R162, on the bytes of one buffered read: long enough for every fixed field, opened
by `SOF`, as long as byte 1 says, and closed by the checksum of the bytes before it. -/
def frameValid (c : Config) (f : List Byte) : Bool :=
  decide (Config.ckMinLen ≤ f.length) &&
  decide (f[0]? = some c.sof) &&
  decide (f[1]?.map BitVec.toNat = some f.length) &&
  decide (f.getLast? = some (ck8 f.dropLast))

/-- A checksummed frame without its checksum byte, closed by it (R94, R95). -/
def withChecksum (f : List Byte) : List Byte := f ++ [ck8 f]

/-- `1 ≤ W ≤ 32` (R219). -/
def widthOk (width : Nat) : Bool := decide (1 ≤ width ∧ width ≤ 32)

/-- The next `k` bits of a `width`-bit value of which `rem` bits remain: the most significant of them
(R212), or the least significant (R222). -/
def chunkOf (order : PackOrder) (v : Word) (width rem k : Nat) : Nat :=
  match order with
  | .msbFirst => v.toNat / 2 ^ (rem - k) % 2 ^ k
  | .lsbFirst => v.toNat / 2 ^ (width - rem) % 2 ^ k

/-- How far from bit 0 a chunk of `k` bits lands in a byte with `free` bits left: just below the used
bits (R212), or just above them (R222). -/
def chunkShift (order : PackOrder) (free k : Nat) : Nat :=
  match order with
  | .msbFirst => free - k
  | .lsbFirst => 8 - free

/-- A packed byte with a chunk ORed in (R212). -/
def orChunk (old : Byte) (chunk shift : Nat) : Byte := old ||| BitVec.ofNat 8 (chunk * 2 ^ shift)

/-- The chunk of `k` bits that stands `shift` bits above bit 0 of a packed byte (R216). -/
def takeChunk (b : Byte) (shift k : Nat) : Nat := b.toNat / 2 ^ shift % 2 ^ k

/-- The value read so far, `acc`, with the next chunk of `k` bits: appended below it (R216), or put
above the `width - rem` bits already read (R222, mirrored). -/
def joinChunk (order : PackOrder) (acc chunk width rem k : Nat) : Nat :=
  match order with
  | .msbFirst => acc * 2 ^ k + chunk
  | .lsbFirst => acc + chunk * 2 ^ (width - rem)

/-- How many bytes the unpacker is pointed at (R37). -/
def UpSource.length : UpSource → Nat
  | .bytes b => b.length
  | .pkBuf n => n

/-- A drawn payload cut to the 0 to 249 bytes that a reply can hold (R166, R242). -/
def cutPayload (bs : List Byte) : List Byte := bs.take 249

end Sys2Proof
end

