-- ==== Sys2Proof/Syntax.lean ====
section
/-! DEFINITION. The 33 operations of spec/opcode_table.json, one constructor a row. -/

namespace Sys2Proof

/-- One operation of the block: what the spec calls one kind of atomic step (R12 "operation"). -/
inductive Instr where
  /-- RX.SKIP (R131) -/
  | rxSkip (b : Byte)
  /-- RX.SYNC (R132) -/
  | rxSync (b : Byte)
  /-- RX.LEN (R133) -/
  | rxLen (b : Byte)
  /-- RX.DATA (R134) -/
  | rxData (b : Byte)
  /-- RX.MASKED (R136) -/
  | rxMasked (b : Byte)
  /-- CK.FRAME (R161): the bytes of one buffered read -/
  | ckFrame (f : List Byte)
  /-- CK.DROP (R163): the bytes of a read that fails a test -/
  | ckDrop (f : List Byte)
  /-- CK.GETID (R165) -/
  | ckGetid (seq : Half) (operands : List Byte)
  /-- CK.ROUTE (R166) -/
  | ckRoute (seq code : Half) (operands : List Byte)
  /-- CK.UNSUP (R168) -/
  | ckUnsup (seq code : Half) (operands : List Byte)
  /-- M.TAKE (R183) -/
  | mTake
  /-- M.EXEC (R184) -/
  | mExec
  /-- CMD.INVALID (R186) -/
  | cmdInvalid (a o : Byte) (x : Half)
  /-- CMD.START (R188) -/
  | cmdStart (a : Byte) (x : Half)
  /-- CMD.STOP (R189) -/
  | cmdStop (a : Byte) (x : Half)
  /-- CMD.SLEEP (R190) -/
  | cmdSleep (a : Byte) (x : Half)
  /-- CMD.WAKEUP (R191) -/
  | cmdWakeup (a : Byte) (x : Half)
  /-- CMD.READ (R192) -/
  | cmdRead (a : Byte) (x : Half)
  /-- CMD.WRITE (R193) -/
  | cmdWrite (a : Byte) (x : Half)
  /-- CMD.RSPEC (R194) -/
  | cmdRspec (a o : Byte) (x : Half)
  /-- PK.INIT (R211) -/
  | pkInit
  /-- PK.PUT (R212) -/
  | pkPut (v : Word) (width : Nat)
  /-- PK.LEN (R213) -/
  | pkLen
  /-- PK.BATCH (R214) -/
  | pkBatch (width : Nat) (vs : List Word)
  /-- UP.INIT (R215) -/
  | upInit (src : UpSource)
  /-- UP.GET (R216) -/
  | upGet (width : Nat)
  /-- UP.BATCH (R217) -/
  | upBatch (width n : Nat)
  /-- RB.STREAM (R241) -/
  | rbStream (w : Word)
  /-- RB.CK (R242) -/
  | rbCk (seq : Half) (status : Byte) (payload : Payload)
  /-- EV.PREEMPT (R269) -/
  | evPreempt
  /-- EV.ABORT (R270) -/
  | evAbort
  /-- EV.ENTER_BUS (R271) -/
  | evEnterBus
  /-- EV.RESET (R300) -/
  | evReset
  deriving DecidableEq, Repr

end Sys2Proof
end

