-- ==== Sys2Proof/WellFormed.lean ====
section
/-! DEFINITION. Which terms of Instr stand for an operation the block can select: the conditions of
the opcode table that speak of the operands and the configuration, not of the state. -/

namespace Sys2Proof

/-- The width of a batch matters only when it puts or gets something (R214, R217). -/
def batchWidthOk (width n : Nat) : Bool := n == 0 || widthOk width

/-- The operand conditions of the opcode table's "when" column, under a configuration. -/
def Instr.wellFormed (c : Config) : Instr → Bool
  | .rxSkip b => b != c.sync
  | .rxSync b => b == c.sync
  | .rxLen _ => true
  | .rxData _ => true
  | .rxMasked _ => true
  | .ckFrame _ => true
  | .ckDrop f => !frameValid c f
  | .ckGetid _ ops => decide (ops.length ≤ 248)
  | .ckRoute _ code ops =>
    decide (ops.length ≤ 248) && code != Config.cmdGetId && (c.routeOf code ops).isSome
  | .ckUnsup _ code ops =>
    decide (ops.length ≤ 248) && code != Config.cmdGetId && (c.routeOf code ops).isNone
  | .mTake => true
  | .mExec => true
  | .cmdInvalid a o _ => !c.known a o
  | .cmdStart a _ => c.known a c.opStart
  | .cmdStop a _ => c.known a c.opStop
  | .cmdSleep a _ => c.known a c.opSleep
  | .cmdWakeup a _ => c.known a c.opWakeup
  | .cmdRead a _ => c.known a c.opRead
  | .cmdWrite a _ => c.known a c.opWrite
  | .cmdRspec a o _ => c.known a o && !c.generic.contains o
  | .pkInit => true
  | .pkPut _ width => widthOk width
  | .pkLen => true
  | .pkBatch width vs => batchWidthOk width vs.length
  | .upInit _ => true
  | .upGet width => widthOk width
  | .upBatch width n => batchWidthOk width n
  | .rbStream _ => true
  | .rbCk _ _ (.bytes payload) => decide (payload.length ≤ 249)
  | .rbCk _ _ .packed => true
  | .evPreempt => true
  | .evAbort => true
  | .evEnterBus => true
  | .evReset => true

end Sys2Proof
end

