-- ==== Sys2Proof/Decode.lean ====
section
/-! DEFINITION. Decoding of each request format to the operation it selects, total on any bytes, the
encoder written from the same tables, and the two reply formats, which select no operation. -/

namespace Sys2Proof

/-- The kinds of word that select an operation (30_encoding.md). What one byte selects depends on the framer's state and on
whether the receive interrupt reaches it (R100, R130), so the format `rxb` carries both. -/
inductive Format where
  /-- one byte to the streaming framer -/
  | rxb (masked : Bool) (st : FramerState)
  /-- one buffered read, as the operation that loads it (R161) -/
  | read
  /-- one buffered read, as the outcome it has (R94, R103) -/
  | creq
  /-- a streaming request that carries a command (R91, R92) -/
  | cmd
  deriving DecidableEq, Repr

/-- Why bytes are no word of a format. -/
inductive DecodeError where
  /-- not one byte -/
  | notOneByte
  /-- a streaming request that does not open with `SYNC` -/
  | noSync
  /-- a streaming request with another number of payload bytes than it declares, or no length -/
  | lengthMismatch
  /-- a payload of fewer than four bytes, which carries no command (R199) -/
  | shortPayload
  deriving DecidableEq, Repr

/-- What one received byte selects (R130, R100). -/
def decodeByte (c : Config) (masked : Bool) (st : FramerState) (b : Byte) : Instr :=
  if masked then .rxMasked b
  else match st with
    | .waiting => if b = c.sync then .rxSync b else .rxSkip b
    | .lengthPending => .rxLen b
    | .receiving => .rxData b

/-- What a dispatched command selects (R101): the first row first, the six opcodes, then the rest. -/
def decodeCommand (c : Config) (a o : Byte) (x : Half) : Instr :=
  if !c.known a o then .cmdInvalid a o x
  else if o = c.opStart then .cmdStart a x
  else if o = c.opStop then .cmdStop a x
  else if o = c.opSleep then .cmdSleep a x
  else if o = c.opWakeup then .cmdWakeup a x
  else if o = c.opRead then .cmdRead a x
  else if o = c.opWrite then .cmdWrite a x
  else .cmdRspec a o x

/-- What the command code of a valid frame selects (R103, R164). -/
def decodeCode (c : Config) (seq code : Half) (operands : List Byte) : Instr :=
  if code = Config.cmdGetId then .ckGetid seq operands
  else if (c.routeOf code operands).isSome then .ckRoute seq code operands
  else .ckUnsup seq code operands

/-- The outcome of one buffered read (R162, R164): the fields of a valid frame, in wire order. -/
def decodeFrame (c : Config) (f : List Byte) : Instr :=
  match frameValid c f, f with
  | true, _ :: _ :: sh :: sl :: kh :: kl :: rest =>
    decodeCode c (join16 sh sl) (join16 kh kl) rest.dropLast
  | _, _ => .ckDrop f

/-- The payload convention of a streaming request (R92, R99). -/
def decodePayload : List Byte → Option (Byte × Byte × Half)
  | a :: o :: xl :: xh :: _ => some (a, o, join16 xh xl)
  | _ => none

/-- A streaming request read as one word (R91, R92). -/
def decodeStream (c : Config) : List Byte → Except DecodeError Instr
  | s :: l :: payload =>
    if s ≠ c.sync then .error .noSync
    else if payload.length ≠ l.toNat then .error .lengthMismatch
    else match decodePayload payload with
      | some (a, o, x) => .ok (decodeCommand c a o x)
      | none => .error .shortPayload
  | [s] => if s ≠ c.sync then .error .noSync else .error .lengthMismatch
  | [] => .error .noSync

/-- The word that a streaming reply carries (R93), as its reader finds it. A reply selects no operation
(R111). -/
def readStreamReply (c : Config) : List Byte → Option Word
  | [b0, b1, b2, b3] =>
    match c.replyOrder with
    | .le => some (joinWord b0 b1 b2 b3)
    | .be => some (joinWord b3 b2 b1 b0)
  | _ => none

/-- The sequence id, status and payload of a checksummed reply (R95), as its reader finds them: five
header bytes, the payload, the checksum. A reply selects no operation (R111). -/
def readCkReply (c : Config) (f : List Byte) : Option (Half × Byte × List Byte) :=
  match f with
  | s :: l :: sh :: sl :: status :: rest =>
    if s = c.sof ∧ l.toNat = f.length ∧ rest ≠ [] ∧ f.getLast? = some (ck8 f.dropLast) then
      some (join16 sh sl, status, rest.dropLast)
    else none
  | _ => none

/-- The operation that the bytes of a word of a format select. -/
def decode (c : Config) : Format → List Byte → Except DecodeError Instr
  | .rxb masked st, [b] => .ok (decodeByte c masked st b)
  | .rxb _ _, _ => .error .notOneByte
  | .read, f => .ok (.ckFrame f)
  | .creq, f => .ok (decodeFrame c f)
  | .cmd, bs => decodeStream c bs

/-- A streaming request for a command: `SYNC`, the length 4, address, opcode, operand (R91, R92). -/
def encodeCommand (c : Config) (a o : Byte) (x : Half) : List Byte :=
  [c.sync, 4, a, o, loByte x, hiByte x]

/-- A checksummed request (R94). -/
def encodeRequest (c : Config) (seq code : Half) (operands : List Byte) : List Byte :=
  withChecksum ([c.sof, BitVec.ofNat 8 (7 + operands.length), hiByte seq, loByte seq,
    hiByte code, loByte code] ++ operands)

/-- A checksummed reply (R95, R242). -/
def encodeReply (c : Config) (seq : Half) (status : Byte) (payload : List Byte) : List Byte :=
  withChecksum ([c.sof, BitVec.ofNat 8 (6 + payload.length), hiByte seq, loByte seq, status]
    ++ payload)

/-- The format of an operation's word, or nothing for an operation that no byte selects (R111). -/
def formatOf : Instr → Option Format
  | .rxSkip _ => some (.rxb false .waiting)
  | .rxSync _ => some (.rxb false .waiting)
  | .rxLen _ => some (.rxb false .lengthPending)
  | .rxData _ => some (.rxb false .receiving)
  | .rxMasked _ => some (.rxb true .waiting)
  | .ckFrame _ => some .read
  | .ckDrop _ => some .creq
  | .ckGetid _ _ => some .creq
  | .ckRoute _ _ _ => some .creq
  | .ckUnsup _ _ _ => some .creq
  | .mTake => none
  | .mExec => none
  | .cmdInvalid _ _ _ => some .cmd
  | .cmdStart _ _ => some .cmd
  | .cmdStop _ _ => some .cmd
  | .cmdSleep _ _ => some .cmd
  | .cmdWakeup _ _ => some .cmd
  | .cmdRead _ _ => some .cmd
  | .cmdWrite _ _ => some .cmd
  | .cmdRspec _ _ _ => some .cmd
  | .pkInit => none
  | .pkPut _ _ => none
  | .pkLen => none
  | .pkBatch _ _ => none
  | .upInit _ => none
  | .upGet _ => none
  | .upBatch _ _ => none
  | .rbStream _ => none
  | .rbCk _ _ _ => none
  | .evPreempt => none
  | .evAbort => none
  | .evEnterBus => none
  | .evReset => none

/-- The bytes of an operation's word; empty where the opcode table's pattern is empty (R111). -/
def encode (c : Config) : Instr → List Byte
  | .rxSkip b => [b]
  | .rxSync b => [b]
  | .rxLen b => [b]
  | .rxData b => [b]
  | .rxMasked b => [b]
  | .ckFrame f => f
  | .ckDrop f => f
  | .ckGetid seq ops => encodeRequest c seq Config.cmdGetId ops
  | .ckRoute seq code ops => encodeRequest c seq code ops
  | .ckUnsup seq code ops => encodeRequest c seq code ops
  | .mTake => []
  | .mExec => []
  | .cmdInvalid a o x => encodeCommand c a o x
  | .cmdStart a x => encodeCommand c a c.opStart x
  | .cmdStop a x => encodeCommand c a c.opStop x
  | .cmdSleep a x => encodeCommand c a c.opSleep x
  | .cmdWakeup a x => encodeCommand c a c.opWakeup x
  | .cmdRead a x => encodeCommand c a c.opRead x
  | .cmdWrite a x => encodeCommand c a c.opWrite x
  | .cmdRspec a o x => encodeCommand c a o x
  | .pkInit => []
  | .pkPut _ _ => []
  | .pkLen => []
  | .pkBatch _ _ => []
  | .upInit _ => []
  | .upGet _ => []
  | .upBatch _ _ => []
  | .rbStream _ => []
  | .rbCk _ _ _ => []
  | .evPreempt => []
  | .evAbort => []
  | .evEnterBus => []
  | .evReset => []

/-- The bytes of a word numbered as the opcode table numbers it: bit 0 is the least significant bit
of the first byte. -/
def tableBytes (nbits w : Nat) : List Byte :=
  (List.range (nbits / 8)).map (fun i => BitVec.ofNat 8 (w / 256 ^ i))

/-- The operation the decoder reads from a word of the opcode table. One byte is read by an idle,
unmasked streaming framer; a longer word that opens with `SYNC` is a streaming request; any other is
a buffered read (log entry 21). No word is a reply construction (R111). -/
def decodeTableWord (nbits w : Nat) : Option Instr :=
  match tableBytes nbits w with
  | [] => none
  | [b] => some (decodeByte Config.device false .waiting b)
  | b :: bs =>
    if b = Config.device.sync then (decodeStream Config.device (b :: bs)).toOption
    else some (.ckFrame (b :: bs))

end Sys2Proof
end

