-- ==== Sys2Proof/Machine/State.lean ====
section
/-! DEFINITION. The state of the block, the faults and refusals, and the state after reset. -/

namespace Sys2Proof.Machine

/-- A byte buffer as plain data: the bytes that have been written, by index, indices strictly rising.
An index that is not listed has not been written since reset (log entry 9). -/
abbrev Memory := List Host.Cell

/-- The canonical form of a buffer: indices strictly rising. -/
abbrev Memory.wf (m : Memory) : Prop := m.Pairwise (fun p q => p.1 < q.1)

/-- The named fault states (R260, R265, R266). -/
inductive Trap where
  /-- `DebugHalt`: a collaborator answered `halt` -/
  | debugHalt
  /-- `CodecOverflow`: packing past the end of the pack buffer -/
  | codecOverflow
  /-- `CodecUnderrun`: unpacking past the end of the stream -/
  | codecUnderrun
  deriving DecidableEq, Repr

/-- The five entry points of a collaborator (R182). -/
inductive CollabFn where
  | start
  | stop
  | sleep
  | wakeup
  | handle (o : Byte) (x : Half)
  deriving DecidableEq, Repr

/-- A collaborator's answer as `CALLS` records it (R46, R195): `done` from a lifecycle entry point, a
value from `handle`, an expired wait, a debug-halt. -/
inductive Answer where
  | done
  | value (w : Word)
  | timeout
  | halt
  deriving DecidableEq, Repr

/-- An entry of `CALLS` (R46). -/
structure Call where
  fn     : CollabFn
  addr   : Byte
  answer : Answer
  deriving DecidableEq, Repr

/-- What an operation answered to whoever invoked it: a field of the model's own (log entry 15). -/
inductive Result where
  | none
  /-- `PK.LEN` (R213) -/
  | length (n : Nat)
  /-- `PK.BATCH` (R214) -/
  | bytes (bs : List Byte)
  /-- `UP.GET` (R216) -/
  | value (v : Word)
  /-- `UP.BATCH` (R217) -/
  | values (vs : List Word)
  /-- a dispatched command: the Response (R185) -/
  | response (status : Byte) (w : Word)
  /-- a dispatched command that ended in `TIMEOUT` (R185) -/
  | timeout
  deriving DecidableEq, Repr

/-- The events that cause steps (R6), one per line of the notation of R112; `pkBatch` and `upBatch`
are the two pseudo-operations that are rows of the opcode table (R113). -/
inductive Event where
  | rx (b : Byte)
  | ck (f : List Byte)
  | take
  | exec
  | preempt
  | abort
  | enterBus
  | reset
  | pkInit
  | pkPut (v : Word) (width : Nat)
  | pkLen
  | pkBatch (width : Nat) (vs : List Word)
  | upInit (src : UpSource)
  | upGet (width : Nat)
  | upBatch (width n : Nat)
  deriving DecidableEq, Repr

/-- The state: the registers, buffers and histories of R21 to R46, the fault state, the two codec
initialisation bits of R302, the configuration, and the fields that stand for the environment. -/
structure State where
  /-- the configuration record of R8, which no operation writes -/
  cfg      : Config
  st       : FramerState
  len      : Byte
  cnt      : Byte
  rxbuf    : Memory
  done     : Bool
  busy     : Bool
  rxie     : Bool
  mode     : Mode
  cv       : Bool
  ca       : Byte
  co       : Byte
  cx       : Half
  fbuf     : Memory
  flen     : Nat
  /-- `EN[a]` is bit `a` (R33: "resource-enabled bitset") -/
  en       : BitVec 256
  pkBuf    : Memory
  pkIdx    : Nat
  pkFree   : Nat
  /-- `UP.SRC` (R37): a byte sequence of its own, or bytes of the pack buffer, read where they stand -/
  upSrc    : UpSource
  upN      : Nat
  upIdx    : Nat
  upFree   : Nat
  txStream : List Byte
  txCk     : List Byte
  calls    : List Call
  /-- the named fault state, if a step has ended in one -/
  trap     : Option Trap
  /-- `PK.INIT` has run since reset -/
  pkReady  : Bool
  /-- `UP.INIT` has run since reset -/
  upReady  : Bool
  /-- the model's own: the last answer -/
  result   : Result
  /-- the model's own: the environment's events to come, oldest first -/
  events   : List Event
  /-- the model's own: answers the environment has fixed beforehand, oldest first -/
  answers  : List Reply
  /-- the model's own: how many free values have been drawn -/
  draws    : Nat
  /-- the model's own: how many resets have been taken -/
  epoch    : Nat
  deriving DecidableEq, Repr

/-- Why the machine stops with a fault. -/
inductive Fault where
  /-- Raised by every operation but `EV.RESET` in the fault state `CodecOverflow`: the spec lets no
  claim continue from there (R266, U21). Safe. -/
  | codecOverflow
  /-- Raised by every operation but `EV.RESET` in the fault state `CodecUnderrun` (R266, U21). Safe. -/
  | codecUnderrun
  /-- Raised by `RX.DATA` at an index outside `RXBUF`, which R61 and R77 call impossible and no run
  reaches. Safe. -/
  | rxbufIndex
  deriving DecidableEq, Repr

/-- Why an operation has no meaning. -/
inductive Refusal where
  /-- Raised by an arm of `exec` whose instruction has no meaning yet; no arm is left so. Safe. -/
  | notModelled (mnemonic : String)
  /-- Raised by `M.TAKE` with `LEN < 4` (R199: "this spec gives `M.TAKE` no meaning in that case
  (`refuse`)"). Safe. -/
  | shortTransfer
  /-- Raised by `PK.PUT`, `UP.GET` and their batches for a width outside 1 to 32 (R219). Safe. -/
  | illegalWidth
  /-- Raised by `PK.PUT`, `PK.LEN` before any `PK.INIT` and `UP.GET`, also within `UP.BATCH`, before any
  `UP.INIT` (R302: "a model must treat them as `refuse`"; U8). Safe. -/
  | codecUninitialised
  /-- Raised by `RB.CK` with more than the 249 payload bytes that its length byte can spell (R242:
  "no rule of this spec produces it"). Safe. -/
  | payloadTooLong
  /-- Raised by an operation run where the block's decoding selects another one (an `RX.DATA` while
  `ST = WAITING`, a `CMD.READ` of an unknown resource). `step` never runs one. Safe. -/
  | notSelected
  deriving DecidableEq, Repr

/-- The state right after reset (R49) of a block with a given configuration. The registers that R49
leaves unspecified hold the values of log entry 7. -/
def State.resetOf (c : Config) : State where
  cfg := c
  st := .waiting
  len := 0
  cnt := 0
  rxbuf := []
  done := false
  busy := false
  rxie := false
  mode := c.resetMode
  cv := false
  ca := 0
  co := 0
  cx := 0
  fbuf := []
  flen := 0
  en := 0
  pkBuf := []
  pkIdx := 0
  pkFree := 8
  upSrc := .bytes []
  upN := 0
  upIdx := 0
  upFree := 8
  txStream := []
  txCk := []
  calls := []
  trap := none
  pkReady := false
  upReady := false
  result := .none
  events := []
  answers := []
  draws := 0
  epoch := 0

/-- The machine right after reset: the device's configuration, every field as R49 or the log says. -/
def State.reset : State := State.resetOf Config.device

end Sys2Proof.Machine
end

