-- ==== Sys2Proof/Machine/Flags.lean ====
section
/-! DEFINITION. The flags of R44: the enabled bits, the busy indicator, and the conditions on flags
and mode under which each agent takes a step. -/

namespace Sys2Proof.Machine

/-- Bit `i` of a bitset set to a value. -/
def putBit (v : BitVec 256) (i : Nat) (b : Bool) : BitVec 256 :=
  if b then v ||| BitVec.twoPow 256 i else v &&& ~~~(BitVec.twoPow 256 i)

/-- `EN[a]` (R33). -/
def State.enabled (s : State) (a : Byte) : Bool := s.en.getLsbD a.toNat

/-- `EN[a] <- b` (R33). -/
def State.setEn (s : State) (a : Byte) (b : Bool) : State := { s with en := putBit s.en a.toNat b }

/-- `if FLOW_CONTROL then BUSY <- 1` (R26, R132). -/
def State.raiseBusy (s : State) : State := { s with busy := s.busy || s.cfg.flowControl }

/-- `if FLOW_CONTROL then BUSY <- 0` (R26, R184). -/
def State.dropBusy (s : State) : State := { s with busy := s.busy && !s.cfg.flowControl }

/-- A received byte does not reach the framer (R130, R136). -/
def State.masked (s : State) : Bool := s.mode != .peripheralBus || !s.rxie

/-- `M.TAKE` is enabled (R42, R183). -/
def State.takeEnabled (s : State) : Bool := s.mode == .peripheralBus && s.done && !s.cv

/-- `M.EXEC` is enabled (R42, R184). -/
def State.execEnabled (s : State) : Bool := s.cv

/-- `CK.FRAME` is enabled (R160, R276). -/
def State.frameEnabled (s : State) : Bool := s.mode == .hostDebug

end Sys2Proof.Machine
end

