-- ==== Sys2Proof/Machine/Ops.lean ====
section
/-! DEFINITION. The named operations over buffers, histories, events and draws, entering a fault
state, and the choice of the next operation. -/

namespace Sys2Proof.Machine

/-- `MemRead(B, i, 1)`: the byte at an index, if one has been written there (R10, R64). -/
def Memory.read : Memory → Nat → Option Byte
  | [], _ => none
  | (k, b) :: m, i => if k = i then some b else Memory.read m i

/-- `MemWrite(B, i, 1, v)` (R10, R64), keeping the canonical form. -/
def Memory.write : Memory → Nat → Byte → Memory
  | [], i, v => [(i, v)]
  | (k, b) :: m, i, v =>
    if i < k then (i, v) :: (k, b) :: m
    else if i = k then (i, v) :: m
    else (k, b) :: Memory.write m i v

/-- The bytes of a sequence written one after the other from an index on (R161). -/
def Memory.writeAll : Memory → Nat → List Byte → Memory
  | m, _, [] => m
  | m, i, b :: bs => Memory.writeAll (Memory.write m i b) (i + 1) bs

/-- `RXBUF[i]`; a byte nothing has written is a free value (R24, U10). -/
def State.rxByte (s : State) (i : Nat) : Byte :=
  (Memory.read s.rxbuf i).getD (Config.freeCell .rxbuf s.epoch i)

/-- `FBUF[i]`; a byte nothing has written is a free value (R31, U10). -/
def State.frameByte (s : State) (i : Nat) : Byte :=
  (Memory.read s.fbuf i).getD (Config.freeCell .fbuf s.epoch i)

/-- `PK.BUF[i]`; a byte nothing has written is a free value (R34, U11), and so is one past the end of
the buffer (log entry 17). -/
def State.packByte (s : State) (i : Nat) : Byte :=
  (Memory.read s.pkBuf i).getD (Config.freeCell .pkbuf s.epoch i)

/-- `FBUF[0 .. FLEN-1]`. -/
def State.frameBytes (s : State) : List Byte := (List.range s.flen).map s.frameByte

/-- `PK.BUF[0 .. n-1]`. -/
def State.packBytes (s : State) (n : Nat) : List Byte := (List.range n).map s.packByte

/-- The byte count of the packed stream, a partial last byte included (R213). -/
def State.packLen (s : State) : Nat := if s.pkFree < 8 then s.pkIdx + 1 else s.pkIdx

/-- `PK.BUF[i] <- b`. -/
def State.setPackByte (s : State) (i : Nat) (b : Byte) : State :=
  { s with pkBuf := Memory.write s.pkBuf i b }

/-- `raise <Fault>` (R10): the step ends in the named fault state, every register as it stands. -/
def State.raise (s : State) (t : Trap) : State := { s with trap := some t }

/-- What a fault state leaves of an operation (R265, R266, U21): after `DebugHalt` no step but a reset
is enabled, so the event that would cause one changes nothing; from a codec fault no claim continues. -/
def live (s : State) (k : Host.Outcome State Fault Refusal) : Host.Outcome State Fault Refusal :=
  match s.trap with
  | none => k
  | some .debugHalt => .next s
  | some .codecOverflow => .fault .codecOverflow
  | some .codecUnderrun => .fault .codecUnderrun

/-- `TX(STREAM) <+ bytes` (R45). -/
def State.sendStream (s : State) (bs : List Byte) : State := { s with txStream := s.txStream ++ bs }

/-- `TX(CK) <+ bytes` (R45). -/
def State.sendCk (s : State) (bs : List Byte) : State := { s with txCk := s.txCk ++ bs }

/-- An answer for the invoker of an operation (log entry 15). -/
def State.answer (s : State) (r : Result) : State := { s with result := r }

/-- One free value drawn. -/
def State.drawn (s : State) : State := { s with draws := s.draws + 1 }

/-- The next answer of a collaborator (R195): one the environment has fixed, or a free value. -/
def State.nextReply (s : State) : Reply :=
  match s.answers with
  | r :: _ => r
  | [] => Config.freeReply s.draws

/-- The state once that answer has been given. -/
def State.replied (s : State) : State :=
  match s.answers with
  | _ :: rs => { s with answers := rs }
  | [] => s.drawn

/-- An answer as `CALLS` records it: only `handle` returns a value (R182, R195). -/
def answerOf : CollabFn → Reply → Answer
  | .handle _ _, .ok w => .value w
  | _, .ok _ => .done
  | _, .timeout => .timeout
  | _, .halt => .halt

/-- `CALLS` with a call appended (R46). -/
def State.logCall (s : State) (k : Call) : State := { s with calls := s.calls ++ [k] }

/-- The state after `call fn(a)`: the answer taken and the call recorded with it (R182). The answer
itself is `s.nextReply`. -/
def State.called (s : State) (fn : CollabFn) (a : Byte) : State :=
  s.replied.logCall ⟨fn, a, answerOf fn s.nextReply⟩

/-- `EN[a] <- draw bool` (R187, R188, R189). -/
def State.drawEn (s : State) (a : Byte) : State := (s.setEn a (Config.freeBit s.draws)).drawn

/-- `COMPLETE()` (R135). -/
def State.complete (s : State) : State := { s with done := true, st := .waiting }

/-- The transfer state reset (R264): the framer idle, no completed transfer. -/
def State.idleFramer (s : State) : State := { s with st := .waiting, done := false }

/-- The operation an event causes (R6, R112): a byte is decoded by the framer's state (R100, R130). -/
def State.eventInstr (s : State) : Event → Instr
  | .rx b => decodeByte s.cfg s.masked s.st b
  | .ck f => .ckFrame f
  | .take => .mTake
  | .exec => .mExec
  | .preempt => .evPreempt
  | .abort => .evAbort
  | .enterBus => .evEnterBus
  | .reset => .evReset
  | .pkInit => .pkInit
  | .pkPut v width => .pkPut v width
  | .pkLen => .pkLen
  | .pkBatch width vs => .pkBatch width vs
  | .upInit src => .upInit src
  | .upGet width => .upGet width
  | .upBatch width n => .upBatch width n

/-- The state with its oldest event delivered. -/
def State.delivered (s : State) : State := { s with events := s.events.tail }

/-- The next operation: what the oldest event causes, if there is one. -/
def State.fetch (s : State) : Option Instr := s.events.head?.map s.eventInstr

end Sys2Proof.Machine
end

