-- ==== Sys2Proof/Machine/Dispatcher.lean ====
section
/-! DEFINITION. The command dispatcher: DISPATCH, AUTOINIT and the CMD operations (R181 to R199). -/

namespace Sys2Proof.Machine

/-- How a dispatch ends (R185): with a Response, with `TIMEOUT`, or by raising `DebugHalt`. -/
inductive DispatchEnd where
  | response (status : Byte) (w : Word)
  | timeout
  | halt
  deriving DecidableEq, Repr

/-- `(ST_OK, LIFECYCLE_RESULT)` (R188 to R191). -/
def State.lifecycleDone (s : State) : DispatchEnd × State :=
  (.response Config.stOk s.cfg.lifecycleResult, s)

/-- `call start(a)` and what follows it when it completes; after a timeout `EN[a]` is a draw (R187,
R188). -/
def startThen (a : Byte) (k : State → DispatchEnd × State) (s : State) : DispatchEnd × State :=
  match s.nextReply with
  | .ok _ => k ((s.called .start a).setEn a true)
  | .timeout => (.timeout, (s.called .start a).drawEn a)
  | .halt => (.halt, s.called .start a)

/-- `AUTOINIT(a)` (R187) and the command it is the head of. -/
def autoInit (a : Byte) (k : State → DispatchEnd × State) (s : State) : DispatchEnd × State :=
  if s.enabled a then k s else startThen a k s

/-- CMD.INVALID (R186). -/
def cmdInvalid (s : State) : DispatchEnd × State :=
  (.response s.cfg.stUnsupported s.cfg.sentinel, s)

/-- CMD.START (R188): the collaborator is started only when the resource is disabled. -/
def cmdStart (a : Byte) (s : State) : DispatchEnd × State :=
  if s.enabled a then s.lifecycleDone else startThen a State.lifecycleDone s

/-- CMD.STOP after AUTOINIT (R189). -/
def cmdStop (a : Byte) (s : State) : DispatchEnd × State :=
  match s.nextReply with
  | .ok _ => ((s.called .stop a).setEn a false).lifecycleDone
  | .timeout => (.timeout, (s.called .stop a).drawEn a)
  | .halt => (.halt, s.called .stop a)

/-- A lifecycle call that leaves `EN[a]` as it is (R190, R191). -/
def lifecycleCall (fn : CollabFn) (a : Byte) (s : State) : DispatchEnd × State :=
  match s.nextReply with
  | .ok _ => (s.called fn a).lifecycleDone
  | .timeout => (.timeout, s.called fn a)
  | .halt => (.halt, s.called fn a)

/-- CMD.SLEEP after AUTOINIT (R190). -/
def cmdSleep (a : Byte) (s : State) : DispatchEnd × State := lifecycleCall .sleep a s

/-- CMD.WAKEUP after AUTOINIT (R191). -/
def cmdWakeup (a : Byte) (s : State) : DispatchEnd × State := lifecycleCall .wakeup a s

/-- `call handle(a, o, x)`; the word comes back unchanged, a sentinel too (R192, R263). -/
def cmdHandle (a o : Byte) (x : Half) (s : State) : DispatchEnd × State :=
  match s.nextReply with
  | .ok w => (.response Config.stOk w, s.called (.handle o x) a)
  | .timeout => (.timeout, s.called (.handle o x) a)
  | .halt => (.halt, s.called (.handle o x) a)

/-- CMD.READ after AUTOINIT (R192). -/
def cmdRead (a : Byte) (x : Half) (s : State) : DispatchEnd × State := cmdHandle a s.cfg.opRead x s

/-- CMD.WRITE after AUTOINIT (R193). -/
def cmdWrite (a : Byte) (x : Half) (s : State) : DispatchEnd × State := cmdHandle a s.cfg.opWrite x s

/-- CMD.RSPEC after AUTOINIT (R194). -/
def cmdRspec (a o : Byte) (x : Half) (s : State) : DispatchEnd × State := cmdHandle a o x s

/-- The command after AUTOINIT, by its opcode (R185). -/
def cmdBody (a o : Byte) (x : Half) (s : State) : DispatchEnd × State :=
  if o = s.cfg.opStop then cmdStop a s
  else if o = s.cfg.opSleep then cmdSleep a s
  else if o = s.cfg.opWakeup then cmdWakeup a s
  else if o = s.cfg.opRead then cmdRead a x s
  else if o = s.cfg.opWrite then cmdWrite a x s
  else cmdRspec a o x s

/-- `DISPATCH(a, o, x)` (R185): the unknown test first, then `start`, then AUTOINIT, then the rest. -/
def dispatch (a o : Byte) (x : Half) (s : State) : DispatchEnd × State :=
  if !s.cfg.known a o then cmdInvalid s
  else if o = s.cfg.opStart then cmdStart a s
  else autoInit a (cmdBody a o x) s

/-- A dispatched command run on its own: the Response is its answer (log entries 14 and 15); a
`DebugHalt` enters its fault state (R265). -/
def answerCommand : DispatchEnd × State → Host.Outcome State Fault Refusal
  | (.response status w, s) => .next (s.answer (.response status w))
  | (.timeout, s) => .next (s.answer .timeout)
  | (.halt, s) => .next (s.raise .debugHalt)

/-- A command where the dispatcher selects it (R101). -/
def runCommand (s : State) (sel : Bool) (k : State → DispatchEnd × State) :
    Host.Outcome State Fault Refusal :=
  live s (if sel then answerCommand (k s) else .refused .notSelected)

/-- CMD.INVALID (R186): the operands are ignored. -/
def execCmdInvalid (a o : Byte) (_x : Half) (s : State) : Host.Outcome State Fault Refusal :=
  runCommand s (!s.cfg.known a o) cmdInvalid

/-- CMD.START (R188): the operand is ignored. -/
def execCmdStart (a : Byte) (_x : Half) (s : State) : Host.Outcome State Fault Refusal :=
  runCommand s (s.cfg.known a s.cfg.opStart) (cmdStart a)

/-- CMD.STOP (R189): the operand is ignored. -/
def execCmdStop (a : Byte) (_x : Half) (s : State) : Host.Outcome State Fault Refusal :=
  runCommand s (s.cfg.known a s.cfg.opStop) (autoInit a (cmdStop a))

/-- CMD.SLEEP (R190): the operand is ignored. -/
def execCmdSleep (a : Byte) (_x : Half) (s : State) : Host.Outcome State Fault Refusal :=
  runCommand s (s.cfg.known a s.cfg.opSleep) (autoInit a (cmdSleep a))

/-- CMD.WAKEUP (R191): the operand is ignored. -/
def execCmdWakeup (a : Byte) (_x : Half) (s : State) : Host.Outcome State Fault Refusal :=
  runCommand s (s.cfg.known a s.cfg.opWakeup) (autoInit a (cmdWakeup a))

/-- CMD.READ (R192). -/
def execCmdRead (a : Byte) (x : Half) (s : State) : Host.Outcome State Fault Refusal :=
  runCommand s (s.cfg.known a s.cfg.opRead) (autoInit a (cmdRead a x))

/-- CMD.WRITE (R193). -/
def execCmdWrite (a : Byte) (x : Half) (s : State) : Host.Outcome State Fault Refusal :=
  runCommand s (s.cfg.known a s.cfg.opWrite) (autoInit a (cmdWrite a x))

/-- CMD.RSPEC (R194). -/
def execCmdRspec (a o : Byte) (x : Half) (s : State) : Host.Outcome State Fault Refusal :=
  runCommand s (s.cfg.known a o && !s.cfg.generic.contains o) (autoInit a (cmdRspec a o x))

end Sys2Proof.Machine
end

