-- ==== Sys2Proof/Machine/Replies.lean ====
section
/-! DEFINITION. The response builder: RB.STREAM, RB.CK (R240 to R248). -/

namespace Sys2Proof.Machine

/-- The streaming reply word handed to the transport (R241). -/
def State.replyWord (s : State) (w : Word) : State := s.sendStream (wordBytes w s.cfg.replyOrder)

/-- A checksummed reply handed to the transport (R242). -/
def State.replyFrame (s : State) (seq : Half) (status : Byte) (payload : List Byte) : State :=
  s.sendCk (encodeReply s.cfg seq status payload)

/-- The packed stream can be spelt as a payload: `PK.INIT` has run and the stream has at most 249 bytes
(R242). -/
def State.packSpelt (s : State) : Bool := s.pkReady && decide (s.packLen ≤ 249)

/-- A checksummed reply whose payload is `PK.BUF[0 .. PK.LEN-1]` (R224, R248); where that cannot be
spelt the payload is a free value (log entry 29). -/
def State.replyPacked (s : State) (seq : Half) (status : Byte) : State :=
  if s.packSpelt then s.replyFrame seq status (s.packBytes s.packLen)
  else s.drawn.replyFrame seq status (cutPayload (Config.freeBytes s.draws))

/-- RB.STREAM (R241). -/
def execRbStream (w : Word) (s : State) : Host.Outcome State Fault Refusal :=
  live s (.next (s.replyWord w))

/-- RB.CK (R242). -/
def execRbCk (seq : Half) (status : Byte) (payload : Payload) (s : State) :
    Host.Outcome State Fault Refusal :=
  live s
    (match payload with
    | .bytes p =>
      if p.length ≤ 249 then .next (s.replyFrame seq status p) else .refused .payloadTooLong
    | .packed => .next (s.replyPacked seq status))

end Sys2Proof.Machine
end

