-- ==== Sys2Proof/Machine/ChecksumFramer.lean ====
section
/-! DEFINITION. The checksummed framer: CK.FRAME and its outcomes (R160 to R170). -/

namespace Sys2Proof.Machine

/-- An outcome of a buffered read: only in HOST_DEBUG (R160), and only where the validation and the
command code select it (R162, R103). -/
def frameOutcome (s : State) (sel : Bool) (k : State) : Host.Outcome State Fault Refusal :=
  live s (if !s.frameEnabled then .next s else if sel then .next k else .refused .notSelected)

/-- CK.DROP (R163): no reply, and nothing changes. -/
def execCkDrop (f : List Byte) (s : State) : Host.Outcome State Fault Refusal :=
  frameOutcome s (!frameValid s.cfg f) s

/-- CK.GETID (R165): operand bytes are ignored. -/
def execCkGetid (seq : Half) (operands : List Byte) (s : State) :
    Host.Outcome State Fault Refusal :=
  frameOutcome s (decide (operands.length ≤ 248))
    (s.replyFrame seq Config.stOk [s.cfg.family, s.cfg.ident])

/-- What CK.ROUTE does with the end of its dispatch (R166, R247, R265): the payload is the result word,
or the packed stream where that is the command's result (R248). -/
def finishRoute (packs : Bool) (seq : Half) : DispatchEnd × State → State
  | (.response status w, s) =>
    if packs then s.replyPacked seq status
    else s.replyFrame seq status (wordBytes w s.cfg.ckWordOrder)
  | (.timeout, s) =>
    s.drawn.drawn.replyFrame seq (Config.freeStatus s.draws)
      (cutPayload (Config.freeBytes (s.draws + 1)))
  | (.halt, s) => s.raise .debugHalt

/-- CK.ROUTE (R166). -/
def execCkRoute (seq code : Half) (operands : List Byte) (s : State) :
    Host.Outcome State Fault Refusal :=
  match s.cfg.routeOf code operands with
  | some (a, o, x) =>
    frameOutcome s (decide (operands.length ≤ 248) && code != Config.cmdGetId)
      (finishRoute (s.cfg.packs a o) seq (dispatch a o x s))
  | none => frameOutcome s false s

/-- CK.UNSUP (R168): an empty payload. -/
def execCkUnsup (seq code : Half) (operands : List Byte) (s : State) :
    Host.Outcome State Fault Refusal :=
  frameOutcome s (decide (operands.length ≤ 248) && code != Config.cmdGetId &&
    (s.cfg.routeOf code operands).isNone) (s.replyFrame seq s.cfg.stUnsupported [])

/-- The frame buffer loaded with a buffered read (R161). -/
def State.loadFrame (s : State) (f : List Byte) : State :=
  { s with flen := f.length, fbuf := Memory.writeAll s.fbuf 0 f }

/-- The outcome that the bytes in the frame buffer select (R162, R164). -/
def runFrame (s : State) : Host.Outcome State Fault Refusal :=
  match decodeFrame s.cfg s.frameBytes with
  | .ckGetid seq operands => execCkGetid seq operands s
  | .ckRoute seq code operands => execCkRoute seq code operands s
  | .ckUnsup seq code operands => execCkUnsup seq code operands s
  | _ => execCkDrop s.frameBytes s

/-- CK.FRAME (R161, R162, R164). A buffered read in PERIPHERAL_BUS changes nothing (R160); one longer
than the frame buffer is dropped before it is stored (R161). -/
def execCkFrame (f : List Byte) (s : State) : Host.Outcome State Fault Refusal :=
  live s
    (if !s.frameEnabled then .next s
    else if Config.fbufSize < f.length then .next s
    else runFrame (s.loadFrame f))

end Sys2Proof.Machine
end

