-- ==== Sys2Proof/Machine/Codec.lean ====
section
/-! DEFINITION. The result codec: PK.INIT, PK.PUT, PK.LEN, PK.BATCH, UP.INIT, UP.GET, UP.BATCH (R210 to
R224), under both bit orders. -/

namespace Sys2Proof.Machine

/-- PK.INIT (R211). -/
def State.packStarted (s : State) : State :=
  { s.setPackByte 0 0 with pkIdx := 0, pkFree := 8, pkReady := true }

/-- PK.INIT (R211). -/
def execPkInit (s : State) : Host.Outcome State Fault Refusal := live s (.next s.packStarted)

/-- The next chunk ORed into the byte being filled (R212, R222). -/
def State.packChunk (s : State) (v : Word) (width rem : Nat) : State :=
  let k := min rem s.pkFree
  s.setPackByte s.pkIdx
    (orChunk (s.packByte s.pkIdx) (chunkOf s.cfg.packOrder v width rem k)
      (chunkShift s.cfg.packOrder s.pkFree k))

/-- The byte being filled left for the next, which is zeroed (R212). -/
def State.packAdvanced (s : State) : State :=
  { s.setPackByte (s.pkIdx + 1) 0 with pkIdx := s.pkIdx + 1, pkFree := 8 }

/-- The loop of PK.PUT (R212), `rem` bits remaining. Each turn but one at `PK.FREE = 0`, which no run
reaches, places a bit, so `fuel` above `rem` is enough. A write outside the buffer raises
`CodecOverflow` (R77, R220). -/
def packLoop (v : Word) (width : Nat) : Nat → Nat → State → State
  | 0, _, s => s
  | fuel + 1, rem, s =>
    if rem = 0 then s
    else if s.cfg.pkbufSize ≤ s.pkIdx then s.raise .codecOverflow
    else if rem < s.pkFree then { s.packChunk v width rem with pkFree := s.pkFree - rem }
    else if s.cfg.pkbufSize ≤ s.pkIdx + 1 then (s.packChunk v width rem).raise .codecOverflow
    else packLoop v width fuel (rem - s.pkFree) (s.packChunk v width rem).packAdvanced

/-- `PK.PUT(v, W)` for a legal width (R212). -/
def State.packed (s : State) (v : Word) (width : Nat) : State :=
  packLoop v width (width + 1) width s

/-- PK.PUT (R212, R219). Before any `PK.INIT` it is refused as R302 demands: "a model must treat them
as `refuse`" (70_reset_and_hazards.md; U8 of 93_implementation_defined.md). -/
def execPkPut (v : Word) (width : Nat) (s : State) : Host.Outcome State Fault Refusal :=
  live s
    (if !widthOk width then .refused .illegalWidth
    else if !s.pkReady then .refused .codecUninitialised
    else .next (s.packed v width))

/-- PK.LEN (R213), refused before any `PK.INIT` in the same words of R302 and U8. -/
def execPkLen (s : State) : Host.Outcome State Fault Refusal :=
  live s
    (if !s.pkReady then .refused .codecUninitialised else .next (s.answer (.length s.packLen)))

/-- The values of a batch put in index order, up to a fault (R214). -/
def packAll (width : Nat) : List Word → State → State
  | [], s => s
  | v :: vs, s =>
    let s := s.packed v width
    if s.trap.isSome then s else packAll width vs s

/-- The end of a batch (R214): its result is `PK.BUF[0 .. PK.LEN-1]`, if no put has faulted. -/
def State.batchDone (s : State) : State :=
  if s.trap.isSome then s else s.answer (.bytes (s.packBytes s.packLen))

/-- PK.BATCH (R214). -/
def execPkBatch (width : Nat) (vs : List Word) (s : State) : Host.Outcome State Fault Refusal :=
  live s
    (if !batchWidthOk width vs.length then .refused .illegalWidth
    else .next (packAll width vs s.packStarted).batchDone)

/-- The effect of UP.INIT (R215). -/
def State.unpackStarted (s : State) (src : UpSource) : State :=
  { s with upSrc := src, upN := src.length, upIdx := 0, upFree := 8, upReady := true }

/-- UP.INIT (R215). -/
def execUpInit (src : UpSource) (s : State) : Host.Outcome State Fault Refusal :=
  live s (.next (s.unpackStarted src))

/-- `UP.SRC[i]` (R216): a byte of the sequence, or of the pack buffer as it stands (R34, R60). -/
def State.sourceByte (s : State) (i : Nat) : Byte :=
  match s.upSrc with
  | .bytes b => b[i]?.getD (Config.freeSourceByte i)
  | .pkBuf _ => s.packByte i

/-- The value read so far with the next chunk (R216, R222). -/
def State.unpackChunk (s : State) (acc width rem : Nat) : Nat :=
  let k := min rem s.upFree
  joinChunk s.cfg.packOrder acc
    (takeChunk (s.sourceByte s.upIdx) (chunkShift s.cfg.packOrder s.upFree k) k) width rem k

/-- The loop of UP.GET (R216), `rem` bits remaining and `acc` read: the value, or nothing when it has
raised `CodecUnderrun`. `fuel` above `rem` is enough. -/
def unpackLoop (width : Nat) : Nat → Nat → Nat → State → Option Nat × State
  | 0, _, acc, s => (some acc, s)
  | fuel + 1, rem, acc, s =>
    if rem = 0 then (some acc, s)
    else if s.upN ≤ s.upIdx then (none, s.raise .codecUnderrun)
    else if rem < s.upFree then
      (some (s.unpackChunk acc width rem), { s with upFree := s.upFree - rem })
    else
      unpackLoop width fuel (rem - s.upFree) (s.unpackChunk acc width rem)
        { s with upFree := 8, upIdx := s.upIdx + 1 }

/-- `UP.GET(W)` for a legal width (R216). -/
def State.unpacked (s : State) (width : Nat) : Option Word × State :=
  let r := unpackLoop width (width + 1) width 0 s
  (r.1.map (BitVec.ofNat 32), r.2)

/-- The answer of an UP.GET, if it has one. -/
def answerGet : Option Word × State → State
  | (some v, s) => s.answer (.value v)
  | (none, s) => s

/-- UP.GET (R216, R219), refused before any `UP.INIT` in the same words of R302 and U8. -/
def execUpGet (width : Nat) (s : State) : Host.Outcome State Fault Refusal :=
  live s
    (if !widthOk width then .refused .illegalWidth
    else if !s.upReady then .refused .codecUninitialised
    else .next (answerGet (s.unpacked width)))

/-- `UP.GET(W)`, `n` times, the answers in order, up to a fault (R217). -/
def unpackAll (width : Nat) : Nat → State → Option (List Word) × State
  | 0, s => (some [], s)
  | n + 1, s =>
    match s.unpacked width with
    | (none, s) => (none, s)
    | (some v, s) =>
      let r := unpackAll width n s
      (r.1.map (v :: ·), r.2)

/-- The answer of an UP.BATCH, if it has one. -/
def answerBatch : Option (List Word) × State → State
  | (some vs, s) => s.answer (.values vs)
  | (none, s) => s

/-- UP.BATCH (R217): `UP.GET` repeated, and refused with it (R302, U8); with `n = 0` no get is made and
nothing is read. -/
def execUpBatch (width n : Nat) (s : State) : Host.Outcome State Fault Refusal :=
  live s
    (if !batchWidthOk width n then .refused .illegalWidth
    else if n != 0 && !s.upReady then .refused .codecUninitialised
    else .next (answerBatch (unpackAll width n s)))

end Sys2Proof.Machine
end

