-- ==== Sys2Proof/Machine/Control.lean ====
section
/-! DEFINITION. The control events: EV.PREEMPT, EV.ABORT, EV.ENTER_BUS, EV.RESET (R269 to R271, R300). -/

namespace Sys2Proof.Machine

/-- The writes the three events have in common: the framer idle, no completed transfer, no latched
command, not busy (R269, R270, R271). -/
def State.discarded (s : State) : State :=
  { s with st := .waiting, done := false, cv := false, busy := false }

/-- EV.PREEMPT (R269): in HOST_DEBUG it changes nothing. -/
def execEvPreempt (s : State) : Host.Outcome State Fault Refusal :=
  live s
    (if s.mode = .peripheralBus then .next { s.discarded with rxie := false, mode := .hostDebug }
    else .next s)

/-- EV.ABORT (R270). -/
def execEvAbort (s : State) : Host.Outcome State Fault Refusal := live s (.next s.discarded)

/-- EV.ENTER_BUS (R271). -/
def execEvEnterBus (s : State) : Host.Outcome State Fault Refusal :=
  live s (.next { s.discarded with mode := .peripheralBus, rxie := true })

/-- The state a reset leaves (R49, R300): the registers it leaves unspecified are free values within
their ranges, the buffers list nothing, and what stands for the environment goes on. -/
def State.afterReset (s : State) : State :=
  let r := Config.freeRegs (s.epoch + 1)
  { State.resetOf s.cfg with
    len := r.len
    cnt := r.cnt
    ca := r.ca
    co := r.co
    cx := r.cx
    flen := r.flen.val
    pkIdx := r.pkIdx % s.cfg.pkbufSize
    pkFree := r.pkFree.val + 1
    upSrc := r.upSrc
    upN := r.upSrc.length
    upIdx := r.upIdx % (r.upSrc.length + 1)
    upFree := r.upFree.val + 1
    events := s.events
    answers := s.answers
    draws := s.draws
    epoch := s.epoch + 1 }

/-- EV.RESET (R300): enabled always, in a fault state too. -/
def execEvReset (s : State) : Host.Outcome State Fault Refusal := .next s.afterReset

end Sys2Proof.Machine
end

