-- ==== Sys2Proof/Machine/MainLoop.lean ====
section
/-! DEFINITION. The main-loop steps of the streaming path: M.TAKE, M.EXEC (R183, R184). -/

namespace Sys2Proof.Machine

/-- The effect of M.TAKE (R183): the fence goes down and up again inside the step (R73), and the four
payload bytes are parsed into the latch (R92). -/
def State.taken (s : State) : State :=
  { s with
    ca := s.rxByte 0
    co := s.rxByte 1
    cx := join16 (s.rxByte 3) (s.rxByte 2)
    cv := true
    done := false
    rxie := true }

/-- M.TAKE (R183). A main-loop activation that finds it not enabled takes no step. -/
def execMTake (s : State) : Host.Outcome State Fault Refusal :=
  live s
    (if s.takeEnabled then
      if s.len.toNat < 4 then .refused .shortTransfer else .next s.taken
    else .next s)

/-- The end of M.EXEC (R184): the reply word, the latch freed, `BUSY` released. -/
def State.served (s : State) (w : Word) : State := { (s.replyWord w).dropBusy with cv := false }

/-- What M.EXEC does with the end of its dispatch (R184, R247, R265). -/
def finishExec : DispatchEnd × State → State
  | (.response _ w, s) => s.served w
  | (.timeout, s) => (s.drawn.idleFramer).served (Config.freeWord s.draws)
  | (.halt, s) => s.raise .debugHalt

/-- M.EXEC (R184). A main-loop activation that finds it not enabled takes no step. -/
def execMExec (s : State) : Host.Outcome State Fault Refusal :=
  live s (if s.execEnabled then .next (finishExec (dispatch s.ca s.co s.cx s)) else .next s)

end Sys2Proof.Machine
end

