-- ==== Sys2Proof/Machine/StreamFramer.lean ====
section
/-! DEFINITION. The streaming framer: RX.SKIP, RX.SYNC, RX.LEN, RX.DATA, RX.MASKED (R130 to R136). -/

namespace Sys2Proof.Machine

/-- A byte operation where the framer selects it (R130), and no step of the block anywhere else. -/
def whenSelected (s : State) (sel : Bool) (k : Host.Outcome State Fault Refusal) :
    Host.Outcome State Fault Refusal :=
  live s (if sel then k else .refused .notSelected)

/-- RX.SKIP (R131): a byte that is not `SYNC`, in WAITING, is discarded. -/
def execRxSkip (b : Byte) (s : State) : Host.Outcome State Fault Refusal :=
  whenSelected s (!s.masked && s.st == .waiting && b != s.cfg.sync) (.next s)

/-- RX.SYNC (R132): the Pending Transfer is created. -/
def execRxSync (b : Byte) (s : State) : Host.Outcome State Fault Refusal :=
  whenSelected s (!s.masked && s.st == .waiting && b == s.cfg.sync)
    (.next { s.raiseBusy with st := .lengthPending })

/-- The effect of RX.LEN (R133). -/
def State.lengthTaken (s : State) (b : Byte) : State :=
  let s := { s with len := b, cnt := 0 }
  if b = 0 then s.complete else { s with st := .receiving }

/-- RX.LEN (R133). -/
def execRxLen (b : Byte) (s : State) : Host.Outcome State Fault Refusal :=
  whenSelected s (!s.masked && s.st == .lengthPending) (.next (s.lengthTaken b))

/-- The effect of RX.DATA (R134): the test of completion follows the append. -/
def State.dataTaken (s : State) (b : Byte) : State :=
  let s := { s with rxbuf := Memory.write s.rxbuf s.cnt.toNat b, cnt := s.cnt + 1 }
  if s.cnt = s.len then s.complete else s

/-- RX.DATA (R134). An index outside `RXBUF` is impossible in every run (R61, R77). -/
def execRxData (b : Byte) (s : State) : Host.Outcome State Fault Refusal :=
  whenSelected s (!s.masked && s.st == .receiving)
    (if s.cnt.toNat < Config.rxbufSize then .next (s.dataTaken b) else .fault .rxbufIndex)

/-- RX.MASKED (R136): the byte does not reach the framer, whatever it is. -/
def execRxMasked (_b : Byte) (s : State) : Host.Outcome State Fault Refusal :=
  whenSelected s s.masked (.next s)

end Sys2Proof.Machine
end

