-- ==== Sys2Proof/Machine/Dispatch.lean ====
section
/-! DEFINITION. The meaning of each operation: one arm per constructor of Instr. -/

namespace Sys2Proof.Machine

def exec (i : Instr) (s : State) : Host.Outcome State Fault Refusal :=
  match i with
  | .rxSkip b => Sys2Proof.Machine.execRxSkip b s
  | .rxSync b => Sys2Proof.Machine.execRxSync b s
  | .rxLen b => Sys2Proof.Machine.execRxLen b s
  | .rxData b => Sys2Proof.Machine.execRxData b s
  | .rxMasked b => Sys2Proof.Machine.execRxMasked b s
  | .ckFrame f => Sys2Proof.Machine.execCkFrame f s
  | .ckDrop f => Sys2Proof.Machine.execCkDrop f s
  | .ckGetid q ops => Sys2Proof.Machine.execCkGetid q ops s
  | .ckRoute q code ops => Sys2Proof.Machine.execCkRoute q code ops s
  | .ckUnsup q code ops => Sys2Proof.Machine.execCkUnsup q code ops s
  | .mTake => Sys2Proof.Machine.execMTake s
  | .mExec => Sys2Proof.Machine.execMExec s
  | .cmdInvalid a o x => Sys2Proof.Machine.execCmdInvalid a o x s
  | .cmdStart a x => Sys2Proof.Machine.execCmdStart a x s
  | .cmdStop a x => Sys2Proof.Machine.execCmdStop a x s
  | .cmdSleep a x => Sys2Proof.Machine.execCmdSleep a x s
  | .cmdWakeup a x => Sys2Proof.Machine.execCmdWakeup a x s
  | .cmdRead a x => Sys2Proof.Machine.execCmdRead a x s
  | .cmdWrite a x => Sys2Proof.Machine.execCmdWrite a x s
  | .cmdRspec a o x => Sys2Proof.Machine.execCmdRspec a o x s
  | .pkInit => Sys2Proof.Machine.execPkInit s
  | .pkPut v w => Sys2Proof.Machine.execPkPut v w s
  | .pkLen => Sys2Proof.Machine.execPkLen s
  | .pkBatch w vs => Sys2Proof.Machine.execPkBatch w vs s
  | .upInit src => Sys2Proof.Machine.execUpInit src s
  | .upGet w => Sys2Proof.Machine.execUpGet w s
  | .upBatch w n => Sys2Proof.Machine.execUpBatch w n s
  | .rbStream w => Sys2Proof.Machine.execRbStream w s
  | .rbCk q status payload => Sys2Proof.Machine.execRbCk q status payload s
  | .evPreempt => Sys2Proof.Machine.execEvPreempt s
  | .evAbort => Sys2Proof.Machine.execEvAbort s
  | .evEnterBus => Sys2Proof.Machine.execEvEnterBus s
  | .evReset => Sys2Proof.Machine.execEvReset s

end Sys2Proof.Machine
end

