-- ==== Sys2Proof/Machine/Step.lean ====
section
/-! DEFINITION. One step: the operation that the oldest pending event causes, on the state with that
event delivered. With no event pending the block waits (R300, R327). -/

namespace Sys2Proof.Machine

/-- One step of the block (R6). -/
def step (s : State) : Host.Outcome State Fault Refusal :=
  match s.fetch with
  | some i => exec i s.delivered
  | none => .next s

/-- `s` with a word of the opcode table as what the next step meets (log entry 21): one byte comes to
an idle, unmasked streaming framer; a streaming request of a command stands in the command latch,
about to be dispatched; any other is a buffered read in HOST_DEBUG. -/
def State.withFetchWord (s : State) (nbits w : Nat) : State :=
  let clear := { s with trap := none }
  match tableBytes nbits w with
  | [] => s
  | [b] =>
    { clear with
      mode := .peripheralBus, rxie := true, st := .waiting, events := .rx b :: s.events }
  | b :: bs =>
    match if b = s.cfg.sync then decodePayload bs.tail else none with
    | some (a, o, x) => { clear with cv := true, ca := a, co := o, cx := x, events := .exec :: s.events }
    | none => { clear with mode := .hostDebug, events := .ck (b :: bs) :: s.events }

end Sys2Proof.Machine
end

