-- ==== Sys2Proof/Safety.lean ====
section
/-! DEFINITION. What counts as a state a run can end in, the invariants of the block, and the terms in
which its statements are made. -/

namespace Sys2Proof.Machine

/-- Quiescent (R327): no main-loop step enabled, the framer idle, no fault state. -/
def State.quiescent (s : State) : Bool :=
  s.trap.isNone && s.st == .waiting && !s.done && !s.cv

/-! Invariants -/

/-- The Pending Transfer is consistent (R23, R138): while payload is being received, fewer bytes than
declared have come. -/
abbrev State.TransferInv (s : State) : Prop := s.st = .receiving → s.cnt.toNat < s.len.toNat

/-- In HOST_DEBUG the streaming path is idle (R270, R327), and the receive interrupt is enabled only in
PERIPHERAL_BUS (R27, R269, R271). -/
abbrev State.ModeInv (s : State) : Prop :=
  (s.mode = .hostDebug → s.st = .waiting ∧ s.done = false ∧ s.cv = false) ∧
    (s.rxie = true → s.mode = .peripheralBus)

/-- `BUSY` is constantly 0 without flow control (R26), and only known resources are enabled (R33). -/
abbrev State.FlagInv (s : State) : Prop :=
  (s.cfg.flowControl = false → s.busy = false) ∧
    ∀ a, s.enabled a = true → s.cfg.hasResource a = true

/-- A buffer is canonical and lists no index outside its size (R60, R61). -/
abbrev Memory.Within (m : Memory) (size : Nat) : Prop := m.wf ∧ ∀ p ∈ m, p.1 < size

/-- The buffers (R60 to R63, R77) and `FLEN` (R32). -/
abbrev State.BufferInv (s : State) : Prop :=
  s.rxbuf.Within Config.rxbufSize ∧ s.fbuf.Within Config.fbufSize ∧
    s.pkBuf.Within s.cfg.pkbufSize ∧ s.flen ≤ Config.fbufSize

/-- The packer's registers are in their ranges (R35, R36). -/
abbrev State.PackInv (s : State) : Prop :=
  s.pkIdx < s.cfg.pkbufSize ∧ 1 ≤ s.pkFree ∧ s.pkFree ≤ 8

/-- The unpacker's registers are in their ranges (R37 to R39). -/
abbrev State.UnpackInv (s : State) : Prop :=
  s.upN = s.upSrc.length ∧ s.upIdx ≤ s.upN ∧ 1 ≤ s.upFree ∧ s.upFree ≤ 8

/-- The invariant of the block, under a legal configuration. -/
abbrev State.Inv (s : State) : Prop :=
  s.cfg.Legal ∧ s.TransferInv ∧ s.ModeInv ∧ s.FlagInv ∧ s.BufferInv ∧ s.PackInv ∧ s.UnpackInv

/-- An entry `start(a)` of `CALLS` with answer `done` (R196). -/
abbrev Call.isStart (a : Byte) (k : Call) : Prop := k.fn = .start ∧ k.addr = a ∧ k.answer = .done

/-- An entry `stop(a)` of `CALLS` (R196). -/
abbrev Call.isStop (a : Byte) (k : Call) : Prop := k.fn = .stop ∧ k.addr = a

/-- Between two completed starts of `a` in a history there is a stop of `a` (R196). -/
def StartsSeparated (a : Byte) (ks : List Call) : Prop :=
  ∀ pre mid post k k', ks = pre ++ k :: mid ++ k' :: post → k.isStart a → k'.isStart a →
    ∃ j ∈ mid, j.isStop a

/-- After every completed start of `a` in a history there is a stop of `a`. -/
def StoppedSince (a : Byte) (ks : List Call) : Prop :=
  ∀ pre post k, ks = pre ++ k :: post → k.isStart a → ∃ j ∈ post, j.isStop a

/-- The discipline of R196: completed starts are separated by stops, and a resource that is disabled
has been stopped since it was last started. -/
def State.StartDiscipline (s : State) : Prop :=
  ∀ a, StartsSeparated a s.calls ∧ (s.enabled a = false → StoppedSince a s.calls)

/-! Frames -/

/-- `t` is `s` but for what a command dispatched for resource `a` may write: `EN[a]`, `CALLS`, and the
environment's answers and draws. -/
structure SameButDispatch (a : Byte) (s t : State) : Prop where
  rest : { t with en := s.en, calls := s.calls, answers := s.answers, draws := s.draws } = s
  enabled : ∀ b, b ≠ a → t.enabled b = s.enabled b

/-- Every byte of a buffer reads as before, but for those at the indices of `p`. -/
def Memory.SameBut (p : Nat → Prop) (m m' : Memory) : Prop :=
  ∀ i, ¬ p i → Memory.read m' i = Memory.read m i

/-! Bits of packed streams (R223) -/

/-- Bit `k` of a packed stream held in bytes, MSB first: bit `7 - (k mod 8)` of byte `floor(k / 8)`. -/
def streamBit (bytes : Nat → Byte) (k : Nat) : Bool := (bytes (k / 8)).getLsbD (7 - k % 8)

/-- Bit `k` of the stream in the pack buffer. -/
def State.packBit (s : State) (k : Nat) : Bool := streamBit s.packByte k

/-- How many bits have been packed since `PK.INIT`. -/
def State.packPos (s : State) : Nat := 8 * s.pkIdx + (8 - s.pkFree)

/-- The rest of the byte being filled is zero. -/
def State.PackClean (s : State) : Prop :=
  ∀ k, s.packPos ≤ k → k < 8 * s.pkIdx + 8 → s.packBit k = false

/-- The byte of a list at an index, 0 past its end. -/
def byteAt (bs : List Byte) (i : Nat) : Byte := bs[i]?.getD 0

/-- How many bits of the stream have been read since `UP.INIT`. -/
def State.unpackPos (s : State) : Nat := 8 * s.upIdx + (8 - s.upFree)

/-! Runs -/

/-- Operations executed one after the other, up to the first that answers no next state. -/
def execSeq : List Instr → State → Host.Outcome State Fault Refusal
  | [], s => .next s
  | i :: is, s =>
    match exec i s with
    | .next t => execSeq is t
    | .fault f => .fault f
    | .refused r => .refused r

/-- Steps taken one after the other, up to the first that answers no next state. -/
def runSteps : Nat → State → Host.Outcome State Fault Refusal
  | 0, s => .next s
  | n + 1, s =>
    match step s with
    | .next t => runSteps n t
    | .fault f => .fault f
    | .refused r => .refused r

end Sys2Proof.Machine
end

