-- ==== Sys2Proof/Certificates/Slice0/Obligations.lean ====
section
/-! DEFINITION. The statements for the provers. -/

open Sys2Proof Sys2Proof.Machine

/-! Encodings and steps -/

/-- Decoding the word of a well-formed operation gives it back, every operand at every value, under
every legal configuration (R91, R92, R94, R99 to R103); and the two reply formats, which select no
operation, are read back as what was sent, in both reply orders (R93, R95). -/
def Obligations.DecodeOfEncodeIsIdentity : Prop :=
  (∀ (c : Config) (i : Instr) (fmt : Format), c.Legal → i.wellFormed c = true →
    formatOf i = some fmt → decode c fmt (encode c i) = .ok i) ∧
  (∀ (c : Config) (w : Word), readStreamReply c (wordBytes w c.replyOrder) = some w) ∧
  ∀ (c : Config) (seq : Half) (status : Byte) (p : List Byte), p.length ≤ 249 →
    readCkReply c (encodeReply c seq status p) = some (seq, status, p)

/-- Words written out from the spec decode to what the spec gives them (R100, R136, R142, scenarios A
and B). The short read rests on the fourth test of R162, the spec's decision D4, and the order of the
streaming reply on its decision D12 (log entry 19). -/
def Obligations.WrittenWordsDecode : Prop :=
  decode Config.device (.rxb false .waiting) [0xEB] = .ok (.rxSync 0xEB) ∧
  decode Config.device (.rxb false .waiting) [0xFF] = .ok (.rxSkip 0xFF) ∧
  decode Config.device (.rxb false .lengthPending) [0xEB] = .ok (.rxLen 0xEB) ∧
  decode Config.device (.rxb false .receiving) [0xEB] = .ok (.rxData 0xEB) ∧
  decode Config.device (.rxb true .waiting) [0xEB] = .ok (.rxMasked 0xEB) ∧
  decode Config.device .creq [0xFF, 0x07, 0x00, 0x01, 0x00, 0x03, 0x0A] = .ok (.ckGetid 1 []) ∧
  decode Config.device .creq [0xFF, 0x03, 0x02] = .ok (.ckDrop [0xFF, 0x03, 0x02]) ∧
  decodePayload [0x01, 0x00, 0x2C, 0x01] = some (0x01, 0x00, 0x012C) ∧
  readStreamReply Config.device [0xBC, 0x0A, 0x00, 0x00] = some 0xABC ∧
  readCkReply Config.device [0xFF, 0x08, 0x00, 0x01, 0x00, 0x5A, 0x01, 0x63] =
    some (1, 0, [0x5A, 0x01])

/-- Whatever bytes decode to is an operation the block can select: the operand conditions of the
opcode table hold of it. Whatever bytes are read as a reply are the one spelling of it (R93, R95). -/
def Obligations.DecodedIsWellFormed : Prop :=
  (∀ (c : Config) (fmt : Format) (bs : List Byte) (i : Instr),
    decode c fmt bs = .ok i → i.wellFormed c = true) ∧
  (∀ (c : Config) (bs : List Byte) (w : Word),
    readStreamReply c bs = some w → wordBytes w c.replyOrder = bs) ∧
  ∀ (c : Config) (f : List Byte) (seq : Half) (status : Byte) (p : List Byte),
    readCkReply c f = some (seq, status, p) → p.length ≤ 249 ∧ encodeReply c seq status p = f

/-- A step delivers the oldest event and runs the operation it causes; with no event pending the
block waits (R6, R112; log entry 4). -/
def Obligations.StepRunsTheDecodedInstruction : Prop :=
  (∀ (s : State) (e : Event) (es : List Event), s.events = e :: es →
    step s = exec (s.eventInstr e) { s with events := es }) ∧
  ∀ s : State, s.events = [] → step s = .next s

/-- A byte that MODE or RXIE keeps from the framer selects RX.MASKED (R130, R136; the RXIE half is the
spec's decision D8); what any other byte selects depends on `ST` and the byte alone (R100). -/
def Obligations.ByteSelectsItsOperation : Prop :=
  ∀ (s : State) (b : Byte),
    (s.mode ≠ .peripheralBus ∨ s.rxie = false → s.eventInstr (.rx b) = .rxMasked b) ∧
    (s.mode = .peripheralBus → s.rxie = true →
      (s.st = .waiting → b = s.cfg.sync → s.eventInstr (.rx b) = .rxSync b) ∧
      (s.st = .waiting → b ≠ s.cfg.sync → s.eventInstr (.rx b) = .rxSkip b) ∧
      (s.st = .lengthPending → s.eventInstr (.rx b) = .rxLen b) ∧
      (s.st = .receiving → s.eventInstr (.rx b) = .rxData b))

/-- No step is refused for running an operation that decoding does not select, or a reply too long to
be spelt: those refusals stand for terms that no event causes (log entries 13 and 26). No bytes on a
wire select a main-loop step, a codec operation, a reply construction or a control event (R111). -/
def Obligations.StepRunsOnlySelectedOperations : Prop :=
  (∀ s : State, step s ≠ .refused .notSelected ∧ step s ≠ .refused .payloadTooLong) ∧
  (∀ (s : State) (seq : Half) (status : Byte) (p : List Byte), s.trap = none → 249 < p.length →
    exec (.rbCk seq status (.bytes p)) s = .refused .payloadTooLong) ∧
  ∀ (c : Config) (i : Instr), formatOf i = none →
    encode c i = [] ∧ ∀ (fmt : Format) (bs : List Byte), decode c fmt bs ≠ .ok i

/-! The streaming framer -/

/-- A byte that is skipped or masked changes nothing (R131, R136). The loss of a masked byte is the
spec's decision D8. -/
def Obligations.SkippedAndMaskedBytesChangeNothing : Prop :=
  ∀ (s : State) (b : Byte), s.trap = none →
    (s.mode = .peripheralBus → s.rxie = true → s.st = .waiting → b ≠ s.cfg.sync →
      exec (.rxSkip b) s = .next s) ∧
    (s.mode ≠ .peripheralBus ∨ s.rxie = false → exec (.rxMasked b) s = .next s)

/-- The sync byte opens a transfer and raises `BUSY` where there is flow control (R132). -/
def Obligations.SyncByteOpensTransfer : Prop :=
  ∀ s : State, s.trap = none → s.mode = .peripheralBus → s.rxie = true → s.st = .waiting →
    exec (.rxSync s.cfg.sync) s =
      .next { s with st := .lengthPending, busy := if s.cfg.flowControl then true else s.busy }

/-- The byte after the sync byte is the length; zero completes at once (R133, R135). -/
def Obligations.LengthByteStartsPayload : Prop :=
  ∀ (s : State) (b : Byte), s.trap = none → s.mode = .peripheralBus → s.rxie = true →
    s.st = .lengthPending →
    exec (.rxLen b) s =
      if b = 0 then .next { s with len := b, cnt := 0, done := true, st := .waiting }
      else .next { s with len := b, cnt := 0, st := .receiving }

/-- A payload byte is stored at `RXBUF[CNT]`, and the test of completion follows the append (R134,
R135). -/
def Obligations.DataByteIsStored : Prop :=
  ∀ (s : State) (b : Byte), s.trap = none → s.mode = .peripheralBus → s.rxie = true →
    s.st = .receiving → s.cnt.toNat < s.len.toNat →
    ∃ t, exec (.rxData b) s = .next t ∧
      Memory.read t.rxbuf s.cnt.toNat = some b ∧
      (∀ i, i ≠ s.cnt.toNat → Memory.read t.rxbuf i = Memory.read s.rxbuf i) ∧
      t.cnt.toNat = s.cnt.toNat + 1 ∧
      (if s.cnt.toNat + 1 = s.len.toNat then t.done = true ∧ t.st = .waiting
        else t.done = s.done ∧ t.st = .receiving) ∧
      { t with rxbuf := s.rxbuf, cnt := s.cnt, done := s.done, st := s.st } = s

/-- A whole streaming frame, sync byte, length and payload, takes one step a byte and leaves the
payload in `RXBUF`, `DONE` set and the framer idle, whatever was there before (R91, R98, R138). The
spec derives the counts from R131 to R136 (R138). -/
def Obligations.WholeFrameIsReceived : Prop :=
  ∀ (s : State) (p : List Byte) (es : List Event), s.trap = none → s.mode = .peripheralBus →
    s.rxie = true → s.st = .waiting → p.length ≤ 255 →
    s.events = (s.cfg.sync :: BitVec.ofNat 8 p.length :: p).map Event.rx ++ es →
    ∃ t, runSteps (p.length + 2) s = .next t ∧ t.st = .waiting ∧ t.done = true ∧
      t.len.toNat = p.length ∧ t.cnt.toNat = p.length ∧ t.events = es ∧
      (∀ i, Memory.read t.rxbuf i = if i < p.length then p[i]? else Memory.read s.rxbuf i) ∧
      t.busy = (if s.cfg.flowControl then true else s.busy)

/-- The frame of the streaming framer's operations: what each may write, in any state. -/
def Obligations.FramerOperationsFrame : Prop :=
  ∀ (b : Byte) (s t : State),
    (exec (.rxSkip b) s = .next t → t = s) ∧
    (exec (.rxMasked b) s = .next t → t = s) ∧
    (exec (.rxSync b) s = .next t → { t with st := s.st, busy := s.busy } = s) ∧
    (exec (.rxLen b) s = .next t →
      { t with len := s.len, cnt := s.cnt, st := s.st, done := s.done } = s) ∧
    (exec (.rxData b) s = .next t →
      { t with rxbuf := s.rxbuf, cnt := s.cnt, st := s.st, done := s.done } = s ∧
      Memory.SameBut (fun i => i = s.cnt.toNat) s.rxbuf t.rxbuf)

/-! The checksummed framer -/

/-- A buffered read that fails a test gets no reply and changes nothing but the dead frame buffer
(R162, R163), also as the operation CK.DROP. The test of the least length and the over-long read are
the spec's decision D4. -/
def Obligations.InvalidFrameIsDropped : Prop :=
  ∀ (s : State) (f : List Byte), s.trap = none → s.mode = .hostDebug →
    ¬ (7 ≤ f.length ∧ f[0]? = some s.cfg.sof ∧ f[1]?.map BitVec.toNat = some f.length ∧
      f.getLast?.map BitVec.toNat = some ((f.dropLast.map BitVec.toNat).sum % 256)) →
    (∃ t, exec (.ckFrame f) s = .next t ∧ { t with fbuf := s.fbuf, flen := s.flen } = s) ∧
    exec (.ckDrop f) s = .next s

/-- A buffered read in HOST_DEBUG is loaded and runs the outcome its bytes select; one too long is
dropped unstored; in PERIPHERAL_BUS it changes nothing (R160, R161, R164). The spec's decisions D4
and D35. -/
def Obligations.BufferedReadRunsItsOutcome : Prop :=
  ∀ (s : State) (f : List Byte), s.trap = none →
    (s.mode = .peripheralBus → exec (.ckFrame f) s = .next s) ∧
    (s.mode = .hostDebug → 255 < f.length → exec (.ckFrame f) s = .next s) ∧
    (s.mode = .hostDebug → f.length ≤ 255 →
      ∃ l, exec (.ckFrame f) s = exec (decodeFrame s.cfg f) l ∧ l.flen = f.length ∧
        (∀ i, i < f.length → Memory.read l.fbuf i = f[i]?) ∧
        (∀ i, f.length ≤ i → Memory.read l.fbuf i = Memory.read s.fbuf i) ∧
        { l with fbuf := s.fbuf, flen := s.flen } = s)

/-- Changing exactly one byte of a valid frame is always rejected: no reply, no call (R169). The
spec derives it from R162 and R96. -/
def Obligations.SingleByteMutationIsRejected : Prop :=
  ∀ (s : State) (f : List Byte) (i : Nat) (b : Byte), s.trap = none → s.mode = .hostDebug →
    frameValid s.cfg f = true → i < f.length → f[i]? ≠ some b →
    ∃ t, exec (.ckFrame (f.set i b)) s = .next t ∧ { t with fbuf := s.fbuf, flen := s.flen } = s

/-- "Get device ID" is answered with the two identity bytes, whatever operand bytes come with it
(R165, R242). The spec's decision D39. -/
def Obligations.GetIdIsAnswered : Prop :=
  ∀ (s : State) (seq : Half) (ops : List Byte), s.trap = none → s.mode = .hostDebug →
    ops.length ≤ 248 →
    exec (.ckGetid seq ops) s =
        .next { s with txCk := s.txCk ++ encodeReply s.cfg seq 0x00 [s.cfg.family, s.cfg.ident] } ∧
      ∃ t, exec (.ckFrame (encodeRequest s.cfg seq 0x0003 ops)) s = .next t ∧
        t.txCk = s.txCk ++ encodeReply s.cfg seq 0x00 [s.cfg.family, s.cfg.ident] ∧
        { t with txCk := s.txCk, fbuf := s.fbuf, flen := s.flen } = s

/-- A valid frame with a code that is not routable is answered with the status "unsupported" and no
payload (R168). The empty payload is the spec's decision D26. -/
def Obligations.UnroutableCodeIsUnsupported : Prop :=
  ∀ (s : State) (seq code : Half) (ops : List Byte), s.trap = none → s.mode = .hostDebug →
    ops.length ≤ 248 → code ≠ 0x0003 → s.cfg.routeOf code ops = none →
    exec (.ckUnsup seq code ops) s =
        .next { s with txCk := s.txCk ++ encodeReply s.cfg seq s.cfg.stUnsupported [] } ∧
      ∃ t, exec (.ckFrame (encodeRequest s.cfg seq code ops)) s = .next t ∧
        t.txCk = s.txCk ++ encodeReply s.cfg seq s.cfg.stUnsupported [] ∧
        { t with txCk := s.txCk, fbuf := s.fbuf, flen := s.flen } = s

/-- A routed command is dispatched, and its Response goes out as status and payload: the four bytes of
its word in `CK_WORD_ORDER`, or `PK.BUF[0 .. PK.LEN-1]` where its result is a packed stream (R166,
R224, R248; which commands pack is log entry 28). A packed stream that no reply can spell is replaced
by a free payload (log entry 29). After a timeout the reply is a well-formed frame of drawn content
(R247); a `halt` stops the block with no reply (R265). The spec's decisions D16, D24, D25 and D33. -/
def Obligations.RoutedCommandIsDispatched : Prop :=
  ∀ (s : State) (seq code : Half) (ops : List Byte) (a o : Byte) (x : Half), s.trap = none →
    s.mode = .hostDebug → ops.length ≤ 248 → code ≠ 0x0003 →
    s.cfg.routeOf code ops = some (a, o, x) →
    decodeFrame s.cfg (encodeRequest s.cfg seq code ops) = .ckRoute seq code ops ∧
    match dispatch a o x s with
    | (.response status w, d) =>
      (s.cfg.packs a o = false → exec (.ckRoute seq code ops) s =
        .next { d with
          txCk := s.txCk ++ encodeReply s.cfg seq status (wordBytes w s.cfg.ckWordOrder) }) ∧
      (s.cfg.packs a o = true → s.pkReady = true → s.packLen ≤ 249 →
        exec (.ckRoute seq code ops) s =
          .next { d with
            txCk := s.txCk ++ encodeReply s.cfg seq status (s.packBytes s.packLen) }) ∧
      (s.cfg.packs a o = true → s.pkReady = false ∨ 249 < s.packLen →
        ∃ p, p.length ≤ 249 ∧ exec (.ckRoute seq code ops) s =
          .next { d with
            txCk := s.txCk ++ encodeReply s.cfg seq status p, draws := d.draws + 1 })
    | (.timeout, d) =>
      ∃ status p n, p.length ≤ 249 ∧ exec (.ckRoute seq code ops) s =
        .next { d with txCk := s.txCk ++ encodeReply s.cfg seq status p, draws := n }
    | (.halt, d) => exec (.ckRoute seq code ops) s = .next { d with trap := some .debugHalt }

/-- A buffered read gets at most one reply, and that is a well-formed frame with the request's
sequence id: start marker, true length, true checksum (R95, R170, R242). -/
def Obligations.RepliesEchoTheSequenceId : Prop :=
  ∀ (s t : State) (f : List Byte), exec (.ckFrame f) s = .next t →
    t.txCk = s.txCk ∨
    ∃ r, t.txCk = s.txCk ++ r ∧ 6 ≤ r.length ∧ r.length ≤ 255 ∧ r[0]? = some s.cfg.sof ∧
      r[1]?.map BitVec.toNat = some r.length ∧ r[2]? = f[2]? ∧ r[3]? = f[3]? ∧
      r.getLast?.map BitVec.toNat = some ((r.dropLast.map BitVec.toNat).sum % 256)

/-- The frame of the checksummed framer's operations: the streaming path, the codec, the mode and the
streaming history are never touched; without a dispatch only the reply history is, and with one only
the enabled bit of the routed address (R166, R187 to R189). -/
def Obligations.ChecksummedOperationsFrame : Prop :=
  ∀ (s t : State) (f ops : List Byte) (seq code : Half),
    (exec (.ckFrame f) s = .next t →
      { t with fbuf := s.fbuf, flen := s.flen, txCk := s.txCk, en := s.en, calls := s.calls,
               answers := s.answers, draws := s.draws, trap := s.trap } = s ∧
      Memory.SameBut (fun i => i < f.length ∧ f.length ≤ 255) s.fbuf t.fbuf ∧
      ∀ b, (∀ q k p a o x, decodeFrame s.cfg f = .ckRoute q k p →
          s.cfg.routeOf k p = some (a, o, x) → b ≠ a) → t.enabled b = s.enabled b) ∧
    (exec (.ckDrop f) s = .next t → t = s) ∧
    (exec (.ckGetid seq ops) s = .next t → { t with txCk := s.txCk } = s) ∧
    (exec (.ckUnsup seq code ops) s = .next t → { t with txCk := s.txCk } = s) ∧
    (exec (.ckRoute seq code ops) s = .next t →
      { t with txCk := s.txCk, en := s.en, calls := s.calls, answers := s.answers,
               draws := s.draws, trap := s.trap } = s ∧
      ∀ b, (∀ a o x, s.cfg.routeOf code ops = some (a, o, x) → b ≠ a) →
        t.enabled b = s.enabled b)

/-! The main loop -/

/-- `M.TAKE` parses the four payload bytes into the latch, the operand little-endian, and frees the
transfer (R183, R99). A byte nothing has written since reset is a free value (log entry 9). The
latch and the fence are the spec's decisions D7 and D8. -/
def Obligations.TakeParsesThePayload : Prop :=
  ∀ s : State, s.trap = none → s.mode = .peripheralBus → s.done = true → s.cv = false →
    4 ≤ s.len.toNat →
    (∀ i b, Memory.read s.rxbuf i = some b → s.rxByte i = b) ∧
    ∃ x : Half, x.toNat = (s.rxByte 3).toNat * 256 + (s.rxByte 2).toNat ∧
      exec .mTake s = .next { s with
        ca := s.rxByte 0, co := s.rxByte 1, cx := x, cv := true, done := false, rxie := true }

/-- `M.TAKE` of a completed transfer of fewer than four payload bytes is refused (R183, R199); an
activation that finds its step not enabled changes nothing (M6, M7; log entry 12). The refusal is
the spec's decision D10. -/
def Obligations.TakeRefusesShortTransfers : Prop :=
  ∀ s : State, s.trap = none →
    (s.mode = .peripheralBus → s.done = true → s.cv = false → s.len.toNat < 4 →
      exec .mTake s = .refused .shortTransfer) ∧
    (s.mode ≠ .peripheralBus ∨ s.done = false ∨ s.cv = true → exec .mTake s = .next s) ∧
    (s.cv = false → exec .mExec s = .next s)

/-- `M.EXEC` dispatches the latched command and hands its word to the streaming transport; a timeout
resets the transfer and sends a drawn word; a `halt` leaves `CV` set and sends nothing (R184, R265).
The spec's decisions D7, D13, D16 and D33. -/
def Obligations.ExecDispatchesAndReplies : Prop :=
  ∀ s : State, s.trap = none → s.cv = true →
    match dispatch s.ca s.co s.cx s with
    | (.response _ w, d) =>
      exec .mExec s = .next { d with
        txStream := s.txStream ++ wordBytes w s.cfg.replyOrder, cv := false,
        busy := if s.cfg.flowControl then false else s.busy }
    | (.timeout, d) =>
      ∃ w, exec .mExec s = .next { d with
        st := .waiting, done := false, draws := d.draws + 1,
        txStream := s.txStream ++ wordBytes w s.cfg.replyOrder, cv := false,
        busy := if s.cfg.flowControl then false else s.busy }
    | (.halt, d) => exec .mExec s = .next { d with trap := some .debugHalt }

/-- A transfer received between `M.TAKE` and `M.EXEC` does not alter the dispatch in progress (R75):
replacing everything the framer writes changes nothing that `M.EXEC` sends, calls or enables. The
latch is the spec's decision D7. -/
def Obligations.DispatchIgnoresNewTransfers : Prop :=
  ∀ (s t : State) (st : FramerState) (len cnt : Byte) (m : Memory) (done busy : Bool),
    exec .mExec s = .next t →
    ∃ u, exec .mExec { s with st := st, len := len, cnt := cnt, rxbuf := m, done := done,
                              busy := busy } = .next u ∧
      u.txStream = t.txStream ∧ u.calls = t.calls ∧ u.en = t.en ∧ u.cv = t.cv ∧ u.trap = t.trap

/-- The frame of the main-loop steps. -/
def Obligations.MainLoopFrame : Prop :=
  ∀ s t : State,
    (exec .mTake s = .next t →
      { t with ca := s.ca, co := s.co, cx := s.cx, cv := s.cv, done := s.done, rxie := s.rxie } = s) ∧
    (exec .mExec s = .next t →
      { t with txStream := s.txStream, cv := s.cv, busy := s.busy, st := s.st, done := s.done,
               en := s.en, calls := s.calls, answers := s.answers, draws := s.draws,
               trap := s.trap } = s ∧
      ∀ a, a ≠ s.ca → t.enabled a = s.enabled a)

/-! The dispatcher -/

/-- A dispatch is the run of the command its triple selects: the unknown test first, then `start`,
then the automatic initialisation, then the rest (R101, R185). The order of the tests is the spec's
decision D18; the answer is kept in the model's own field (log entry 15). -/
def Obligations.DispatchRunsTheSelectedCommand : Prop :=
  ∀ (s : State) (a o : Byte) (x : Half), s.cfg.Legal → s.trap = none →
    exec (decodeCommand s.cfg a o x) s = answerCommand (dispatch a o x s)

/-- An unknown pair answers the sentinel with status "unsupported", calls nobody and enables nothing
(R186). The spec's decisions D18 and D19; the answer is kept in the model's own field (log entry
15). -/
def Obligations.UnknownCommandAnswersSentinel : Prop :=
  ∀ (s : State) (a o : Byte) (x : Half), s.trap = none → s.cfg.known a o = false →
    exec (.cmdInvalid a o x) s =
        .next { s with result := .response s.cfg.stUnsupported s.cfg.sentinel } ∧
    dispatch a o x s = (.response s.cfg.stUnsupported s.cfg.sentinel, s)

/-- `start` of an enabled resource calls nothing and changes nothing; of a disabled one it calls
`start` once and enables it; both answer alike (R188). The answer is the spec's decision D20, kept
in the model's own field (log entry 15). -/
def Obligations.StartInitialisesOnce : Prop :=
  ∀ (s : State) (a : Byte) (x : Half), s.trap = none → s.cfg.known a s.cfg.opStart = true →
    (s.enabled a = true →
      exec (.cmdStart a x) s =
        .next { s with result := .response 0x00 s.cfg.lifecycleResult }) ∧
    (∀ w, s.enabled a = false → s.nextReply = .ok w →
      ∃ t, exec (.cmdStart a x) s = .next t ∧ t.calls = s.calls ++ [⟨.start, a, .done⟩] ∧
        t.enabled a = true ∧ t.result = .response 0x00 s.cfg.lifecycleResult ∧
        SameButDispatch a s { t with result := s.result })

/-- `stop` of an enabled resource calls `stop` and disables it (R189). The answer is the spec's
decision D20, kept in the model's own field (log entry 15). -/
def Obligations.StopDisables : Prop :=
  ∀ (s : State) (a : Byte) (x : Half) (w : Word), s.trap = none →
    s.cfg.known a s.cfg.opStop = true → s.enabled a = true → s.nextReply = .ok w →
    ∃ t, exec (.cmdStop a x) s = .next t ∧ t.calls = s.calls ++ [⟨.stop, a, .done⟩] ∧
      t.enabled a = false ∧ t.result = .response 0x00 s.cfg.lifecycleResult ∧
      SameButDispatch a s { t with result := s.result }

/-- `sleep` and `wakeup` of an enabled resource are passed on and leave it enabled (R190, R191). The
spec's decision D20; the answer is kept in the model's own field (log entry 15). -/
def Obligations.SleepAndWakeupArePassedOn : Prop :=
  ∀ (s : State) (a : Byte) (x : Half) (w : Word), s.trap = none → s.enabled a = true →
    s.nextReply = .ok w →
    (s.cfg.known a s.cfg.opSleep = true →
      ∃ t, exec (.cmdSleep a x) s = .next t ∧ t.calls = s.calls ++ [⟨.sleep, a, .done⟩] ∧
        t.en = s.en ∧ t.result = .response 0x00 s.cfg.lifecycleResult ∧
        SameButDispatch a s { t with result := s.result }) ∧
    (s.cfg.known a s.cfg.opWakeup = true →
      ∃ t, exec (.cmdWakeup a x) s = .next t ∧ t.calls = s.calls ++ [⟨.wakeup, a, .done⟩] ∧
        t.en = s.en ∧ t.result = .response 0x00 s.cfg.lifecycleResult ∧
        SameButDispatch a s { t with result := s.result })

/-- `read`, `write` and resource-specific commands of an enabled resource are one call of `handle` with
opcode and operand: its word comes back unchanged with status OK, its timeout ends the command, its
`halt` raises `DebugHalt`; no enabled bit changes (R192, R193, R194). That a call is recorded with its
answer and may answer `timeout` or `halt` is the spec's decision D33 (R46, R195, R265); the fault state
is a field of the model's (log entry 10), and so is the answer, which a halt leaves (log entry 15). -/
def Obligations.HandledCommandsReturnTheWord : Prop :=
  ∀ (s : State) (a o : Byte) (x : Half), s.trap = none → s.enabled a = true →
    s.cfg.known a o = true → o ∉ [s.cfg.opStart, s.cfg.opStop, s.cfg.opSleep, s.cfg.opWakeup] →
    ∃ t, (o = s.cfg.opRead → exec (.cmdRead a x) s = .next t) ∧
      (o = s.cfg.opWrite → exec (.cmdWrite a x) s = .next t) ∧
      (o ≠ s.cfg.opRead → o ≠ s.cfg.opWrite → exec (.cmdRspec a o x) s = .next t) ∧
      t.en = s.en ∧ SameButDispatch a s { t with result := s.result, trap := s.trap } ∧
      match s.nextReply with
      | .ok w => t.calls = s.calls ++ [⟨.handle o x, a, .value w⟩] ∧
          t.result = .response 0x00 w ∧ t.trap = none
      | .timeout => t.calls = s.calls ++ [⟨.handle o x, a, .timeout⟩] ∧
          t.result = .timeout ∧ t.trap = none
      | .halt => t.calls = s.calls ++ [⟨.handle o x, a, .halt⟩] ∧
          t.result = s.result ∧ t.trap = some .debugHalt

/-- A known command other than `start` sent to a disabled resource calls `start` first: when that
completes the resource is enabled and the command goes on as it would from there; when it times out
the dispatch ends, with `EN[a]` drawn; when it halts the dispatch ends there (R187, R195, R265, the
spec's decision D33). Sent to an enabled resource it makes one call, and that is no `start` (R78, R185,
R189 to R194). -/
def Obligations.DisabledResourceIsStartedFirst : Prop :=
  ∀ (s : State) (a o : Byte) (x : Half), s.cfg.known a o = true → o ≠ s.cfg.opStart →
    (s.enabled a = false →
      match s.nextReply with
      | .ok _ => ∃ m, dispatch a o x s = dispatch a o x m ∧
          m.calls = s.calls ++ [⟨.start, a, .done⟩] ∧ m.enabled a = true ∧ SameButDispatch a s m
      | .timeout => ∃ d, dispatch a o x s = (.timeout, d) ∧
          d.calls = s.calls ++ [⟨.start, a, .timeout⟩] ∧ SameButDispatch a s d
      | .halt => ∃ d, dispatch a o x s = (.halt, d) ∧
          d.calls = s.calls ++ [⟨.start, a, .halt⟩] ∧ d.en = s.en ∧ SameButDispatch a s d) ∧
    (s.enabled a = true →
      ∃ k, (dispatch a o x s).2.calls = s.calls ++ [k] ∧ k.fn ≠ .start ∧ k.addr = a)

/-- A timeout ends a dispatch at the call that met it: `start` of a disabled resource or `stop`, with
`EN[a]` drawn; of an enabled one `sleep`, `wakeup` or `handle` with the opcode and operand, by the
opcode, with every enabled bit as it was (R187 to R195). The spec's decision D33. -/
def Obligations.TimeoutEndsTheDispatch : Prop :=
  ∀ (s : State) (a o : Byte) (x : Half), s.cfg.Legal → s.cfg.known a o = true →
    s.nextReply = .timeout →
    (s.enabled a = false →
      ∃ d, dispatch a o x s = (.timeout, d) ∧ d.calls = s.calls ++ [⟨.start, a, .timeout⟩] ∧
        SameButDispatch a s d) ∧
    (s.enabled a = true → o = s.cfg.opStop →
      ∃ d, dispatch a o x s = (.timeout, d) ∧ d.calls = s.calls ++ [⟨.stop, a, .timeout⟩] ∧
        SameButDispatch a s d) ∧
    (s.enabled a = true → o ≠ s.cfg.opStart → o ≠ s.cfg.opStop →
      ∃ d, dispatch a o x s = (.timeout, d) ∧
        d.calls = s.calls ++ [⟨if o = s.cfg.opSleep then .sleep
          else if o = s.cfg.opWakeup then .wakeup else .handle o x, a, .timeout⟩] ∧
        d.en = s.en ∧ SameButDispatch a s d)

/-- A collaborator's `halt` ends the dispatch at the call that met it: `start` of a disabled resource,
and of an enabled one the entry point of the command; nothing after it is done, and the command leaves
the block in the fault state `DebugHalt` (R265). The spec's decision D33; the fault state is a field
of the model's (log entry 10), and so is the answer, left as it was (log entry 15). -/
def Obligations.HaltRaisesDebugHalt : Prop :=
  ∀ (s : State) (a o : Byte) (x : Half), s.cfg.Legal → s.trap = none → s.cfg.known a o = true →
    s.nextReply = .halt → ¬ (o = s.cfg.opStart ∧ s.enabled a = true) →
    ∃ t, exec (decodeCommand s.cfg a o x) s = .next t ∧ t.trap = some .debugHalt ∧
      t.calls = s.calls ++ [⟨if s.enabled a = false then .start
        else if o = s.cfg.opStop then .stop
        else if o = s.cfg.opSleep then .sleep
        else if o = s.cfg.opWakeup then .wakeup
        else .handle o x, a, .halt⟩] ∧ t.en = s.en ∧ t.result = s.result ∧
      SameButDispatch a s { t with trap := none }

/-- Auto-init equivalence (R197): on a disabled resource, a command other than `start` makes the
calls, returns the Response and leaves the state that `start` followed by the command does. The spec
derives it from R185, R187 and R188. -/
def Obligations.AutoInitEqualsExplicitStart : Prop :=
  ∀ (s : State) (a o : Byte) (x x' : Half) (w : Word), s.cfg.Legal → s.enabled a = false →
    s.nextReply = .ok w → s.cfg.known a o = true → o ≠ s.cfg.opStart →
    dispatch a o x s = dispatch a o x (dispatch a s.cfg.opStart x' s).2 ∧
    (dispatch a s.cfg.opStart x' s).1 = .response 0x00 s.cfg.lifecycleResult

/-- Between two completed starts of a resource in `CALLS` there is a stop of it: every step keeps
the discipline (R196), from any state that has it. The spec derives it from R187, R188 and R189; the
clause on disabled resources is the model's strengthening. -/
def Obligations.StepKeepsStartDiscipline : Prop :=
  ∀ s t : State, s.StartDiscipline → step s = .next t → t.StartDiscipline

/-- The frame of a command run on its own: only `EN` of its own resource, the calls (appended), the
answer and the fault state. -/
def Obligations.CommandsFrame : Prop :=
  ∀ (s t : State) (a o : Byte) (x : Half),
    (exec (.cmdInvalid a o x) s = .next t → { t with result := s.result } = s) ∧
    (exec (.cmdStart a x) s = .next t ∨ exec (.cmdStop a x) s = .next t ∨
      exec (.cmdSleep a x) s = .next t ∨ exec (.cmdWakeup a x) s = .next t ∨
      exec (.cmdRead a x) s = .next t ∨ exec (.cmdWrite a x) s = .next t ∨
      exec (.cmdRspec a o x) s = .next t →
      SameButDispatch a s { t with result := s.result, trap := s.trap } ∧ s.calls <+: t.calls)

/-! The codec -/

/-- `PK.INIT` starts an empty stream in a zeroed first byte (R211). The zeroed first byte is the
spec's decision D30. -/
def Obligations.PackInitStartsAStream : Prop :=
  ∀ s : State, s.trap = none →
    ∃ t, exec .pkInit s = .next t ∧ t.pkIdx = 0 ∧ t.pkFree = 8 ∧ t.pkReady = true ∧
      Memory.read t.pkBuf 0 = some 0 ∧ Memory.SameBut (fun i => i = 0) s.pkBuf t.pkBuf ∧
      { t with pkIdx := s.pkIdx, pkFree := s.pkFree, pkReady := s.pkReady, pkBuf := s.pkBuf } = s

/-- `PK.PUT` appends the low `W` bits of the value to the stream, most significant first, leaves the
bits before them alone and the rest of the last byte zero (R212, R221, R223). The bit order is the
spec's decision D27; the other order is log entry 27. -/
def Obligations.PutAppendsTheLowBits : Prop :=
  ∀ (s : State) (v : Word) (width : Nat), s.trap = none → s.cfg.packOrder = .msbFirst →
    s.pkReady = true → 1 ≤ width → width ≤ 32 → s.PackInv → s.PackClean →
    s.packPos + width < 8 * s.cfg.pkbufSize →
    ∃ t, exec (.pkPut v width) s = .next t ∧ t.trap = none ∧ t.packPos = s.packPos + width ∧
      t.PackInv ∧ t.PackClean ∧
      (∀ k, k < s.packPos → t.packBit k = s.packBit k) ∧
      (∀ i, i < width → t.packBit (s.packPos + i) = v.getLsbD (width - 1 - i)) ∧
      Memory.SameBut (fun i => s.pkIdx ≤ i ∧ i ≤ t.pkIdx) s.pkBuf t.pkBuf ∧
      { t with pkIdx := s.pkIdx, pkFree := s.pkFree, pkBuf := s.pkBuf } = s

/-- A put that would fill the last byte of the buffer ends in the fault state `CodecOverflow`, with
the last byte filled and no byte outside the buffer written (R220). The spec's decision D5. -/
def Obligations.PutPastTheEndOverflows : Prop :=
  ∀ (s : State) (v : Word) (width : Nat), s.trap = none → s.cfg.packOrder = .msbFirst →
    s.pkReady = true → 1 ≤ width → width ≤ 32 → s.PackInv → s.PackClean →
    8 * s.cfg.pkbufSize ≤ s.packPos + width →
    ∃ t, exec (.pkPut v width) s = .next t ∧ t.trap = some .codecOverflow ∧
      t.pkIdx + 1 = s.cfg.pkbufSize ∧
      (∀ k, k < s.packPos → t.packBit k = s.packBit k) ∧
      (∀ i, s.packPos + i < 8 * s.cfg.pkbufSize →
        t.packBit (s.packPos + i) = v.getLsbD (width - 1 - i)) ∧
      Memory.SameBut (fun i => s.pkIdx ≤ i ∧ i < s.cfg.pkbufSize) s.pkBuf t.pkBuf

/-- `PK.LEN` answers the byte count of the stream, a partial last byte included and the spare byte
not (R213, R315). -/
def Obligations.LengthCountsThePartialByte : Prop :=
  ∀ s : State, s.trap = none → s.pkReady = true → 1 ≤ s.pkFree → s.pkFree ≤ 8 →
    exec .pkLen s = .next { s with result := .length ((s.packPos + 7) / 8) }

/-- A batch of `N` values of width `W` gives `ceil(N*W / 8)` bytes with every bit in its place and zero
padding, which `RB.CK` then sends as its packed payload, and overflows exactly when
`N*W ≥ 8 * PKBUF_SIZE` (R110, R214, R223, R248). A packed payload that cannot be spelt is a free value
(log entry 29). The spec derives the batch from R211 to R213; one step for a batch is log entry 23. -/
def Obligations.BatchPacksEveryValue : Prop :=
  ∀ (s : State) (width : Nat) (vs : List Word), s.trap = none →
    (s.cfg.packOrder = .msbFirst → 1 ≤ s.cfg.pkbufSize → (vs = [] ∨ 1 ≤ width ∧ width ≤ 32) →
      (vs.length * width < 8 * s.cfg.pkbufSize →
        ∃ t bs, exec (.pkBatch width vs) s = .next t ∧ t.trap = none ∧ t.result = .bytes bs ∧
          bs.length = (vs.length * width + 7) / 8 ∧
          (∀ j i v, vs[j]? = some v → i < width →
            streamBit (byteAt bs) (j * width + i) = v.getLsbD (width - 1 - i)) ∧
          (∀ k, vs.length * width ≤ k → streamBit (byteAt bs) k = false) ∧
          ∀ (seq : Half) (status : Byte), bs.length ≤ 249 →
            exec (.rbCk seq status .packed) t =
              .next { t with txCk := t.txCk ++ encodeReply t.cfg seq status bs }) ∧
      (8 * s.cfg.pkbufSize ≤ vs.length * width →
        ∃ t, exec (.pkBatch width vs) s = .next t ∧ t.trap = some .codecOverflow)) ∧
    ∀ (seq : Half) (status : Byte), s.pkReady = false ∨ 249 < s.packLen →
      ∃ p, p.length ≤ 249 ∧ exec (.rbCk seq status .packed) s =
        .next { s with txCk := s.txCk ++ encodeReply s.cfg seq status p, draws := s.draws + 1 }

/-- `UP.INIT` points the unpacker at a byte sequence and its length, or at the first `n` bytes of the
pack buffer, whatever `n` (R215, R34); what it reads there are the bytes of the sequence, or those of
the pack buffer as it stands, later writes included (R60). The unpacker is the spec's decision D29;
that the bytes past the end of the pack buffer are free values is log entry 17. -/
def Obligations.UnpackInitPointsAtItsSource : Prop :=
  ∀ s : State,
    (s.trap = none →
      (∀ b, exec (.upInit (.bytes b)) s = .next { s with
        upSrc := .bytes b, upN := b.length, upIdx := 0, upFree := 8, upReady := true }) ∧
      (∀ n, exec (.upInit (.pkBuf n)) s = .next { s with
        upSrc := .pkBuf n, upN := n, upIdx := 0, upFree := 8, upReady := true })) ∧
    (∀ b i, s.upSrc = .bytes b → i < b.length → b[i]? = some (s.sourceByte i)) ∧
    ∀ n i, s.upSrc = .pkBuf n → s.sourceByte i = s.packByte i ∧
      ∀ v, (s.setPackByte i v).sourceByte i = v

/-- `UP.GET` answers the next `W` bits of the stream, first bit most significant, and ends in the
fault state `CodecUnderrun` when fewer are left (R216). The unpacker is the spec's decision D29. -/
def Obligations.GetReadsTheNextBits : Prop :=
  ∀ (s : State) (width : Nat), s.trap = none → s.cfg.packOrder = .msbFirst → s.upReady = true →
    1 ≤ width → width ≤ 32 → s.UnpackInv →
    (s.unpackPos + width ≤ 8 * s.upN →
      ∃ t v, exec (.upGet width) s = .next t ∧ t.result = .value v ∧
        t.unpackPos = s.unpackPos + width ∧ t.UnpackInv ∧
        (∀ i, i < width →
          v.getLsbD (width - 1 - i) = streamBit s.sourceByte (s.unpackPos + i)) ∧
        (∀ i, width ≤ i → v.getLsbD i = false) ∧
        { t with upIdx := s.upIdx, upFree := s.upFree, result := s.result } = s) ∧
    (8 * s.upN < s.unpackPos + width →
      ∃ t, exec (.upGet width) s = .next t ∧ t.trap = some .codecUnderrun ∧
        { t with upIdx := s.upIdx, upFree := s.upFree, trap := s.trap } = s)

/-- `UP.BATCH` answers `N` values in order, each the next `W` bits of the stream, and ends in the
fault state `CodecUnderrun` when the stream holds fewer bits than all of them need (R217). The spec
derives it from R216; one step for a batch is log entry 23. -/
def Obligations.BatchGetsEveryValue : Prop :=
  ∀ (s : State) (width n : Nat), s.trap = none → s.cfg.packOrder = .msbFirst → s.upReady = true →
    1 ≤ width → width ≤ 32 → s.UnpackInv →
    (n = 0 ∨ s.unpackPos + n * width ≤ 8 * s.upN →
      ∃ t vs, exec (.upBatch width n) s = .next t ∧ t.result = .values vs ∧ vs.length = n ∧
        t.unpackPos = s.unpackPos + n * width ∧ t.UnpackInv ∧
        (∀ j v, vs[j]? = some v →
          (∀ i, i < width → v.getLsbD (width - 1 - i) =
            streamBit s.sourceByte (s.unpackPos + j * width + i)) ∧
          ∀ i, width ≤ i → v.getLsbD i = false)) ∧
    (n ≠ 0 → 8 * s.upN < s.unpackPos + n * width →
      ∃ t, exec (.upBatch width n) s = .next t ∧ t.trap = some .codecUnderrun)

/-- Round trip (R218): for every sequence of values and widths that packs without overflow,
unpacking with the same widths answers the declared bits of each value. The spec derives it from
R212 and R216. -/
def Obligations.UnpackInvertsPack : Prop :=
  ∀ (s : State) (ps : List (Word × Nat)), s.trap = none → s.cfg.packOrder = .msbFirst →
    (∀ p ∈ ps, 1 ≤ p.2 ∧ p.2 ≤ 32) → (ps.map Prod.snd).sum < 8 * s.cfg.pkbufSize →
    ∃ t n, execSeq (.pkInit :: ps.map (fun p => .pkPut p.1 p.2) ++ [.pkLen]) s = .next t ∧
      t.result = .length n ∧
      ∀ j p, ps[j]? = some p →
        ∃ u, execSeq (.upInit (.pkBuf n) :: (ps.take (j + 1)).map (fun p => .upGet p.2)) t =
            .next u ∧
          u.result = .value (BitVec.ofNat 32 (p.1.toNat % 2 ^ p.2))

/-- A width outside 1 to 32 is refused, not taken as "emit nothing" (R219), and so is a codec
operation before its initialisation (R302). The spec's decision D28, and R302, which it derives from
R49. -/
def Obligations.CodecRefusals : Prop :=
  ∀ (s : State) (v : Word) (vs : List Word) (width n : Nat), s.trap = none →
    (width = 0 ∨ 32 < width →
      exec (.pkPut v width) s = .refused .illegalWidth ∧
      exec (.upGet width) s = .refused .illegalWidth ∧
      exec (.pkBatch width (v :: vs)) s = .refused .illegalWidth ∧
      exec (.upBatch width (n + 1)) s = .refused .illegalWidth) ∧
    (1 ≤ width → width ≤ 32 → s.pkReady = false →
      exec (.pkPut v width) s = .refused .codecUninitialised ∧
      exec .pkLen s = .refused .codecUninitialised) ∧
    (1 ≤ width → width ≤ 32 → s.upReady = false →
      exec (.upGet width) s = .refused .codecUninitialised ∧
      exec (.upBatch width (n + 1)) s = .refused .codecUninitialised)

/-- The frame of the codec's operations: packing touches only the pack buffer, its registers, the
answer and the fault state; unpacking only its own registers, the answer and the fault state. The bytes packed lie from the byte being
filled before to the byte being filled after. -/
def Obligations.CodecFrame : Prop :=
  ∀ (s t : State) (v : Word) (vs : List Word) (width n : Nat) (src : UpSource),
    (exec .pkInit s = .next t ∨ exec (.pkPut v width) s = .next t ∨
      exec (.pkBatch width vs) s = .next t →
      { t with pkBuf := s.pkBuf, pkIdx := s.pkIdx, pkFree := s.pkFree, pkReady := s.pkReady,
               result := s.result, trap := s.trap } = s) ∧
    (exec .pkInit s = .next t → Memory.SameBut (fun i => i = 0) s.pkBuf t.pkBuf) ∧
    (exec (.pkPut v width) s = .next t →
      Memory.SameBut (fun i => s.pkIdx ≤ i ∧ i ≤ t.pkIdx) s.pkBuf t.pkBuf) ∧
    (exec (.pkBatch width vs) s = .next t →
      Memory.SameBut (fun i => i ≤ t.pkIdx) s.pkBuf t.pkBuf) ∧
    (exec .pkLen s = .next t → { t with result := s.result } = s) ∧
    (exec (.upInit src) s = .next t →
      { t with upSrc := s.upSrc, upN := s.upN, upIdx := s.upIdx, upFree := s.upFree,
               upReady := s.upReady } = s) ∧
    (exec (.upGet width) s = .next t ∨ exec (.upBatch width n) s = .next t →
      { t with upIdx := s.upIdx, upFree := s.upFree, result := s.result, trap := s.trap } = s)

/-! Replies -/

/-- The streaming reply is the four bytes of the word and nothing else, in `REPLY_ORDER` (R93,
R241). The order is the spec's decision D12. -/
def Obligations.StreamingReplyIsFourBytes : Prop :=
  ∀ (s : State) (w : Word), s.trap = none →
    exec (.rbStream w) s = .next { s with
      txStream := s.txStream ++ match s.cfg.replyOrder with
        | .le => [w.extractLsb' 0 8, w.extractLsb' 8 8, w.extractLsb' 16 8, w.extractLsb' 24 8]
        | .be => [w.extractLsb' 24 8, w.extractLsb' 16 8, w.extractLsb' 8 8, w.extractLsb' 0 8] }

/-- The checksummed reply: start marker, total length, sequence id big-endian, status, payload of 0 to
249 bytes, and the sum of all of them modulo 256 (R242). -/
def Obligations.ChecksummedReplyLayout : Prop :=
  ∀ (s : State) (seq : Half) (status : Byte) (p : List Byte), s.trap = none → p.length ≤ 249 →
    ∃ m ck : Byte, m.toNat = 6 + p.length ∧
      ck.toNat = (s.cfg.sof.toNat + m.toNat + seq.toNat / 256 + seq.toNat % 256 + status.toNat +
        (p.map BitVec.toNat).sum) % 256 ∧
      exec (.rbCk seq status (.bytes p)) s = .next { s with
        txCk := s.txCk ++ [s.cfg.sof, m, seq.extractLsb' 8 8, seq.extractLsb' 0 8, status] ++ p ++
          [ck] }

/-! Control events and fault states -/

/-- Host enumeration takes PERIPHERAL_BUS to HOST_DEBUG at once, even mid-transfer, and discards the
transfer and the latched command without a reply; in HOST_DEBUG it changes nothing (R269). The
spec's decision D14. -/
def Obligations.PreemptionDiscardsTheTransfer : Prop :=
  ∀ s : State, s.trap = none →
    (s.mode = .peripheralBus → exec .evPreempt s = .next { s with
      rxie := false, st := .waiting, done := false, cv := false, busy := false,
      mode := .hostDebug }) ∧
    (s.mode = .hostDebug → exec .evPreempt s = .next s)

/-- The expiry of a wait resets the transfer and leaves mode and interrupt enable alone (R270); the
entry into PERIPHERAL_BUS starts the framer idle with the interrupt enabled (R271). The spec's
decisions D15, D16 and D40. -/
def Obligations.AbortAndEnterBusResetTheTransfer : Prop :=
  ∀ s : State, s.trap = none →
    exec .evAbort s = .next { s with st := .waiting, done := false, cv := false, busy := false } ∧
    exec .evEnterBus s = .next { s with
      mode := .peripheralBus, st := .waiting, done := false, cv := false, busy := false,
      rxie := true }

/-- Reset gives every register its reset value, from any state, and keeps the configuration (R300,
R49). The registers left unspecified are within their ranges. The reset values are the spec's
decision D17; the ranges and what is kept for the environment are the model's (log entries 4 to 6
and 8). -/
def Obligations.ResetGivesTheResetValues : Prop :=
  ∀ s : State, ∃ t, exec .evReset s = .next t ∧ t.st = .waiting ∧ t.done = false ∧
    t.busy = false ∧ t.rxie = false ∧ t.cv = false ∧ t.mode = s.cfg.resetMode ∧
    (∀ a, t.enabled a = false) ∧ t.txStream = [] ∧ t.txCk = [] ∧ t.calls = [] ∧
    t.trap = none ∧ t.pkReady = false ∧ t.upReady = false ∧ t.cfg = s.cfg ∧
    (1 ≤ s.cfg.pkbufSize → t.PackInv) ∧ t.UnpackInv ∧ t.flen ≤ 255 ∧
    t.events = s.events ∧ t.answers = s.answers ∧ t.draws = s.draws

/-- After `DebugHalt` no step of the block is enabled except a reset, which leaves the fault state
(R265). That the state stays the same is the model's form of "no step is enabled" (log entry 10). -/
def Obligations.DebugHaltEnablesOnlyReset : Prop :=
  ∀ (s : State) (i : Instr), s.trap = some .debugHalt →
    (i ≠ .evReset → exec i s = .next s) ∧
    ∃ t, exec .evReset s = .next t ∧ t.trap = none ∧ t.st = .waiting

/-- From a codec fault state nothing but a reset goes on: every other operation stops the machine with
that fault (U21; log entry 11). -/
def Obligations.CodecFaultStopsTheMachine : Prop :=
  ∀ (s : State) (i : Instr), i ≠ .evReset →
    (s.trap = some .codecOverflow → exec i s = .fault .codecOverflow) ∧
    (s.trap = some .codecUnderrun → exec i s = .fault .codecUnderrun)

/-- The frame of the replies and of the control events. A reply of given bytes draws nothing; one of
the packed stream may draw its payload (log entry 29). -/
def Obligations.RepliesAndEventsFrame : Prop :=
  ∀ (s t : State) (w : Word) (seq : Half) (status : Byte) (p : List Byte),
    (exec (.rbStream w) s = .next t → { t with txStream := s.txStream } = s) ∧
    (exec (.rbCk seq status (.bytes p)) s = .next t → { t with txCk := s.txCk } = s) ∧
    (exec (.rbCk seq status .packed) s = .next t →
      { t with txCk := s.txCk, draws := s.draws } = s) ∧
    (exec .evAbort s = .next t →
      { t with st := s.st, done := s.done, cv := s.cv, busy := s.busy } = s) ∧
    (exec .evPreempt s = .next t ∨ exec .evEnterBus s = .next t →
      { t with st := s.st, done := s.done, cv := s.cv, busy := s.busy, mode := s.mode,
               rxie := s.rxie } = s)

/-! The whole machine -/

/-- The invariant holds at reset. The values of the registers left unspecified are the model's (log
entry 7). -/
def Obligations.ResetMeetsTheInvariant : Prop := State.reset.Inv

/-- Every step keeps the invariant: the transfer's counts (R23, R138), the idle streaming path in
HOST_DEBUG (R327), the flags (R26, R33), the canonical and bounded buffers (R60, R61, R77), and the
ranges of the codec's registers (R35 to R39). R23, R138 and R327 are the spec's derivations. -/
def Obligations.StepKeepsTheInvariant : Prop :=
  ∀ s t : State, s.Inv → step s = .next t → t.Inv

/-- The block never transmits unasked and never takes back (R45, R46, R240): in a step that is not a
reset the histories only grow, the streaming one by exactly four bytes and only when a latched
command is dispatched, the checksummed one only on a buffered read, the calls only in these two. The
histories are the spec's decisions D33 and D42. -/
def Obligations.HistoriesGrowOnlyByReplies : Prop :=
  ∀ (s t : State) (e : Event) (es : List Event), s.events = e :: es → e ≠ .reset →
    step s = .next t →
    (t.txStream = s.txStream ∨
      e = .exec ∧ s.cv = true ∧ ∃ r, r.length = 4 ∧ t.txStream = s.txStream ++ r) ∧
    (t.txCk = s.txCk ∨ ∃ f r, e = .ck f ∧ t.txCk = s.txCk ++ r) ∧
    (t.calls = s.calls ∨
      (e = .exec ∨ ∃ f, e = .ck f) ∧ ∃ ks, ks.length ≤ 2 ∧ t.calls = s.calls ++ ks)

/-- Who writes what (R27, R28, R33, R61, R72): outside a reset, only a received byte writes `LEN`,
`CNT` and `RXBUF` or sets `DONE`; only `preempt` and `enter_bus` write `MODE`; only these and `take`
write `RXIE`; only a dispatch writes the enabled bits. -/
def Obligations.OnlyTheOwnersWrite : Prop :=
  ∀ (s t : State) (e : Event) (es : List Event), s.events = e :: es → e ≠ .reset →
    step s = .next t →
    ((∀ b, e ≠ .rx b) → t.len = s.len ∧ t.cnt = s.cnt ∧ t.rxbuf = s.rxbuf ∧
      (t.done = true → s.done = true)) ∧
    (e ≠ .preempt → e ≠ .enterBus → t.mode = s.mode ∧ (e ≠ .take → t.rxie = s.rxie)) ∧
    (e ≠ .exec → (∀ f, e ≠ .ck f) → t.en = s.en) ∧
    t.cfg = s.cfg
end

