-- ==== Sys2Proof/Laws/Operands.lean ====
section
/-! SUPPORT. Small facts about operand assembly, the orders and the checksum. -/

namespace Sys2Proof

@[simp] theorem join16_toNat (h l : Byte) : (join16 h l).toNat = h.toNat * 256 + l.toNat := by
  have := h.isLt; have := l.isLt
  simp only [join16, BitVec.toNat_ofNat]; omega

@[simp] theorem hiByte_toNat (v : Half) : (hiByte v).toNat = v.toNat / 256 := by
  have := v.isLt
  simp only [hiByte, BitVec.toNat_ofNat]; omega

@[simp] theorem loByte_toNat (v : Half) : (loByte v).toNat = v.toNat % 256 := by
  simp [loByte]

/-- A `u16` is put together from its two bytes (R99). -/
@[simp] theorem join16_hi_lo (v : Half) : join16 (hiByte v) (loByte v) = v := by
  apply BitVec.eq_of_toNat_eq
  simp only [join16_toNat, hiByte_toNat, loByte_toNat]; omega

@[simp] theorem hiByte_join16 (h l : Byte) : hiByte (join16 h l) = h := by
  have := l.isLt
  apply BitVec.eq_of_toNat_eq
  simp only [join16_toNat, hiByte_toNat]; omega

@[simp] theorem loByte_join16 (h l : Byte) : loByte (join16 h l) = l := by
  have := l.isLt
  apply BitVec.eq_of_toNat_eq
  simp only [join16_toNat, loByte_toNat]; omega

@[simp] theorem byteOf_toNat (w : Word) (i : Nat) : (byteOf w i).toNat = w.toNat / 256 ^ i % 256 := by
  simp [byteOf]

/-- A `u32` is put together from its four bytes (R93). -/
@[simp] theorem joinWord_byteOf (w : Word) :
    joinWord (byteOf w 0) (byteOf w 1) (byteOf w 2) (byteOf w 3) = w := by
  have := w.isLt
  apply BitVec.eq_of_toNat_eq
  simp only [joinWord, byteOf_toNat, BitVec.toNat_ofNat]; omega

@[simp] theorem wordBytes_length (w : Word) (o : ByteOrder) : (wordBytes w o).length = 4 := by
  cases o <;> rfl

theorem foldl_add_byte (bs : List Byte) (s : Byte) :
    bs.foldl (fun s b => s + b) s = s + bs.foldl (fun s b => s + b) 0 := by
  induction bs generalizing s with
  | nil => simp
  | cons b bs ih => simp only [List.foldl_cons]; rw [ih (s + b), ih (0 + b)]; simp [BitVec.add_assoc]

/-- The sum of an empty sequence is 0 (R96). -/
@[simp] theorem ck8_nil : ck8 [] = 0 := rfl

@[simp] theorem ck8_cons (b : Byte) (bs : List Byte) : ck8 (b :: bs) = b + ck8 bs := by
  simp only [ck8, List.foldl_cons]; rw [foldl_add_byte]; simp

@[simp] theorem ck8_append (as bs : List Byte) : ck8 (as ++ bs) = ck8 as + ck8 bs := by
  induction as with
  | nil => simp
  | cons a as ih => simp [ih, BitVec.add_assoc]

/-- The checksum as a number: the sum of the bytes modulo 256 (R96). -/
theorem ck8_toNat (bs : List Byte) : (ck8 bs).toNat = (bs.map BitVec.toNat).sum % 256 := by
  induction bs with
  | nil => rfl
  | cons b bs ih => rw [ck8_cons, BitVec.toNat_add, ih, List.map_cons, List.sum_cons]; omega

@[simp] theorem withChecksum_length (f : List Byte) : (withChecksum f).length = f.length + 1 := by
  simp [withChecksum]

theorem withChecksum_closed (f : List Byte) :
    (withChecksum f).getLast? = some (ck8 (withChecksum f).dropLast) := by
  simp [withChecksum]

theorem widthOk_iff (width : Nat) : widthOk width = true ↔ 1 ≤ width ∧ width ≤ 32 := by
  simp [widthOk]

@[simp] theorem cutPayload_length (bs : List Byte) : (cutPayload bs).length ≤ 249 := by
  simp [cutPayload]

/-- The four tests of R162, spelt out. -/
theorem frameValid_iff (c : Config) (f : List Byte) :
    frameValid c f = true ↔
      7 ≤ f.length ∧ f[0]? = some c.sof ∧ f[1]?.map BitVec.toNat = some f.length ∧
        f.getLast? = some (ck8 f.dropLast) := by
  simp [frameValid, and_assoc]

/-- A valid frame is as long as one byte can say (R13). -/
theorem frameValid_length {c : Config} {f : List Byte} (h : frameValid c f = true) :
    f.length ≤ 255 := by
  obtain ⟨-, -, h, -⟩ := (frameValid_iff c f).1 h
  cases hf : f[1]? with
  | none => simp [hf] at h
  | some b => simp only [hf, Option.map_some, Option.some.injEq] at h; have := b.isLt; omega

@[simp] theorem encodeCommand_length (c : Config) (a o : Byte) (x : Half) :
    (encodeCommand c a o x).length = 6 := rfl

@[simp] theorem encodeRequest_length (c : Config) (seq code : Half) (ops : List Byte) :
    (encodeRequest c seq code ops).length = 7 + ops.length := by
  simp [encodeRequest]; omega

@[simp] theorem encodeReply_length (c : Config) (seq : Half) (status : Byte) (p : List Byte) :
    (encodeReply c seq status p).length = 6 + p.length := by
  simp [encodeReply]; omega

/-- A checksummed request of at most 248 operand bytes passes the tests of R162. -/
theorem encodeRequest_valid (c : Config) (seq code : Half) (ops : List Byte)
    (h : ops.length ≤ 248) : frameValid c (encodeRequest c seq code ops) = true := by
  rw [frameValid_iff]
  refine ⟨by simp, by simp [encodeRequest, withChecksum], ?_, withChecksum_closed _⟩
  rw [encodeRequest_length]
  simp only [encodeRequest, withChecksum, List.cons_append, List.nil_append,
    List.getElem?_cons_succ, List.getElem?_cons_zero, Option.map_some, BitVec.toNat_ofNat,
    Option.some.injEq]
  omega

end Sys2Proof
end

