-- ==== Sys2Proof/Laws/State.lean ====
section
/-! SUPPORT. What each named update of the state does to each field: one lemma per field per update. -/

namespace Sys2Proof.Machine

variable (s : State)

@[simp] theorem State.setEn_cfg (a : Byte) (b : Bool) : (s.setEn a b).cfg = s.cfg := rfl
@[simp] theorem State.setEn_st (a : Byte) (b : Bool) : (s.setEn a b).st = s.st := rfl
@[simp] theorem State.setEn_len (a : Byte) (b : Bool) : (s.setEn a b).len = s.len := rfl
@[simp] theorem State.setEn_cnt (a : Byte) (b : Bool) : (s.setEn a b).cnt = s.cnt := rfl
@[simp] theorem State.setEn_rxbuf (a : Byte) (b : Bool) : (s.setEn a b).rxbuf = s.rxbuf := rfl
@[simp] theorem State.setEn_done (a : Byte) (b : Bool) : (s.setEn a b).done = s.done := rfl
@[simp] theorem State.setEn_busy (a : Byte) (b : Bool) : (s.setEn a b).busy = s.busy := rfl
@[simp] theorem State.setEn_rxie (a : Byte) (b : Bool) : (s.setEn a b).rxie = s.rxie := rfl
@[simp] theorem State.setEn_mode (a : Byte) (b : Bool) : (s.setEn a b).mode = s.mode := rfl
@[simp] theorem State.setEn_cv (a : Byte) (b : Bool) : (s.setEn a b).cv = s.cv := rfl
@[simp] theorem State.setEn_ca (a : Byte) (b : Bool) : (s.setEn a b).ca = s.ca := rfl
@[simp] theorem State.setEn_co (a : Byte) (b : Bool) : (s.setEn a b).co = s.co := rfl
@[simp] theorem State.setEn_cx (a : Byte) (b : Bool) : (s.setEn a b).cx = s.cx := rfl
@[simp] theorem State.setEn_fbuf (a : Byte) (b : Bool) : (s.setEn a b).fbuf = s.fbuf := rfl
@[simp] theorem State.setEn_flen (a : Byte) (b : Bool) : (s.setEn a b).flen = s.flen := rfl
@[simp] theorem State.setEn_en (a : Byte) (b : Bool) : (s.setEn a b).en = putBit s.en a.toNat b := rfl
@[simp] theorem State.setEn_pkBuf (a : Byte) (b : Bool) : (s.setEn a b).pkBuf = s.pkBuf := rfl
@[simp] theorem State.setEn_pkIdx (a : Byte) (b : Bool) : (s.setEn a b).pkIdx = s.pkIdx := rfl
@[simp] theorem State.setEn_pkFree (a : Byte) (b : Bool) : (s.setEn a b).pkFree = s.pkFree := rfl
@[simp] theorem State.setEn_upSrc (a : Byte) (b : Bool) : (s.setEn a b).upSrc = s.upSrc := rfl
@[simp] theorem State.setEn_upN (a : Byte) (b : Bool) : (s.setEn a b).upN = s.upN := rfl
@[simp] theorem State.setEn_upIdx (a : Byte) (b : Bool) : (s.setEn a b).upIdx = s.upIdx := rfl
@[simp] theorem State.setEn_upFree (a : Byte) (b : Bool) : (s.setEn a b).upFree = s.upFree := rfl
@[simp] theorem State.setEn_txStream (a : Byte) (b : Bool) : (s.setEn a b).txStream = s.txStream := rfl
@[simp] theorem State.setEn_txCk (a : Byte) (b : Bool) : (s.setEn a b).txCk = s.txCk := rfl
@[simp] theorem State.setEn_calls (a : Byte) (b : Bool) : (s.setEn a b).calls = s.calls := rfl
@[simp] theorem State.setEn_trap (a : Byte) (b : Bool) : (s.setEn a b).trap = s.trap := rfl
@[simp] theorem State.setEn_pkReady (a : Byte) (b : Bool) : (s.setEn a b).pkReady = s.pkReady := rfl
@[simp] theorem State.setEn_upReady (a : Byte) (b : Bool) : (s.setEn a b).upReady = s.upReady := rfl
@[simp] theorem State.setEn_result (a : Byte) (b : Bool) : (s.setEn a b).result = s.result := rfl
@[simp] theorem State.setEn_events (a : Byte) (b : Bool) : (s.setEn a b).events = s.events := rfl
@[simp] theorem State.setEn_answers (a : Byte) (b : Bool) : (s.setEn a b).answers = s.answers := rfl
@[simp] theorem State.setEn_draws (a : Byte) (b : Bool) : (s.setEn a b).draws = s.draws := rfl
@[simp] theorem State.setEn_epoch (a : Byte) (b : Bool) : (s.setEn a b).epoch = s.epoch := rfl

@[simp] theorem State.raiseBusy_cfg : (s.raiseBusy).cfg = s.cfg := rfl
@[simp] theorem State.raiseBusy_st : (s.raiseBusy).st = s.st := rfl
@[simp] theorem State.raiseBusy_len : (s.raiseBusy).len = s.len := rfl
@[simp] theorem State.raiseBusy_cnt : (s.raiseBusy).cnt = s.cnt := rfl
@[simp] theorem State.raiseBusy_rxbuf : (s.raiseBusy).rxbuf = s.rxbuf := rfl
@[simp] theorem State.raiseBusy_done : (s.raiseBusy).done = s.done := rfl
@[simp] theorem State.raiseBusy_busy : (s.raiseBusy).busy = (s.busy || s.cfg.flowControl) := rfl
@[simp] theorem State.raiseBusy_rxie : (s.raiseBusy).rxie = s.rxie := rfl
@[simp] theorem State.raiseBusy_mode : (s.raiseBusy).mode = s.mode := rfl
@[simp] theorem State.raiseBusy_cv : (s.raiseBusy).cv = s.cv := rfl
@[simp] theorem State.raiseBusy_ca : (s.raiseBusy).ca = s.ca := rfl
@[simp] theorem State.raiseBusy_co : (s.raiseBusy).co = s.co := rfl
@[simp] theorem State.raiseBusy_cx : (s.raiseBusy).cx = s.cx := rfl
@[simp] theorem State.raiseBusy_fbuf : (s.raiseBusy).fbuf = s.fbuf := rfl
@[simp] theorem State.raiseBusy_flen : (s.raiseBusy).flen = s.flen := rfl
@[simp] theorem State.raiseBusy_en : (s.raiseBusy).en = s.en := rfl
@[simp] theorem State.raiseBusy_pkBuf : (s.raiseBusy).pkBuf = s.pkBuf := rfl
@[simp] theorem State.raiseBusy_pkIdx : (s.raiseBusy).pkIdx = s.pkIdx := rfl
@[simp] theorem State.raiseBusy_pkFree : (s.raiseBusy).pkFree = s.pkFree := rfl
@[simp] theorem State.raiseBusy_upSrc : (s.raiseBusy).upSrc = s.upSrc := rfl
@[simp] theorem State.raiseBusy_upN : (s.raiseBusy).upN = s.upN := rfl
@[simp] theorem State.raiseBusy_upIdx : (s.raiseBusy).upIdx = s.upIdx := rfl
@[simp] theorem State.raiseBusy_upFree : (s.raiseBusy).upFree = s.upFree := rfl
@[simp] theorem State.raiseBusy_txStream : (s.raiseBusy).txStream = s.txStream := rfl
@[simp] theorem State.raiseBusy_txCk : (s.raiseBusy).txCk = s.txCk := rfl
@[simp] theorem State.raiseBusy_calls : (s.raiseBusy).calls = s.calls := rfl
@[simp] theorem State.raiseBusy_trap : (s.raiseBusy).trap = s.trap := rfl
@[simp] theorem State.raiseBusy_pkReady : (s.raiseBusy).pkReady = s.pkReady := rfl
@[simp] theorem State.raiseBusy_upReady : (s.raiseBusy).upReady = s.upReady := rfl
@[simp] theorem State.raiseBusy_result : (s.raiseBusy).result = s.result := rfl
@[simp] theorem State.raiseBusy_events : (s.raiseBusy).events = s.events := rfl
@[simp] theorem State.raiseBusy_answers : (s.raiseBusy).answers = s.answers := rfl
@[simp] theorem State.raiseBusy_draws : (s.raiseBusy).draws = s.draws := rfl
@[simp] theorem State.raiseBusy_epoch : (s.raiseBusy).epoch = s.epoch := rfl

@[simp] theorem State.dropBusy_cfg : (s.dropBusy).cfg = s.cfg := rfl
@[simp] theorem State.dropBusy_st : (s.dropBusy).st = s.st := rfl
@[simp] theorem State.dropBusy_len : (s.dropBusy).len = s.len := rfl
@[simp] theorem State.dropBusy_cnt : (s.dropBusy).cnt = s.cnt := rfl
@[simp] theorem State.dropBusy_rxbuf : (s.dropBusy).rxbuf = s.rxbuf := rfl
@[simp] theorem State.dropBusy_done : (s.dropBusy).done = s.done := rfl
@[simp] theorem State.dropBusy_busy : (s.dropBusy).busy = (s.busy && !s.cfg.flowControl) := rfl
@[simp] theorem State.dropBusy_rxie : (s.dropBusy).rxie = s.rxie := rfl
@[simp] theorem State.dropBusy_mode : (s.dropBusy).mode = s.mode := rfl
@[simp] theorem State.dropBusy_cv : (s.dropBusy).cv = s.cv := rfl
@[simp] theorem State.dropBusy_ca : (s.dropBusy).ca = s.ca := rfl
@[simp] theorem State.dropBusy_co : (s.dropBusy).co = s.co := rfl
@[simp] theorem State.dropBusy_cx : (s.dropBusy).cx = s.cx := rfl
@[simp] theorem State.dropBusy_fbuf : (s.dropBusy).fbuf = s.fbuf := rfl
@[simp] theorem State.dropBusy_flen : (s.dropBusy).flen = s.flen := rfl
@[simp] theorem State.dropBusy_en : (s.dropBusy).en = s.en := rfl
@[simp] theorem State.dropBusy_pkBuf : (s.dropBusy).pkBuf = s.pkBuf := rfl
@[simp] theorem State.dropBusy_pkIdx : (s.dropBusy).pkIdx = s.pkIdx := rfl
@[simp] theorem State.dropBusy_pkFree : (s.dropBusy).pkFree = s.pkFree := rfl
@[simp] theorem State.dropBusy_upSrc : (s.dropBusy).upSrc = s.upSrc := rfl
@[simp] theorem State.dropBusy_upN : (s.dropBusy).upN = s.upN := rfl
@[simp] theorem State.dropBusy_upIdx : (s.dropBusy).upIdx = s.upIdx := rfl
@[simp] theorem State.dropBusy_upFree : (s.dropBusy).upFree = s.upFree := rfl
@[simp] theorem State.dropBusy_txStream : (s.dropBusy).txStream = s.txStream := rfl
@[simp] theorem State.dropBusy_txCk : (s.dropBusy).txCk = s.txCk := rfl
@[simp] theorem State.dropBusy_calls : (s.dropBusy).calls = s.calls := rfl
@[simp] theorem State.dropBusy_trap : (s.dropBusy).trap = s.trap := rfl
@[simp] theorem State.dropBusy_pkReady : (s.dropBusy).pkReady = s.pkReady := rfl
@[simp] theorem State.dropBusy_upReady : (s.dropBusy).upReady = s.upReady := rfl
@[simp] theorem State.dropBusy_result : (s.dropBusy).result = s.result := rfl
@[simp] theorem State.dropBusy_events : (s.dropBusy).events = s.events := rfl
@[simp] theorem State.dropBusy_answers : (s.dropBusy).answers = s.answers := rfl
@[simp] theorem State.dropBusy_draws : (s.dropBusy).draws = s.draws := rfl
@[simp] theorem State.dropBusy_epoch : (s.dropBusy).epoch = s.epoch := rfl

@[simp] theorem State.setPackByte_cfg (i : Nat) (b : Byte) : (s.setPackByte i b).cfg = s.cfg := rfl
@[simp] theorem State.setPackByte_st (i : Nat) (b : Byte) : (s.setPackByte i b).st = s.st := rfl
@[simp] theorem State.setPackByte_len (i : Nat) (b : Byte) : (s.setPackByte i b).len = s.len := rfl
@[simp] theorem State.setPackByte_cnt (i : Nat) (b : Byte) : (s.setPackByte i b).cnt = s.cnt := rfl
@[simp] theorem State.setPackByte_rxbuf (i : Nat) (b : Byte) : (s.setPackByte i b).rxbuf = s.rxbuf := rfl
@[simp] theorem State.setPackByte_done (i : Nat) (b : Byte) : (s.setPackByte i b).done = s.done := rfl
@[simp] theorem State.setPackByte_busy (i : Nat) (b : Byte) : (s.setPackByte i b).busy = s.busy := rfl
@[simp] theorem State.setPackByte_rxie (i : Nat) (b : Byte) : (s.setPackByte i b).rxie = s.rxie := rfl
@[simp] theorem State.setPackByte_mode (i : Nat) (b : Byte) : (s.setPackByte i b).mode = s.mode := rfl
@[simp] theorem State.setPackByte_cv (i : Nat) (b : Byte) : (s.setPackByte i b).cv = s.cv := rfl
@[simp] theorem State.setPackByte_ca (i : Nat) (b : Byte) : (s.setPackByte i b).ca = s.ca := rfl
@[simp] theorem State.setPackByte_co (i : Nat) (b : Byte) : (s.setPackByte i b).co = s.co := rfl
@[simp] theorem State.setPackByte_cx (i : Nat) (b : Byte) : (s.setPackByte i b).cx = s.cx := rfl
@[simp] theorem State.setPackByte_fbuf (i : Nat) (b : Byte) : (s.setPackByte i b).fbuf = s.fbuf := rfl
@[simp] theorem State.setPackByte_flen (i : Nat) (b : Byte) : (s.setPackByte i b).flen = s.flen := rfl
@[simp] theorem State.setPackByte_en (i : Nat) (b : Byte) : (s.setPackByte i b).en = s.en := rfl
@[simp] theorem State.setPackByte_pkBuf (i : Nat) (b : Byte) : (s.setPackByte i b).pkBuf = Memory.write s.pkBuf i b := rfl
@[simp] theorem State.setPackByte_pkIdx (i : Nat) (b : Byte) : (s.setPackByte i b).pkIdx = s.pkIdx := rfl
@[simp] theorem State.setPackByte_pkFree (i : Nat) (b : Byte) : (s.setPackByte i b).pkFree = s.pkFree := rfl
@[simp] theorem State.setPackByte_upSrc (i : Nat) (b : Byte) : (s.setPackByte i b).upSrc = s.upSrc := rfl
@[simp] theorem State.setPackByte_upN (i : Nat) (b : Byte) : (s.setPackByte i b).upN = s.upN := rfl
@[simp] theorem State.setPackByte_upIdx (i : Nat) (b : Byte) : (s.setPackByte i b).upIdx = s.upIdx := rfl
@[simp] theorem State.setPackByte_upFree (i : Nat) (b : Byte) : (s.setPackByte i b).upFree = s.upFree := rfl
@[simp] theorem State.setPackByte_txStream (i : Nat) (b : Byte) : (s.setPackByte i b).txStream = s.txStream := rfl
@[simp] theorem State.setPackByte_txCk (i : Nat) (b : Byte) : (s.setPackByte i b).txCk = s.txCk := rfl
@[simp] theorem State.setPackByte_calls (i : Nat) (b : Byte) : (s.setPackByte i b).calls = s.calls := rfl
@[simp] theorem State.setPackByte_trap (i : Nat) (b : Byte) : (s.setPackByte i b).trap = s.trap := rfl
@[simp] theorem State.setPackByte_pkReady (i : Nat) (b : Byte) : (s.setPackByte i b).pkReady = s.pkReady := rfl
@[simp] theorem State.setPackByte_upReady (i : Nat) (b : Byte) : (s.setPackByte i b).upReady = s.upReady := rfl
@[simp] theorem State.setPackByte_result (i : Nat) (b : Byte) : (s.setPackByte i b).result = s.result := rfl
@[simp] theorem State.setPackByte_events (i : Nat) (b : Byte) : (s.setPackByte i b).events = s.events := rfl
@[simp] theorem State.setPackByte_answers (i : Nat) (b : Byte) : (s.setPackByte i b).answers = s.answers := rfl
@[simp] theorem State.setPackByte_draws (i : Nat) (b : Byte) : (s.setPackByte i b).draws = s.draws := rfl
@[simp] theorem State.setPackByte_epoch (i : Nat) (b : Byte) : (s.setPackByte i b).epoch = s.epoch := rfl

@[simp] theorem State.raise_cfg (x : Trap) : (s.raise x).cfg = s.cfg := rfl
@[simp] theorem State.raise_st (x : Trap) : (s.raise x).st = s.st := rfl
@[simp] theorem State.raise_len (x : Trap) : (s.raise x).len = s.len := rfl
@[simp] theorem State.raise_cnt (x : Trap) : (s.raise x).cnt = s.cnt := rfl
@[simp] theorem State.raise_rxbuf (x : Trap) : (s.raise x).rxbuf = s.rxbuf := rfl
@[simp] theorem State.raise_done (x : Trap) : (s.raise x).done = s.done := rfl
@[simp] theorem State.raise_busy (x : Trap) : (s.raise x).busy = s.busy := rfl
@[simp] theorem State.raise_rxie (x : Trap) : (s.raise x).rxie = s.rxie := rfl
@[simp] theorem State.raise_mode (x : Trap) : (s.raise x).mode = s.mode := rfl
@[simp] theorem State.raise_cv (x : Trap) : (s.raise x).cv = s.cv := rfl
@[simp] theorem State.raise_ca (x : Trap) : (s.raise x).ca = s.ca := rfl
@[simp] theorem State.raise_co (x : Trap) : (s.raise x).co = s.co := rfl
@[simp] theorem State.raise_cx (x : Trap) : (s.raise x).cx = s.cx := rfl
@[simp] theorem State.raise_fbuf (x : Trap) : (s.raise x).fbuf = s.fbuf := rfl
@[simp] theorem State.raise_flen (x : Trap) : (s.raise x).flen = s.flen := rfl
@[simp] theorem State.raise_en (x : Trap) : (s.raise x).en = s.en := rfl
@[simp] theorem State.raise_pkBuf (x : Trap) : (s.raise x).pkBuf = s.pkBuf := rfl
@[simp] theorem State.raise_pkIdx (x : Trap) : (s.raise x).pkIdx = s.pkIdx := rfl
@[simp] theorem State.raise_pkFree (x : Trap) : (s.raise x).pkFree = s.pkFree := rfl
@[simp] theorem State.raise_upSrc (x : Trap) : (s.raise x).upSrc = s.upSrc := rfl
@[simp] theorem State.raise_upN (x : Trap) : (s.raise x).upN = s.upN := rfl
@[simp] theorem State.raise_upIdx (x : Trap) : (s.raise x).upIdx = s.upIdx := rfl
@[simp] theorem State.raise_upFree (x : Trap) : (s.raise x).upFree = s.upFree := rfl
@[simp] theorem State.raise_txStream (x : Trap) : (s.raise x).txStream = s.txStream := rfl
@[simp] theorem State.raise_txCk (x : Trap) : (s.raise x).txCk = s.txCk := rfl
@[simp] theorem State.raise_calls (x : Trap) : (s.raise x).calls = s.calls := rfl
@[simp] theorem State.raise_trap (x : Trap) : (s.raise x).trap = some x := rfl
@[simp] theorem State.raise_pkReady (x : Trap) : (s.raise x).pkReady = s.pkReady := rfl
@[simp] theorem State.raise_upReady (x : Trap) : (s.raise x).upReady = s.upReady := rfl
@[simp] theorem State.raise_result (x : Trap) : (s.raise x).result = s.result := rfl
@[simp] theorem State.raise_events (x : Trap) : (s.raise x).events = s.events := rfl
@[simp] theorem State.raise_answers (x : Trap) : (s.raise x).answers = s.answers := rfl
@[simp] theorem State.raise_draws (x : Trap) : (s.raise x).draws = s.draws := rfl
@[simp] theorem State.raise_epoch (x : Trap) : (s.raise x).epoch = s.epoch := rfl

@[simp] theorem State.sendStream_cfg (bs : List Byte) : (s.sendStream bs).cfg = s.cfg := rfl
@[simp] theorem State.sendStream_st (bs : List Byte) : (s.sendStream bs).st = s.st := rfl
@[simp] theorem State.sendStream_len (bs : List Byte) : (s.sendStream bs).len = s.len := rfl
@[simp] theorem State.sendStream_cnt (bs : List Byte) : (s.sendStream bs).cnt = s.cnt := rfl
@[simp] theorem State.sendStream_rxbuf (bs : List Byte) : (s.sendStream bs).rxbuf = s.rxbuf := rfl
@[simp] theorem State.sendStream_done (bs : List Byte) : (s.sendStream bs).done = s.done := rfl
@[simp] theorem State.sendStream_busy (bs : List Byte) : (s.sendStream bs).busy = s.busy := rfl
@[simp] theorem State.sendStream_rxie (bs : List Byte) : (s.sendStream bs).rxie = s.rxie := rfl
@[simp] theorem State.sendStream_mode (bs : List Byte) : (s.sendStream bs).mode = s.mode := rfl
@[simp] theorem State.sendStream_cv (bs : List Byte) : (s.sendStream bs).cv = s.cv := rfl
@[simp] theorem State.sendStream_ca (bs : List Byte) : (s.sendStream bs).ca = s.ca := rfl
@[simp] theorem State.sendStream_co (bs : List Byte) : (s.sendStream bs).co = s.co := rfl
@[simp] theorem State.sendStream_cx (bs : List Byte) : (s.sendStream bs).cx = s.cx := rfl
@[simp] theorem State.sendStream_fbuf (bs : List Byte) : (s.sendStream bs).fbuf = s.fbuf := rfl
@[simp] theorem State.sendStream_flen (bs : List Byte) : (s.sendStream bs).flen = s.flen := rfl
@[simp] theorem State.sendStream_en (bs : List Byte) : (s.sendStream bs).en = s.en := rfl
@[simp] theorem State.sendStream_pkBuf (bs : List Byte) : (s.sendStream bs).pkBuf = s.pkBuf := rfl
@[simp] theorem State.sendStream_pkIdx (bs : List Byte) : (s.sendStream bs).pkIdx = s.pkIdx := rfl
@[simp] theorem State.sendStream_pkFree (bs : List Byte) : (s.sendStream bs).pkFree = s.pkFree := rfl
@[simp] theorem State.sendStream_upSrc (bs : List Byte) : (s.sendStream bs).upSrc = s.upSrc := rfl
@[simp] theorem State.sendStream_upN (bs : List Byte) : (s.sendStream bs).upN = s.upN := rfl
@[simp] theorem State.sendStream_upIdx (bs : List Byte) : (s.sendStream bs).upIdx = s.upIdx := rfl
@[simp] theorem State.sendStream_upFree (bs : List Byte) : (s.sendStream bs).upFree = s.upFree := rfl
@[simp] theorem State.sendStream_txStream (bs : List Byte) : (s.sendStream bs).txStream = s.txStream ++ bs := rfl
@[simp] theorem State.sendStream_txCk (bs : List Byte) : (s.sendStream bs).txCk = s.txCk := rfl
@[simp] theorem State.sendStream_calls (bs : List Byte) : (s.sendStream bs).calls = s.calls := rfl
@[simp] theorem State.sendStream_trap (bs : List Byte) : (s.sendStream bs).trap = s.trap := rfl
@[simp] theorem State.sendStream_pkReady (bs : List Byte) : (s.sendStream bs).pkReady = s.pkReady := rfl
@[simp] theorem State.sendStream_upReady (bs : List Byte) : (s.sendStream bs).upReady = s.upReady := rfl
@[simp] theorem State.sendStream_result (bs : List Byte) : (s.sendStream bs).result = s.result := rfl
@[simp] theorem State.sendStream_events (bs : List Byte) : (s.sendStream bs).events = s.events := rfl
@[simp] theorem State.sendStream_answers (bs : List Byte) : (s.sendStream bs).answers = s.answers := rfl
@[simp] theorem State.sendStream_draws (bs : List Byte) : (s.sendStream bs).draws = s.draws := rfl
@[simp] theorem State.sendStream_epoch (bs : List Byte) : (s.sendStream bs).epoch = s.epoch := rfl

@[simp] theorem State.sendCk_cfg (bs : List Byte) : (s.sendCk bs).cfg = s.cfg := rfl
@[simp] theorem State.sendCk_st (bs : List Byte) : (s.sendCk bs).st = s.st := rfl
@[simp] theorem State.sendCk_len (bs : List Byte) : (s.sendCk bs).len = s.len := rfl
@[simp] theorem State.sendCk_cnt (bs : List Byte) : (s.sendCk bs).cnt = s.cnt := rfl
@[simp] theorem State.sendCk_rxbuf (bs : List Byte) : (s.sendCk bs).rxbuf = s.rxbuf := rfl
@[simp] theorem State.sendCk_done (bs : List Byte) : (s.sendCk bs).done = s.done := rfl
@[simp] theorem State.sendCk_busy (bs : List Byte) : (s.sendCk bs).busy = s.busy := rfl
@[simp] theorem State.sendCk_rxie (bs : List Byte) : (s.sendCk bs).rxie = s.rxie := rfl
@[simp] theorem State.sendCk_mode (bs : List Byte) : (s.sendCk bs).mode = s.mode := rfl
@[simp] theorem State.sendCk_cv (bs : List Byte) : (s.sendCk bs).cv = s.cv := rfl
@[simp] theorem State.sendCk_ca (bs : List Byte) : (s.sendCk bs).ca = s.ca := rfl
@[simp] theorem State.sendCk_co (bs : List Byte) : (s.sendCk bs).co = s.co := rfl
@[simp] theorem State.sendCk_cx (bs : List Byte) : (s.sendCk bs).cx = s.cx := rfl
@[simp] theorem State.sendCk_fbuf (bs : List Byte) : (s.sendCk bs).fbuf = s.fbuf := rfl
@[simp] theorem State.sendCk_flen (bs : List Byte) : (s.sendCk bs).flen = s.flen := rfl
@[simp] theorem State.sendCk_en (bs : List Byte) : (s.sendCk bs).en = s.en := rfl
@[simp] theorem State.sendCk_pkBuf (bs : List Byte) : (s.sendCk bs).pkBuf = s.pkBuf := rfl
@[simp] theorem State.sendCk_pkIdx (bs : List Byte) : (s.sendCk bs).pkIdx = s.pkIdx := rfl
@[simp] theorem State.sendCk_pkFree (bs : List Byte) : (s.sendCk bs).pkFree = s.pkFree := rfl
@[simp] theorem State.sendCk_upSrc (bs : List Byte) : (s.sendCk bs).upSrc = s.upSrc := rfl
@[simp] theorem State.sendCk_upN (bs : List Byte) : (s.sendCk bs).upN = s.upN := rfl
@[simp] theorem State.sendCk_upIdx (bs : List Byte) : (s.sendCk bs).upIdx = s.upIdx := rfl
@[simp] theorem State.sendCk_upFree (bs : List Byte) : (s.sendCk bs).upFree = s.upFree := rfl
@[simp] theorem State.sendCk_txStream (bs : List Byte) : (s.sendCk bs).txStream = s.txStream := rfl
@[simp] theorem State.sendCk_txCk (bs : List Byte) : (s.sendCk bs).txCk = s.txCk ++ bs := rfl
@[simp] theorem State.sendCk_calls (bs : List Byte) : (s.sendCk bs).calls = s.calls := rfl
@[simp] theorem State.sendCk_trap (bs : List Byte) : (s.sendCk bs).trap = s.trap := rfl
@[simp] theorem State.sendCk_pkReady (bs : List Byte) : (s.sendCk bs).pkReady = s.pkReady := rfl
@[simp] theorem State.sendCk_upReady (bs : List Byte) : (s.sendCk bs).upReady = s.upReady := rfl
@[simp] theorem State.sendCk_result (bs : List Byte) : (s.sendCk bs).result = s.result := rfl
@[simp] theorem State.sendCk_events (bs : List Byte) : (s.sendCk bs).events = s.events := rfl
@[simp] theorem State.sendCk_answers (bs : List Byte) : (s.sendCk bs).answers = s.answers := rfl
@[simp] theorem State.sendCk_draws (bs : List Byte) : (s.sendCk bs).draws = s.draws := rfl
@[simp] theorem State.sendCk_epoch (bs : List Byte) : (s.sendCk bs).epoch = s.epoch := rfl

@[simp] theorem State.answer_cfg (r : Result) : (s.answer r).cfg = s.cfg := rfl
@[simp] theorem State.answer_st (r : Result) : (s.answer r).st = s.st := rfl
@[simp] theorem State.answer_len (r : Result) : (s.answer r).len = s.len := rfl
@[simp] theorem State.answer_cnt (r : Result) : (s.answer r).cnt = s.cnt := rfl
@[simp] theorem State.answer_rxbuf (r : Result) : (s.answer r).rxbuf = s.rxbuf := rfl
@[simp] theorem State.answer_done (r : Result) : (s.answer r).done = s.done := rfl
@[simp] theorem State.answer_busy (r : Result) : (s.answer r).busy = s.busy := rfl
@[simp] theorem State.answer_rxie (r : Result) : (s.answer r).rxie = s.rxie := rfl
@[simp] theorem State.answer_mode (r : Result) : (s.answer r).mode = s.mode := rfl
@[simp] theorem State.answer_cv (r : Result) : (s.answer r).cv = s.cv := rfl
@[simp] theorem State.answer_ca (r : Result) : (s.answer r).ca = s.ca := rfl
@[simp] theorem State.answer_co (r : Result) : (s.answer r).co = s.co := rfl
@[simp] theorem State.answer_cx (r : Result) : (s.answer r).cx = s.cx := rfl
@[simp] theorem State.answer_fbuf (r : Result) : (s.answer r).fbuf = s.fbuf := rfl
@[simp] theorem State.answer_flen (r : Result) : (s.answer r).flen = s.flen := rfl
@[simp] theorem State.answer_en (r : Result) : (s.answer r).en = s.en := rfl
@[simp] theorem State.answer_pkBuf (r : Result) : (s.answer r).pkBuf = s.pkBuf := rfl
@[simp] theorem State.answer_pkIdx (r : Result) : (s.answer r).pkIdx = s.pkIdx := rfl
@[simp] theorem State.answer_pkFree (r : Result) : (s.answer r).pkFree = s.pkFree := rfl
@[simp] theorem State.answer_upSrc (r : Result) : (s.answer r).upSrc = s.upSrc := rfl
@[simp] theorem State.answer_upN (r : Result) : (s.answer r).upN = s.upN := rfl
@[simp] theorem State.answer_upIdx (r : Result) : (s.answer r).upIdx = s.upIdx := rfl
@[simp] theorem State.answer_upFree (r : Result) : (s.answer r).upFree = s.upFree := rfl
@[simp] theorem State.answer_txStream (r : Result) : (s.answer r).txStream = s.txStream := rfl
@[simp] theorem State.answer_txCk (r : Result) : (s.answer r).txCk = s.txCk := rfl
@[simp] theorem State.answer_calls (r : Result) : (s.answer r).calls = s.calls := rfl
@[simp] theorem State.answer_trap (r : Result) : (s.answer r).trap = s.trap := rfl
@[simp] theorem State.answer_pkReady (r : Result) : (s.answer r).pkReady = s.pkReady := rfl
@[simp] theorem State.answer_upReady (r : Result) : (s.answer r).upReady = s.upReady := rfl
@[simp] theorem State.answer_result (r : Result) : (s.answer r).result = r := rfl
@[simp] theorem State.answer_events (r : Result) : (s.answer r).events = s.events := rfl
@[simp] theorem State.answer_answers (r : Result) : (s.answer r).answers = s.answers := rfl
@[simp] theorem State.answer_draws (r : Result) : (s.answer r).draws = s.draws := rfl
@[simp] theorem State.answer_epoch (r : Result) : (s.answer r).epoch = s.epoch := rfl

@[simp] theorem State.drawn_cfg : (s.drawn).cfg = s.cfg := rfl
@[simp] theorem State.drawn_st : (s.drawn).st = s.st := rfl
@[simp] theorem State.drawn_len : (s.drawn).len = s.len := rfl
@[simp] theorem State.drawn_cnt : (s.drawn).cnt = s.cnt := rfl
@[simp] theorem State.drawn_rxbuf : (s.drawn).rxbuf = s.rxbuf := rfl
@[simp] theorem State.drawn_done : (s.drawn).done = s.done := rfl
@[simp] theorem State.drawn_busy : (s.drawn).busy = s.busy := rfl
@[simp] theorem State.drawn_rxie : (s.drawn).rxie = s.rxie := rfl
@[simp] theorem State.drawn_mode : (s.drawn).mode = s.mode := rfl
@[simp] theorem State.drawn_cv : (s.drawn).cv = s.cv := rfl
@[simp] theorem State.drawn_ca : (s.drawn).ca = s.ca := rfl
@[simp] theorem State.drawn_co : (s.drawn).co = s.co := rfl
@[simp] theorem State.drawn_cx : (s.drawn).cx = s.cx := rfl
@[simp] theorem State.drawn_fbuf : (s.drawn).fbuf = s.fbuf := rfl
@[simp] theorem State.drawn_flen : (s.drawn).flen = s.flen := rfl
@[simp] theorem State.drawn_en : (s.drawn).en = s.en := rfl
@[simp] theorem State.drawn_pkBuf : (s.drawn).pkBuf = s.pkBuf := rfl
@[simp] theorem State.drawn_pkIdx : (s.drawn).pkIdx = s.pkIdx := rfl
@[simp] theorem State.drawn_pkFree : (s.drawn).pkFree = s.pkFree := rfl
@[simp] theorem State.drawn_upSrc : (s.drawn).upSrc = s.upSrc := rfl
@[simp] theorem State.drawn_upN : (s.drawn).upN = s.upN := rfl
@[simp] theorem State.drawn_upIdx : (s.drawn).upIdx = s.upIdx := rfl
@[simp] theorem State.drawn_upFree : (s.drawn).upFree = s.upFree := rfl
@[simp] theorem State.drawn_txStream : (s.drawn).txStream = s.txStream := rfl
@[simp] theorem State.drawn_txCk : (s.drawn).txCk = s.txCk := rfl
@[simp] theorem State.drawn_calls : (s.drawn).calls = s.calls := rfl
@[simp] theorem State.drawn_trap : (s.drawn).trap = s.trap := rfl
@[simp] theorem State.drawn_pkReady : (s.drawn).pkReady = s.pkReady := rfl
@[simp] theorem State.drawn_upReady : (s.drawn).upReady = s.upReady := rfl
@[simp] theorem State.drawn_result : (s.drawn).result = s.result := rfl
@[simp] theorem State.drawn_events : (s.drawn).events = s.events := rfl
@[simp] theorem State.drawn_answers : (s.drawn).answers = s.answers := rfl
@[simp] theorem State.drawn_draws : (s.drawn).draws = s.draws + 1 := rfl
@[simp] theorem State.drawn_epoch : (s.drawn).epoch = s.epoch := rfl

@[simp] theorem State.replied_cfg : (s.replied).cfg = s.cfg := by unfold State.replied; split <;> simp_all [State.drawn]
@[simp] theorem State.replied_st : (s.replied).st = s.st := by unfold State.replied; split <;> simp_all [State.drawn]
@[simp] theorem State.replied_len : (s.replied).len = s.len := by unfold State.replied; split <;> simp_all [State.drawn]
@[simp] theorem State.replied_cnt : (s.replied).cnt = s.cnt := by unfold State.replied; split <;> simp_all [State.drawn]
@[simp] theorem State.replied_rxbuf : (s.replied).rxbuf = s.rxbuf := by unfold State.replied; split <;> simp_all [State.drawn]
@[simp] theorem State.replied_done : (s.replied).done = s.done := by unfold State.replied; split <;> simp_all [State.drawn]
@[simp] theorem State.replied_busy : (s.replied).busy = s.busy := by unfold State.replied; split <;> simp_all [State.drawn]
@[simp] theorem State.replied_rxie : (s.replied).rxie = s.rxie := by unfold State.replied; split <;> simp_all [State.drawn]
@[simp] theorem State.replied_mode : (s.replied).mode = s.mode := by unfold State.replied; split <;> simp_all [State.drawn]
@[simp] theorem State.replied_cv : (s.replied).cv = s.cv := by unfold State.replied; split <;> simp_all [State.drawn]
@[simp] theorem State.replied_ca : (s.replied).ca = s.ca := by unfold State.replied; split <;> simp_all [State.drawn]
@[simp] theorem State.replied_co : (s.replied).co = s.co := by unfold State.replied; split <;> simp_all [State.drawn]
@[simp] theorem State.replied_cx : (s.replied).cx = s.cx := by unfold State.replied; split <;> simp_all [State.drawn]
@[simp] theorem State.replied_fbuf : (s.replied).fbuf = s.fbuf := by unfold State.replied; split <;> simp_all [State.drawn]
@[simp] theorem State.replied_flen : (s.replied).flen = s.flen := by unfold State.replied; split <;> simp_all [State.drawn]
@[simp] theorem State.replied_en : (s.replied).en = s.en := by unfold State.replied; split <;> simp_all [State.drawn]
@[simp] theorem State.replied_pkBuf : (s.replied).pkBuf = s.pkBuf := by unfold State.replied; split <;> simp_all [State.drawn]
@[simp] theorem State.replied_pkIdx : (s.replied).pkIdx = s.pkIdx := by unfold State.replied; split <;> simp_all [State.drawn]
@[simp] theorem State.replied_pkFree : (s.replied).pkFree = s.pkFree := by unfold State.replied; split <;> simp_all [State.drawn]
@[simp] theorem State.replied_upSrc : (s.replied).upSrc = s.upSrc := by unfold State.replied; split <;> simp_all [State.drawn]
@[simp] theorem State.replied_upN : (s.replied).upN = s.upN := by unfold State.replied; split <;> simp_all [State.drawn]
@[simp] theorem State.replied_upIdx : (s.replied).upIdx = s.upIdx := by unfold State.replied; split <;> simp_all [State.drawn]
@[simp] theorem State.replied_upFree : (s.replied).upFree = s.upFree := by unfold State.replied; split <;> simp_all [State.drawn]
@[simp] theorem State.replied_txStream : (s.replied).txStream = s.txStream := by unfold State.replied; split <;> simp_all [State.drawn]
@[simp] theorem State.replied_txCk : (s.replied).txCk = s.txCk := by unfold State.replied; split <;> simp_all [State.drawn]
@[simp] theorem State.replied_calls : (s.replied).calls = s.calls := by unfold State.replied; split <;> simp_all [State.drawn]
@[simp] theorem State.replied_trap : (s.replied).trap = s.trap := by unfold State.replied; split <;> simp_all [State.drawn]
@[simp] theorem State.replied_pkReady : (s.replied).pkReady = s.pkReady := by unfold State.replied; split <;> simp_all [State.drawn]
@[simp] theorem State.replied_upReady : (s.replied).upReady = s.upReady := by unfold State.replied; split <;> simp_all [State.drawn]
@[simp] theorem State.replied_result : (s.replied).result = s.result := by unfold State.replied; split <;> simp_all [State.drawn]
@[simp] theorem State.replied_events : (s.replied).events = s.events := by unfold State.replied; split <;> simp_all [State.drawn]
@[simp] theorem State.replied_answers : (s.replied).answers = s.answers.tail := by unfold State.replied; split <;> simp_all [State.drawn]
@[simp] theorem State.replied_draws : (s.replied).draws = if s.answers = [] then s.draws + 1 else s.draws := by unfold State.replied; split <;> simp_all [State.drawn]
@[simp] theorem State.replied_epoch : (s.replied).epoch = s.epoch := by unfold State.replied; split <;> simp_all [State.drawn]

@[simp] theorem State.logCall_cfg (k : Call) : (s.logCall k).cfg = s.cfg := rfl
@[simp] theorem State.logCall_st (k : Call) : (s.logCall k).st = s.st := rfl
@[simp] theorem State.logCall_len (k : Call) : (s.logCall k).len = s.len := rfl
@[simp] theorem State.logCall_cnt (k : Call) : (s.logCall k).cnt = s.cnt := rfl
@[simp] theorem State.logCall_rxbuf (k : Call) : (s.logCall k).rxbuf = s.rxbuf := rfl
@[simp] theorem State.logCall_done (k : Call) : (s.logCall k).done = s.done := rfl
@[simp] theorem State.logCall_busy (k : Call) : (s.logCall k).busy = s.busy := rfl
@[simp] theorem State.logCall_rxie (k : Call) : (s.logCall k).rxie = s.rxie := rfl
@[simp] theorem State.logCall_mode (k : Call) : (s.logCall k).mode = s.mode := rfl
@[simp] theorem State.logCall_cv (k : Call) : (s.logCall k).cv = s.cv := rfl
@[simp] theorem State.logCall_ca (k : Call) : (s.logCall k).ca = s.ca := rfl
@[simp] theorem State.logCall_co (k : Call) : (s.logCall k).co = s.co := rfl
@[simp] theorem State.logCall_cx (k : Call) : (s.logCall k).cx = s.cx := rfl
@[simp] theorem State.logCall_fbuf (k : Call) : (s.logCall k).fbuf = s.fbuf := rfl
@[simp] theorem State.logCall_flen (k : Call) : (s.logCall k).flen = s.flen := rfl
@[simp] theorem State.logCall_en (k : Call) : (s.logCall k).en = s.en := rfl
@[simp] theorem State.logCall_pkBuf (k : Call) : (s.logCall k).pkBuf = s.pkBuf := rfl
@[simp] theorem State.logCall_pkIdx (k : Call) : (s.logCall k).pkIdx = s.pkIdx := rfl
@[simp] theorem State.logCall_pkFree (k : Call) : (s.logCall k).pkFree = s.pkFree := rfl
@[simp] theorem State.logCall_upSrc (k : Call) : (s.logCall k).upSrc = s.upSrc := rfl
@[simp] theorem State.logCall_upN (k : Call) : (s.logCall k).upN = s.upN := rfl
@[simp] theorem State.logCall_upIdx (k : Call) : (s.logCall k).upIdx = s.upIdx := rfl
@[simp] theorem State.logCall_upFree (k : Call) : (s.logCall k).upFree = s.upFree := rfl
@[simp] theorem State.logCall_txStream (k : Call) : (s.logCall k).txStream = s.txStream := rfl
@[simp] theorem State.logCall_txCk (k : Call) : (s.logCall k).txCk = s.txCk := rfl
@[simp] theorem State.logCall_calls (k : Call) : (s.logCall k).calls = s.calls ++ [k] := rfl
@[simp] theorem State.logCall_trap (k : Call) : (s.logCall k).trap = s.trap := rfl
@[simp] theorem State.logCall_pkReady (k : Call) : (s.logCall k).pkReady = s.pkReady := rfl
@[simp] theorem State.logCall_upReady (k : Call) : (s.logCall k).upReady = s.upReady := rfl
@[simp] theorem State.logCall_result (k : Call) : (s.logCall k).result = s.result := rfl
@[simp] theorem State.logCall_events (k : Call) : (s.logCall k).events = s.events := rfl
@[simp] theorem State.logCall_answers (k : Call) : (s.logCall k).answers = s.answers := rfl
@[simp] theorem State.logCall_draws (k : Call) : (s.logCall k).draws = s.draws := rfl
@[simp] theorem State.logCall_epoch (k : Call) : (s.logCall k).epoch = s.epoch := rfl

@[simp] theorem State.called_cfg (fn : CollabFn) (a : Byte) : (s.called fn a).cfg = s.cfg := by simp [State.called]
@[simp] theorem State.called_st (fn : CollabFn) (a : Byte) : (s.called fn a).st = s.st := by simp [State.called]
@[simp] theorem State.called_len (fn : CollabFn) (a : Byte) : (s.called fn a).len = s.len := by simp [State.called]
@[simp] theorem State.called_cnt (fn : CollabFn) (a : Byte) : (s.called fn a).cnt = s.cnt := by simp [State.called]
@[simp] theorem State.called_rxbuf (fn : CollabFn) (a : Byte) : (s.called fn a).rxbuf = s.rxbuf := by simp [State.called]
@[simp] theorem State.called_done (fn : CollabFn) (a : Byte) : (s.called fn a).done = s.done := by simp [State.called]
@[simp] theorem State.called_busy (fn : CollabFn) (a : Byte) : (s.called fn a).busy = s.busy := by simp [State.called]
@[simp] theorem State.called_rxie (fn : CollabFn) (a : Byte) : (s.called fn a).rxie = s.rxie := by simp [State.called]
@[simp] theorem State.called_mode (fn : CollabFn) (a : Byte) : (s.called fn a).mode = s.mode := by simp [State.called]
@[simp] theorem State.called_cv (fn : CollabFn) (a : Byte) : (s.called fn a).cv = s.cv := by simp [State.called]
@[simp] theorem State.called_ca (fn : CollabFn) (a : Byte) : (s.called fn a).ca = s.ca := by simp [State.called]
@[simp] theorem State.called_co (fn : CollabFn) (a : Byte) : (s.called fn a).co = s.co := by simp [State.called]
@[simp] theorem State.called_cx (fn : CollabFn) (a : Byte) : (s.called fn a).cx = s.cx := by simp [State.called]
@[simp] theorem State.called_fbuf (fn : CollabFn) (a : Byte) : (s.called fn a).fbuf = s.fbuf := by simp [State.called]
@[simp] theorem State.called_flen (fn : CollabFn) (a : Byte) : (s.called fn a).flen = s.flen := by simp [State.called]
@[simp] theorem State.called_en (fn : CollabFn) (a : Byte) : (s.called fn a).en = s.en := by simp [State.called]
@[simp] theorem State.called_pkBuf (fn : CollabFn) (a : Byte) : (s.called fn a).pkBuf = s.pkBuf := by simp [State.called]
@[simp] theorem State.called_pkIdx (fn : CollabFn) (a : Byte) : (s.called fn a).pkIdx = s.pkIdx := by simp [State.called]
@[simp] theorem State.called_pkFree (fn : CollabFn) (a : Byte) : (s.called fn a).pkFree = s.pkFree := by simp [State.called]
@[simp] theorem State.called_upSrc (fn : CollabFn) (a : Byte) : (s.called fn a).upSrc = s.upSrc := by simp [State.called]
@[simp] theorem State.called_upN (fn : CollabFn) (a : Byte) : (s.called fn a).upN = s.upN := by simp [State.called]
@[simp] theorem State.called_upIdx (fn : CollabFn) (a : Byte) : (s.called fn a).upIdx = s.upIdx := by simp [State.called]
@[simp] theorem State.called_upFree (fn : CollabFn) (a : Byte) : (s.called fn a).upFree = s.upFree := by simp [State.called]
@[simp] theorem State.called_txStream (fn : CollabFn) (a : Byte) : (s.called fn a).txStream = s.txStream := by simp [State.called]
@[simp] theorem State.called_txCk (fn : CollabFn) (a : Byte) : (s.called fn a).txCk = s.txCk := by simp [State.called]
@[simp] theorem State.called_calls (fn : CollabFn) (a : Byte) : (s.called fn a).calls = s.calls ++ [⟨fn, a, answerOf fn s.nextReply⟩] := by simp [State.called]
@[simp] theorem State.called_trap (fn : CollabFn) (a : Byte) : (s.called fn a).trap = s.trap := by simp [State.called]
@[simp] theorem State.called_pkReady (fn : CollabFn) (a : Byte) : (s.called fn a).pkReady = s.pkReady := by simp [State.called]
@[simp] theorem State.called_upReady (fn : CollabFn) (a : Byte) : (s.called fn a).upReady = s.upReady := by simp [State.called]
@[simp] theorem State.called_result (fn : CollabFn) (a : Byte) : (s.called fn a).result = s.result := by simp [State.called]
@[simp] theorem State.called_events (fn : CollabFn) (a : Byte) : (s.called fn a).events = s.events := by simp [State.called]
@[simp] theorem State.called_answers (fn : CollabFn) (a : Byte) : (s.called fn a).answers = s.answers.tail := by simp [State.called]
@[simp] theorem State.called_draws (fn : CollabFn) (a : Byte) : (s.called fn a).draws = if s.answers = [] then s.draws + 1 else s.draws := by simp [State.called]
@[simp] theorem State.called_epoch (fn : CollabFn) (a : Byte) : (s.called fn a).epoch = s.epoch := by simp [State.called]

@[simp] theorem State.drawEn_cfg (a : Byte) : (s.drawEn a).cfg = s.cfg := rfl
@[simp] theorem State.drawEn_st (a : Byte) : (s.drawEn a).st = s.st := rfl
@[simp] theorem State.drawEn_len (a : Byte) : (s.drawEn a).len = s.len := rfl
@[simp] theorem State.drawEn_cnt (a : Byte) : (s.drawEn a).cnt = s.cnt := rfl
@[simp] theorem State.drawEn_rxbuf (a : Byte) : (s.drawEn a).rxbuf = s.rxbuf := rfl
@[simp] theorem State.drawEn_done (a : Byte) : (s.drawEn a).done = s.done := rfl
@[simp] theorem State.drawEn_busy (a : Byte) : (s.drawEn a).busy = s.busy := rfl
@[simp] theorem State.drawEn_rxie (a : Byte) : (s.drawEn a).rxie = s.rxie := rfl
@[simp] theorem State.drawEn_mode (a : Byte) : (s.drawEn a).mode = s.mode := rfl
@[simp] theorem State.drawEn_cv (a : Byte) : (s.drawEn a).cv = s.cv := rfl
@[simp] theorem State.drawEn_ca (a : Byte) : (s.drawEn a).ca = s.ca := rfl
@[simp] theorem State.drawEn_co (a : Byte) : (s.drawEn a).co = s.co := rfl
@[simp] theorem State.drawEn_cx (a : Byte) : (s.drawEn a).cx = s.cx := rfl
@[simp] theorem State.drawEn_fbuf (a : Byte) : (s.drawEn a).fbuf = s.fbuf := rfl
@[simp] theorem State.drawEn_flen (a : Byte) : (s.drawEn a).flen = s.flen := rfl
@[simp] theorem State.drawEn_en (a : Byte) : (s.drawEn a).en = putBit s.en a.toNat (Config.freeBit s.draws) := rfl
@[simp] theorem State.drawEn_pkBuf (a : Byte) : (s.drawEn a).pkBuf = s.pkBuf := rfl
@[simp] theorem State.drawEn_pkIdx (a : Byte) : (s.drawEn a).pkIdx = s.pkIdx := rfl
@[simp] theorem State.drawEn_pkFree (a : Byte) : (s.drawEn a).pkFree = s.pkFree := rfl
@[simp] theorem State.drawEn_upSrc (a : Byte) : (s.drawEn a).upSrc = s.upSrc := rfl
@[simp] theorem State.drawEn_upN (a : Byte) : (s.drawEn a).upN = s.upN := rfl
@[simp] theorem State.drawEn_upIdx (a : Byte) : (s.drawEn a).upIdx = s.upIdx := rfl
@[simp] theorem State.drawEn_upFree (a : Byte) : (s.drawEn a).upFree = s.upFree := rfl
@[simp] theorem State.drawEn_txStream (a : Byte) : (s.drawEn a).txStream = s.txStream := rfl
@[simp] theorem State.drawEn_txCk (a : Byte) : (s.drawEn a).txCk = s.txCk := rfl
@[simp] theorem State.drawEn_calls (a : Byte) : (s.drawEn a).calls = s.calls := rfl
@[simp] theorem State.drawEn_trap (a : Byte) : (s.drawEn a).trap = s.trap := rfl
@[simp] theorem State.drawEn_pkReady (a : Byte) : (s.drawEn a).pkReady = s.pkReady := rfl
@[simp] theorem State.drawEn_upReady (a : Byte) : (s.drawEn a).upReady = s.upReady := rfl
@[simp] theorem State.drawEn_result (a : Byte) : (s.drawEn a).result = s.result := rfl
@[simp] theorem State.drawEn_events (a : Byte) : (s.drawEn a).events = s.events := rfl
@[simp] theorem State.drawEn_answers (a : Byte) : (s.drawEn a).answers = s.answers := rfl
@[simp] theorem State.drawEn_draws (a : Byte) : (s.drawEn a).draws = s.draws + 1 := rfl
@[simp] theorem State.drawEn_epoch (a : Byte) : (s.drawEn a).epoch = s.epoch := rfl

@[simp] theorem State.complete_cfg : (s.complete).cfg = s.cfg := rfl
@[simp] theorem State.complete_st : (s.complete).st = .waiting := rfl
@[simp] theorem State.complete_len : (s.complete).len = s.len := rfl
@[simp] theorem State.complete_cnt : (s.complete).cnt = s.cnt := rfl
@[simp] theorem State.complete_rxbuf : (s.complete).rxbuf = s.rxbuf := rfl
@[simp] theorem State.complete_done : (s.complete).done = true := rfl
@[simp] theorem State.complete_busy : (s.complete).busy = s.busy := rfl
@[simp] theorem State.complete_rxie : (s.complete).rxie = s.rxie := rfl
@[simp] theorem State.complete_mode : (s.complete).mode = s.mode := rfl
@[simp] theorem State.complete_cv : (s.complete).cv = s.cv := rfl
@[simp] theorem State.complete_ca : (s.complete).ca = s.ca := rfl
@[simp] theorem State.complete_co : (s.complete).co = s.co := rfl
@[simp] theorem State.complete_cx : (s.complete).cx = s.cx := rfl
@[simp] theorem State.complete_fbuf : (s.complete).fbuf = s.fbuf := rfl
@[simp] theorem State.complete_flen : (s.complete).flen = s.flen := rfl
@[simp] theorem State.complete_en : (s.complete).en = s.en := rfl
@[simp] theorem State.complete_pkBuf : (s.complete).pkBuf = s.pkBuf := rfl
@[simp] theorem State.complete_pkIdx : (s.complete).pkIdx = s.pkIdx := rfl
@[simp] theorem State.complete_pkFree : (s.complete).pkFree = s.pkFree := rfl
@[simp] theorem State.complete_upSrc : (s.complete).upSrc = s.upSrc := rfl
@[simp] theorem State.complete_upN : (s.complete).upN = s.upN := rfl
@[simp] theorem State.complete_upIdx : (s.complete).upIdx = s.upIdx := rfl
@[simp] theorem State.complete_upFree : (s.complete).upFree = s.upFree := rfl
@[simp] theorem State.complete_txStream : (s.complete).txStream = s.txStream := rfl
@[simp] theorem State.complete_txCk : (s.complete).txCk = s.txCk := rfl
@[simp] theorem State.complete_calls : (s.complete).calls = s.calls := rfl
@[simp] theorem State.complete_trap : (s.complete).trap = s.trap := rfl
@[simp] theorem State.complete_pkReady : (s.complete).pkReady = s.pkReady := rfl
@[simp] theorem State.complete_upReady : (s.complete).upReady = s.upReady := rfl
@[simp] theorem State.complete_result : (s.complete).result = s.result := rfl
@[simp] theorem State.complete_events : (s.complete).events = s.events := rfl
@[simp] theorem State.complete_answers : (s.complete).answers = s.answers := rfl
@[simp] theorem State.complete_draws : (s.complete).draws = s.draws := rfl
@[simp] theorem State.complete_epoch : (s.complete).epoch = s.epoch := rfl

@[simp] theorem State.idleFramer_cfg : (s.idleFramer).cfg = s.cfg := rfl
@[simp] theorem State.idleFramer_st : (s.idleFramer).st = .waiting := rfl
@[simp] theorem State.idleFramer_len : (s.idleFramer).len = s.len := rfl
@[simp] theorem State.idleFramer_cnt : (s.idleFramer).cnt = s.cnt := rfl
@[simp] theorem State.idleFramer_rxbuf : (s.idleFramer).rxbuf = s.rxbuf := rfl
@[simp] theorem State.idleFramer_done : (s.idleFramer).done = false := rfl
@[simp] theorem State.idleFramer_busy : (s.idleFramer).busy = s.busy := rfl
@[simp] theorem State.idleFramer_rxie : (s.idleFramer).rxie = s.rxie := rfl
@[simp] theorem State.idleFramer_mode : (s.idleFramer).mode = s.mode := rfl
@[simp] theorem State.idleFramer_cv : (s.idleFramer).cv = s.cv := rfl
@[simp] theorem State.idleFramer_ca : (s.idleFramer).ca = s.ca := rfl
@[simp] theorem State.idleFramer_co : (s.idleFramer).co = s.co := rfl
@[simp] theorem State.idleFramer_cx : (s.idleFramer).cx = s.cx := rfl
@[simp] theorem State.idleFramer_fbuf : (s.idleFramer).fbuf = s.fbuf := rfl
@[simp] theorem State.idleFramer_flen : (s.idleFramer).flen = s.flen := rfl
@[simp] theorem State.idleFramer_en : (s.idleFramer).en = s.en := rfl
@[simp] theorem State.idleFramer_pkBuf : (s.idleFramer).pkBuf = s.pkBuf := rfl
@[simp] theorem State.idleFramer_pkIdx : (s.idleFramer).pkIdx = s.pkIdx := rfl
@[simp] theorem State.idleFramer_pkFree : (s.idleFramer).pkFree = s.pkFree := rfl
@[simp] theorem State.idleFramer_upSrc : (s.idleFramer).upSrc = s.upSrc := rfl
@[simp] theorem State.idleFramer_upN : (s.idleFramer).upN = s.upN := rfl
@[simp] theorem State.idleFramer_upIdx : (s.idleFramer).upIdx = s.upIdx := rfl
@[simp] theorem State.idleFramer_upFree : (s.idleFramer).upFree = s.upFree := rfl
@[simp] theorem State.idleFramer_txStream : (s.idleFramer).txStream = s.txStream := rfl
@[simp] theorem State.idleFramer_txCk : (s.idleFramer).txCk = s.txCk := rfl
@[simp] theorem State.idleFramer_calls : (s.idleFramer).calls = s.calls := rfl
@[simp] theorem State.idleFramer_trap : (s.idleFramer).trap = s.trap := rfl
@[simp] theorem State.idleFramer_pkReady : (s.idleFramer).pkReady = s.pkReady := rfl
@[simp] theorem State.idleFramer_upReady : (s.idleFramer).upReady = s.upReady := rfl
@[simp] theorem State.idleFramer_result : (s.idleFramer).result = s.result := rfl
@[simp] theorem State.idleFramer_events : (s.idleFramer).events = s.events := rfl
@[simp] theorem State.idleFramer_answers : (s.idleFramer).answers = s.answers := rfl
@[simp] theorem State.idleFramer_draws : (s.idleFramer).draws = s.draws := rfl
@[simp] theorem State.idleFramer_epoch : (s.idleFramer).epoch = s.epoch := rfl

@[simp] theorem State.delivered_cfg : (s.delivered).cfg = s.cfg := rfl
@[simp] theorem State.delivered_st : (s.delivered).st = s.st := rfl
@[simp] theorem State.delivered_len : (s.delivered).len = s.len := rfl
@[simp] theorem State.delivered_cnt : (s.delivered).cnt = s.cnt := rfl
@[simp] theorem State.delivered_rxbuf : (s.delivered).rxbuf = s.rxbuf := rfl
@[simp] theorem State.delivered_done : (s.delivered).done = s.done := rfl
@[simp] theorem State.delivered_busy : (s.delivered).busy = s.busy := rfl
@[simp] theorem State.delivered_rxie : (s.delivered).rxie = s.rxie := rfl
@[simp] theorem State.delivered_mode : (s.delivered).mode = s.mode := rfl
@[simp] theorem State.delivered_cv : (s.delivered).cv = s.cv := rfl
@[simp] theorem State.delivered_ca : (s.delivered).ca = s.ca := rfl
@[simp] theorem State.delivered_co : (s.delivered).co = s.co := rfl
@[simp] theorem State.delivered_cx : (s.delivered).cx = s.cx := rfl
@[simp] theorem State.delivered_fbuf : (s.delivered).fbuf = s.fbuf := rfl
@[simp] theorem State.delivered_flen : (s.delivered).flen = s.flen := rfl
@[simp] theorem State.delivered_en : (s.delivered).en = s.en := rfl
@[simp] theorem State.delivered_pkBuf : (s.delivered).pkBuf = s.pkBuf := rfl
@[simp] theorem State.delivered_pkIdx : (s.delivered).pkIdx = s.pkIdx := rfl
@[simp] theorem State.delivered_pkFree : (s.delivered).pkFree = s.pkFree := rfl
@[simp] theorem State.delivered_upSrc : (s.delivered).upSrc = s.upSrc := rfl
@[simp] theorem State.delivered_upN : (s.delivered).upN = s.upN := rfl
@[simp] theorem State.delivered_upIdx : (s.delivered).upIdx = s.upIdx := rfl
@[simp] theorem State.delivered_upFree : (s.delivered).upFree = s.upFree := rfl
@[simp] theorem State.delivered_txStream : (s.delivered).txStream = s.txStream := rfl
@[simp] theorem State.delivered_txCk : (s.delivered).txCk = s.txCk := rfl
@[simp] theorem State.delivered_calls : (s.delivered).calls = s.calls := rfl
@[simp] theorem State.delivered_trap : (s.delivered).trap = s.trap := rfl
@[simp] theorem State.delivered_pkReady : (s.delivered).pkReady = s.pkReady := rfl
@[simp] theorem State.delivered_upReady : (s.delivered).upReady = s.upReady := rfl
@[simp] theorem State.delivered_result : (s.delivered).result = s.result := rfl
@[simp] theorem State.delivered_events : (s.delivered).events = s.events.tail := rfl
@[simp] theorem State.delivered_answers : (s.delivered).answers = s.answers := rfl
@[simp] theorem State.delivered_draws : (s.delivered).draws = s.draws := rfl
@[simp] theorem State.delivered_epoch : (s.delivered).epoch = s.epoch := rfl

@[simp] theorem State.discarded_cfg : (s.discarded).cfg = s.cfg := rfl
@[simp] theorem State.discarded_st : (s.discarded).st = .waiting := rfl
@[simp] theorem State.discarded_len : (s.discarded).len = s.len := rfl
@[simp] theorem State.discarded_cnt : (s.discarded).cnt = s.cnt := rfl
@[simp] theorem State.discarded_rxbuf : (s.discarded).rxbuf = s.rxbuf := rfl
@[simp] theorem State.discarded_done : (s.discarded).done = false := rfl
@[simp] theorem State.discarded_busy : (s.discarded).busy = false := rfl
@[simp] theorem State.discarded_rxie : (s.discarded).rxie = s.rxie := rfl
@[simp] theorem State.discarded_mode : (s.discarded).mode = s.mode := rfl
@[simp] theorem State.discarded_cv : (s.discarded).cv = false := rfl
@[simp] theorem State.discarded_ca : (s.discarded).ca = s.ca := rfl
@[simp] theorem State.discarded_co : (s.discarded).co = s.co := rfl
@[simp] theorem State.discarded_cx : (s.discarded).cx = s.cx := rfl
@[simp] theorem State.discarded_fbuf : (s.discarded).fbuf = s.fbuf := rfl
@[simp] theorem State.discarded_flen : (s.discarded).flen = s.flen := rfl
@[simp] theorem State.discarded_en : (s.discarded).en = s.en := rfl
@[simp] theorem State.discarded_pkBuf : (s.discarded).pkBuf = s.pkBuf := rfl
@[simp] theorem State.discarded_pkIdx : (s.discarded).pkIdx = s.pkIdx := rfl
@[simp] theorem State.discarded_pkFree : (s.discarded).pkFree = s.pkFree := rfl
@[simp] theorem State.discarded_upSrc : (s.discarded).upSrc = s.upSrc := rfl
@[simp] theorem State.discarded_upN : (s.discarded).upN = s.upN := rfl
@[simp] theorem State.discarded_upIdx : (s.discarded).upIdx = s.upIdx := rfl
@[simp] theorem State.discarded_upFree : (s.discarded).upFree = s.upFree := rfl
@[simp] theorem State.discarded_txStream : (s.discarded).txStream = s.txStream := rfl
@[simp] theorem State.discarded_txCk : (s.discarded).txCk = s.txCk := rfl
@[simp] theorem State.discarded_calls : (s.discarded).calls = s.calls := rfl
@[simp] theorem State.discarded_trap : (s.discarded).trap = s.trap := rfl
@[simp] theorem State.discarded_pkReady : (s.discarded).pkReady = s.pkReady := rfl
@[simp] theorem State.discarded_upReady : (s.discarded).upReady = s.upReady := rfl
@[simp] theorem State.discarded_result : (s.discarded).result = s.result := rfl
@[simp] theorem State.discarded_events : (s.discarded).events = s.events := rfl
@[simp] theorem State.discarded_answers : (s.discarded).answers = s.answers := rfl
@[simp] theorem State.discarded_draws : (s.discarded).draws = s.draws := rfl
@[simp] theorem State.discarded_epoch : (s.discarded).epoch = s.epoch := rfl

@[simp] theorem State.replyWord_cfg (w : Word) : (s.replyWord w).cfg = s.cfg := rfl
@[simp] theorem State.replyWord_st (w : Word) : (s.replyWord w).st = s.st := rfl
@[simp] theorem State.replyWord_len (w : Word) : (s.replyWord w).len = s.len := rfl
@[simp] theorem State.replyWord_cnt (w : Word) : (s.replyWord w).cnt = s.cnt := rfl
@[simp] theorem State.replyWord_rxbuf (w : Word) : (s.replyWord w).rxbuf = s.rxbuf := rfl
@[simp] theorem State.replyWord_done (w : Word) : (s.replyWord w).done = s.done := rfl
@[simp] theorem State.replyWord_busy (w : Word) : (s.replyWord w).busy = s.busy := rfl
@[simp] theorem State.replyWord_rxie (w : Word) : (s.replyWord w).rxie = s.rxie := rfl
@[simp] theorem State.replyWord_mode (w : Word) : (s.replyWord w).mode = s.mode := rfl
@[simp] theorem State.replyWord_cv (w : Word) : (s.replyWord w).cv = s.cv := rfl
@[simp] theorem State.replyWord_ca (w : Word) : (s.replyWord w).ca = s.ca := rfl
@[simp] theorem State.replyWord_co (w : Word) : (s.replyWord w).co = s.co := rfl
@[simp] theorem State.replyWord_cx (w : Word) : (s.replyWord w).cx = s.cx := rfl
@[simp] theorem State.replyWord_fbuf (w : Word) : (s.replyWord w).fbuf = s.fbuf := rfl
@[simp] theorem State.replyWord_flen (w : Word) : (s.replyWord w).flen = s.flen := rfl
@[simp] theorem State.replyWord_en (w : Word) : (s.replyWord w).en = s.en := rfl
@[simp] theorem State.replyWord_pkBuf (w : Word) : (s.replyWord w).pkBuf = s.pkBuf := rfl
@[simp] theorem State.replyWord_pkIdx (w : Word) : (s.replyWord w).pkIdx = s.pkIdx := rfl
@[simp] theorem State.replyWord_pkFree (w : Word) : (s.replyWord w).pkFree = s.pkFree := rfl
@[simp] theorem State.replyWord_upSrc (w : Word) : (s.replyWord w).upSrc = s.upSrc := rfl
@[simp] theorem State.replyWord_upN (w : Word) : (s.replyWord w).upN = s.upN := rfl
@[simp] theorem State.replyWord_upIdx (w : Word) : (s.replyWord w).upIdx = s.upIdx := rfl
@[simp] theorem State.replyWord_upFree (w : Word) : (s.replyWord w).upFree = s.upFree := rfl
@[simp] theorem State.replyWord_txStream (w : Word) : (s.replyWord w).txStream = s.txStream ++ wordBytes w s.cfg.replyOrder := rfl
@[simp] theorem State.replyWord_txCk (w : Word) : (s.replyWord w).txCk = s.txCk := rfl
@[simp] theorem State.replyWord_calls (w : Word) : (s.replyWord w).calls = s.calls := rfl
@[simp] theorem State.replyWord_trap (w : Word) : (s.replyWord w).trap = s.trap := rfl
@[simp] theorem State.replyWord_pkReady (w : Word) : (s.replyWord w).pkReady = s.pkReady := rfl
@[simp] theorem State.replyWord_upReady (w : Word) : (s.replyWord w).upReady = s.upReady := rfl
@[simp] theorem State.replyWord_result (w : Word) : (s.replyWord w).result = s.result := rfl
@[simp] theorem State.replyWord_events (w : Word) : (s.replyWord w).events = s.events := rfl
@[simp] theorem State.replyWord_answers (w : Word) : (s.replyWord w).answers = s.answers := rfl
@[simp] theorem State.replyWord_draws (w : Word) : (s.replyWord w).draws = s.draws := rfl
@[simp] theorem State.replyWord_epoch (w : Word) : (s.replyWord w).epoch = s.epoch := rfl

@[simp] theorem State.replyFrame_cfg (q : Half) (status : Byte) (p : List Byte) :
    (s.replyFrame q status p).cfg = s.cfg := rfl
@[simp] theorem State.replyFrame_st (q : Half) (status : Byte) (p : List Byte) :
    (s.replyFrame q status p).st = s.st := rfl
@[simp] theorem State.replyFrame_len (q : Half) (status : Byte) (p : List Byte) :
    (s.replyFrame q status p).len = s.len := rfl
@[simp] theorem State.replyFrame_cnt (q : Half) (status : Byte) (p : List Byte) :
    (s.replyFrame q status p).cnt = s.cnt := rfl
@[simp] theorem State.replyFrame_rxbuf (q : Half) (status : Byte) (p : List Byte) :
    (s.replyFrame q status p).rxbuf = s.rxbuf := rfl
@[simp] theorem State.replyFrame_done (q : Half) (status : Byte) (p : List Byte) :
    (s.replyFrame q status p).done = s.done := rfl
@[simp] theorem State.replyFrame_busy (q : Half) (status : Byte) (p : List Byte) :
    (s.replyFrame q status p).busy = s.busy := rfl
@[simp] theorem State.replyFrame_rxie (q : Half) (status : Byte) (p : List Byte) :
    (s.replyFrame q status p).rxie = s.rxie := rfl
@[simp] theorem State.replyFrame_mode (q : Half) (status : Byte) (p : List Byte) :
    (s.replyFrame q status p).mode = s.mode := rfl
@[simp] theorem State.replyFrame_cv (q : Half) (status : Byte) (p : List Byte) :
    (s.replyFrame q status p).cv = s.cv := rfl
@[simp] theorem State.replyFrame_ca (q : Half) (status : Byte) (p : List Byte) :
    (s.replyFrame q status p).ca = s.ca := rfl
@[simp] theorem State.replyFrame_co (q : Half) (status : Byte) (p : List Byte) :
    (s.replyFrame q status p).co = s.co := rfl
@[simp] theorem State.replyFrame_cx (q : Half) (status : Byte) (p : List Byte) :
    (s.replyFrame q status p).cx = s.cx := rfl
@[simp] theorem State.replyFrame_fbuf (q : Half) (status : Byte) (p : List Byte) :
    (s.replyFrame q status p).fbuf = s.fbuf := rfl
@[simp] theorem State.replyFrame_flen (q : Half) (status : Byte) (p : List Byte) :
    (s.replyFrame q status p).flen = s.flen := rfl
@[simp] theorem State.replyFrame_en (q : Half) (status : Byte) (p : List Byte) :
    (s.replyFrame q status p).en = s.en := rfl
@[simp] theorem State.replyFrame_pkBuf (q : Half) (status : Byte) (p : List Byte) :
    (s.replyFrame q status p).pkBuf = s.pkBuf := rfl
@[simp] theorem State.replyFrame_pkIdx (q : Half) (status : Byte) (p : List Byte) :
    (s.replyFrame q status p).pkIdx = s.pkIdx := rfl
@[simp] theorem State.replyFrame_pkFree (q : Half) (status : Byte) (p : List Byte) :
    (s.replyFrame q status p).pkFree = s.pkFree := rfl
@[simp] theorem State.replyFrame_upSrc (q : Half) (status : Byte) (p : List Byte) :
    (s.replyFrame q status p).upSrc = s.upSrc := rfl
@[simp] theorem State.replyFrame_upN (q : Half) (status : Byte) (p : List Byte) :
    (s.replyFrame q status p).upN = s.upN := rfl
@[simp] theorem State.replyFrame_upIdx (q : Half) (status : Byte) (p : List Byte) :
    (s.replyFrame q status p).upIdx = s.upIdx := rfl
@[simp] theorem State.replyFrame_upFree (q : Half) (status : Byte) (p : List Byte) :
    (s.replyFrame q status p).upFree = s.upFree := rfl
@[simp] theorem State.replyFrame_txStream (q : Half) (status : Byte) (p : List Byte) :
    (s.replyFrame q status p).txStream = s.txStream := rfl
@[simp] theorem State.replyFrame_txCk (q : Half) (status : Byte) (p : List Byte) :
    (s.replyFrame q status p).txCk = s.txCk ++ encodeReply s.cfg q status p := rfl
@[simp] theorem State.replyFrame_calls (q : Half) (status : Byte) (p : List Byte) :
    (s.replyFrame q status p).calls = s.calls := rfl
@[simp] theorem State.replyFrame_trap (q : Half) (status : Byte) (p : List Byte) :
    (s.replyFrame q status p).trap = s.trap := rfl
@[simp] theorem State.replyFrame_pkReady (q : Half) (status : Byte) (p : List Byte) :
    (s.replyFrame q status p).pkReady = s.pkReady := rfl
@[simp] theorem State.replyFrame_upReady (q : Half) (status : Byte) (p : List Byte) :
    (s.replyFrame q status p).upReady = s.upReady := rfl
@[simp] theorem State.replyFrame_result (q : Half) (status : Byte) (p : List Byte) :
    (s.replyFrame q status p).result = s.result := rfl
@[simp] theorem State.replyFrame_events (q : Half) (status : Byte) (p : List Byte) :
    (s.replyFrame q status p).events = s.events := rfl
@[simp] theorem State.replyFrame_answers (q : Half) (status : Byte) (p : List Byte) :
    (s.replyFrame q status p).answers = s.answers := rfl
@[simp] theorem State.replyFrame_draws (q : Half) (status : Byte) (p : List Byte) :
    (s.replyFrame q status p).draws = s.draws := rfl
@[simp] theorem State.replyFrame_epoch (q : Half) (status : Byte) (p : List Byte) :
    (s.replyFrame q status p).epoch = s.epoch := rfl

@[simp] theorem State.served_cfg (w : Word) : (s.served w).cfg = s.cfg := rfl
@[simp] theorem State.served_st (w : Word) : (s.served w).st = s.st := rfl
@[simp] theorem State.served_len (w : Word) : (s.served w).len = s.len := rfl
@[simp] theorem State.served_cnt (w : Word) : (s.served w).cnt = s.cnt := rfl
@[simp] theorem State.served_rxbuf (w : Word) : (s.served w).rxbuf = s.rxbuf := rfl
@[simp] theorem State.served_done (w : Word) : (s.served w).done = s.done := rfl
@[simp] theorem State.served_busy (w : Word) : (s.served w).busy = (s.busy && !s.cfg.flowControl) := rfl
@[simp] theorem State.served_rxie (w : Word) : (s.served w).rxie = s.rxie := rfl
@[simp] theorem State.served_mode (w : Word) : (s.served w).mode = s.mode := rfl
@[simp] theorem State.served_cv (w : Word) : (s.served w).cv = false := rfl
@[simp] theorem State.served_ca (w : Word) : (s.served w).ca = s.ca := rfl
@[simp] theorem State.served_co (w : Word) : (s.served w).co = s.co := rfl
@[simp] theorem State.served_cx (w : Word) : (s.served w).cx = s.cx := rfl
@[simp] theorem State.served_fbuf (w : Word) : (s.served w).fbuf = s.fbuf := rfl
@[simp] theorem State.served_flen (w : Word) : (s.served w).flen = s.flen := rfl
@[simp] theorem State.served_en (w : Word) : (s.served w).en = s.en := rfl
@[simp] theorem State.served_pkBuf (w : Word) : (s.served w).pkBuf = s.pkBuf := rfl
@[simp] theorem State.served_pkIdx (w : Word) : (s.served w).pkIdx = s.pkIdx := rfl
@[simp] theorem State.served_pkFree (w : Word) : (s.served w).pkFree = s.pkFree := rfl
@[simp] theorem State.served_upSrc (w : Word) : (s.served w).upSrc = s.upSrc := rfl
@[simp] theorem State.served_upN (w : Word) : (s.served w).upN = s.upN := rfl
@[simp] theorem State.served_upIdx (w : Word) : (s.served w).upIdx = s.upIdx := rfl
@[simp] theorem State.served_upFree (w : Word) : (s.served w).upFree = s.upFree := rfl
@[simp] theorem State.served_txStream (w : Word) : (s.served w).txStream = s.txStream ++ wordBytes w s.cfg.replyOrder := rfl
@[simp] theorem State.served_txCk (w : Word) : (s.served w).txCk = s.txCk := rfl
@[simp] theorem State.served_calls (w : Word) : (s.served w).calls = s.calls := rfl
@[simp] theorem State.served_trap (w : Word) : (s.served w).trap = s.trap := rfl
@[simp] theorem State.served_pkReady (w : Word) : (s.served w).pkReady = s.pkReady := rfl
@[simp] theorem State.served_upReady (w : Word) : (s.served w).upReady = s.upReady := rfl
@[simp] theorem State.served_result (w : Word) : (s.served w).result = s.result := rfl
@[simp] theorem State.served_events (w : Word) : (s.served w).events = s.events := rfl
@[simp] theorem State.served_answers (w : Word) : (s.served w).answers = s.answers := rfl
@[simp] theorem State.served_draws (w : Word) : (s.served w).draws = s.draws := rfl
@[simp] theorem State.served_epoch (w : Word) : (s.served w).epoch = s.epoch := rfl

@[simp] theorem State.loadFrame_cfg (f : List Byte) : (s.loadFrame f).cfg = s.cfg := rfl
@[simp] theorem State.loadFrame_st (f : List Byte) : (s.loadFrame f).st = s.st := rfl
@[simp] theorem State.loadFrame_len (f : List Byte) : (s.loadFrame f).len = s.len := rfl
@[simp] theorem State.loadFrame_cnt (f : List Byte) : (s.loadFrame f).cnt = s.cnt := rfl
@[simp] theorem State.loadFrame_rxbuf (f : List Byte) : (s.loadFrame f).rxbuf = s.rxbuf := rfl
@[simp] theorem State.loadFrame_done (f : List Byte) : (s.loadFrame f).done = s.done := rfl
@[simp] theorem State.loadFrame_busy (f : List Byte) : (s.loadFrame f).busy = s.busy := rfl
@[simp] theorem State.loadFrame_rxie (f : List Byte) : (s.loadFrame f).rxie = s.rxie := rfl
@[simp] theorem State.loadFrame_mode (f : List Byte) : (s.loadFrame f).mode = s.mode := rfl
@[simp] theorem State.loadFrame_cv (f : List Byte) : (s.loadFrame f).cv = s.cv := rfl
@[simp] theorem State.loadFrame_ca (f : List Byte) : (s.loadFrame f).ca = s.ca := rfl
@[simp] theorem State.loadFrame_co (f : List Byte) : (s.loadFrame f).co = s.co := rfl
@[simp] theorem State.loadFrame_cx (f : List Byte) : (s.loadFrame f).cx = s.cx := rfl
@[simp] theorem State.loadFrame_fbuf (f : List Byte) : (s.loadFrame f).fbuf = Memory.writeAll s.fbuf 0 f := rfl
@[simp] theorem State.loadFrame_flen (f : List Byte) : (s.loadFrame f).flen = f.length := rfl
@[simp] theorem State.loadFrame_en (f : List Byte) : (s.loadFrame f).en = s.en := rfl
@[simp] theorem State.loadFrame_pkBuf (f : List Byte) : (s.loadFrame f).pkBuf = s.pkBuf := rfl
@[simp] theorem State.loadFrame_pkIdx (f : List Byte) : (s.loadFrame f).pkIdx = s.pkIdx := rfl
@[simp] theorem State.loadFrame_pkFree (f : List Byte) : (s.loadFrame f).pkFree = s.pkFree := rfl
@[simp] theorem State.loadFrame_upSrc (f : List Byte) : (s.loadFrame f).upSrc = s.upSrc := rfl
@[simp] theorem State.loadFrame_upN (f : List Byte) : (s.loadFrame f).upN = s.upN := rfl
@[simp] theorem State.loadFrame_upIdx (f : List Byte) : (s.loadFrame f).upIdx = s.upIdx := rfl
@[simp] theorem State.loadFrame_upFree (f : List Byte) : (s.loadFrame f).upFree = s.upFree := rfl
@[simp] theorem State.loadFrame_txStream (f : List Byte) : (s.loadFrame f).txStream = s.txStream := rfl
@[simp] theorem State.loadFrame_txCk (f : List Byte) : (s.loadFrame f).txCk = s.txCk := rfl
@[simp] theorem State.loadFrame_calls (f : List Byte) : (s.loadFrame f).calls = s.calls := rfl
@[simp] theorem State.loadFrame_trap (f : List Byte) : (s.loadFrame f).trap = s.trap := rfl
@[simp] theorem State.loadFrame_pkReady (f : List Byte) : (s.loadFrame f).pkReady = s.pkReady := rfl
@[simp] theorem State.loadFrame_upReady (f : List Byte) : (s.loadFrame f).upReady = s.upReady := rfl
@[simp] theorem State.loadFrame_result (f : List Byte) : (s.loadFrame f).result = s.result := rfl
@[simp] theorem State.loadFrame_events (f : List Byte) : (s.loadFrame f).events = s.events := rfl
@[simp] theorem State.loadFrame_answers (f : List Byte) : (s.loadFrame f).answers = s.answers := rfl
@[simp] theorem State.loadFrame_draws (f : List Byte) : (s.loadFrame f).draws = s.draws := rfl
@[simp] theorem State.loadFrame_epoch (f : List Byte) : (s.loadFrame f).epoch = s.epoch := rfl

@[simp] theorem State.packChunk_cfg (v : Word) (width rem : Nat) : (s.packChunk v width rem).cfg = s.cfg := rfl
@[simp] theorem State.packChunk_st (v : Word) (width rem : Nat) : (s.packChunk v width rem).st = s.st := rfl
@[simp] theorem State.packChunk_len (v : Word) (width rem : Nat) : (s.packChunk v width rem).len = s.len := rfl
@[simp] theorem State.packChunk_cnt (v : Word) (width rem : Nat) : (s.packChunk v width rem).cnt = s.cnt := rfl
@[simp] theorem State.packChunk_rxbuf (v : Word) (width rem : Nat) : (s.packChunk v width rem).rxbuf = s.rxbuf := rfl
@[simp] theorem State.packChunk_done (v : Word) (width rem : Nat) : (s.packChunk v width rem).done = s.done := rfl
@[simp] theorem State.packChunk_busy (v : Word) (width rem : Nat) : (s.packChunk v width rem).busy = s.busy := rfl
@[simp] theorem State.packChunk_rxie (v : Word) (width rem : Nat) : (s.packChunk v width rem).rxie = s.rxie := rfl
@[simp] theorem State.packChunk_mode (v : Word) (width rem : Nat) : (s.packChunk v width rem).mode = s.mode := rfl
@[simp] theorem State.packChunk_cv (v : Word) (width rem : Nat) : (s.packChunk v width rem).cv = s.cv := rfl
@[simp] theorem State.packChunk_ca (v : Word) (width rem : Nat) : (s.packChunk v width rem).ca = s.ca := rfl
@[simp] theorem State.packChunk_co (v : Word) (width rem : Nat) : (s.packChunk v width rem).co = s.co := rfl
@[simp] theorem State.packChunk_cx (v : Word) (width rem : Nat) : (s.packChunk v width rem).cx = s.cx := rfl
@[simp] theorem State.packChunk_fbuf (v : Word) (width rem : Nat) : (s.packChunk v width rem).fbuf = s.fbuf := rfl
@[simp] theorem State.packChunk_flen (v : Word) (width rem : Nat) : (s.packChunk v width rem).flen = s.flen := rfl
@[simp] theorem State.packChunk_en (v : Word) (width rem : Nat) : (s.packChunk v width rem).en = s.en := rfl
@[simp] theorem State.packChunk_pkIdx (v : Word) (width rem : Nat) : (s.packChunk v width rem).pkIdx = s.pkIdx := rfl
@[simp] theorem State.packChunk_pkFree (v : Word) (width rem : Nat) : (s.packChunk v width rem).pkFree = s.pkFree := rfl
@[simp] theorem State.packChunk_upSrc (v : Word) (width rem : Nat) : (s.packChunk v width rem).upSrc = s.upSrc := rfl
@[simp] theorem State.packChunk_upN (v : Word) (width rem : Nat) : (s.packChunk v width rem).upN = s.upN := rfl
@[simp] theorem State.packChunk_upIdx (v : Word) (width rem : Nat) : (s.packChunk v width rem).upIdx = s.upIdx := rfl
@[simp] theorem State.packChunk_upFree (v : Word) (width rem : Nat) : (s.packChunk v width rem).upFree = s.upFree := rfl
@[simp] theorem State.packChunk_txStream (v : Word) (width rem : Nat) : (s.packChunk v width rem).txStream = s.txStream := rfl
@[simp] theorem State.packChunk_txCk (v : Word) (width rem : Nat) : (s.packChunk v width rem).txCk = s.txCk := rfl
@[simp] theorem State.packChunk_calls (v : Word) (width rem : Nat) : (s.packChunk v width rem).calls = s.calls := rfl
@[simp] theorem State.packChunk_trap (v : Word) (width rem : Nat) : (s.packChunk v width rem).trap = s.trap := rfl
@[simp] theorem State.packChunk_pkReady (v : Word) (width rem : Nat) : (s.packChunk v width rem).pkReady = s.pkReady := rfl
@[simp] theorem State.packChunk_upReady (v : Word) (width rem : Nat) : (s.packChunk v width rem).upReady = s.upReady := rfl
@[simp] theorem State.packChunk_result (v : Word) (width rem : Nat) : (s.packChunk v width rem).result = s.result := rfl
@[simp] theorem State.packChunk_events (v : Word) (width rem : Nat) : (s.packChunk v width rem).events = s.events := rfl
@[simp] theorem State.packChunk_answers (v : Word) (width rem : Nat) : (s.packChunk v width rem).answers = s.answers := rfl
@[simp] theorem State.packChunk_draws (v : Word) (width rem : Nat) : (s.packChunk v width rem).draws = s.draws := rfl
@[simp] theorem State.packChunk_epoch (v : Word) (width rem : Nat) : (s.packChunk v width rem).epoch = s.epoch := rfl

@[simp] theorem State.unpackStarted_cfg (src : UpSource) : (s.unpackStarted src).cfg = s.cfg := rfl
@[simp] theorem State.unpackStarted_st (src : UpSource) : (s.unpackStarted src).st = s.st := rfl
@[simp] theorem State.unpackStarted_len (src : UpSource) : (s.unpackStarted src).len = s.len := rfl
@[simp] theorem State.unpackStarted_cnt (src : UpSource) : (s.unpackStarted src).cnt = s.cnt := rfl
@[simp] theorem State.unpackStarted_rxbuf (src : UpSource) : (s.unpackStarted src).rxbuf = s.rxbuf := rfl
@[simp] theorem State.unpackStarted_done (src : UpSource) : (s.unpackStarted src).done = s.done := rfl
@[simp] theorem State.unpackStarted_busy (src : UpSource) : (s.unpackStarted src).busy = s.busy := rfl
@[simp] theorem State.unpackStarted_rxie (src : UpSource) : (s.unpackStarted src).rxie = s.rxie := rfl
@[simp] theorem State.unpackStarted_mode (src : UpSource) : (s.unpackStarted src).mode = s.mode := rfl
@[simp] theorem State.unpackStarted_cv (src : UpSource) : (s.unpackStarted src).cv = s.cv := rfl
@[simp] theorem State.unpackStarted_ca (src : UpSource) : (s.unpackStarted src).ca = s.ca := rfl
@[simp] theorem State.unpackStarted_co (src : UpSource) : (s.unpackStarted src).co = s.co := rfl
@[simp] theorem State.unpackStarted_cx (src : UpSource) : (s.unpackStarted src).cx = s.cx := rfl
@[simp] theorem State.unpackStarted_fbuf (src : UpSource) : (s.unpackStarted src).fbuf = s.fbuf := rfl
@[simp] theorem State.unpackStarted_flen (src : UpSource) : (s.unpackStarted src).flen = s.flen := rfl
@[simp] theorem State.unpackStarted_en (src : UpSource) : (s.unpackStarted src).en = s.en := rfl
@[simp] theorem State.unpackStarted_pkBuf (src : UpSource) : (s.unpackStarted src).pkBuf = s.pkBuf := rfl
@[simp] theorem State.unpackStarted_pkIdx (src : UpSource) : (s.unpackStarted src).pkIdx = s.pkIdx := rfl
@[simp] theorem State.unpackStarted_pkFree (src : UpSource) : (s.unpackStarted src).pkFree = s.pkFree := rfl
@[simp] theorem State.unpackStarted_upSrc (src : UpSource) : (s.unpackStarted src).upSrc = src := rfl
@[simp] theorem State.unpackStarted_upN (src : UpSource) : (s.unpackStarted src).upN = src.length := rfl
@[simp] theorem State.unpackStarted_upIdx (src : UpSource) : (s.unpackStarted src).upIdx = 0 := rfl
@[simp] theorem State.unpackStarted_upFree (src : UpSource) : (s.unpackStarted src).upFree = 8 := rfl
@[simp] theorem State.unpackStarted_txStream (src : UpSource) : (s.unpackStarted src).txStream = s.txStream := rfl
@[simp] theorem State.unpackStarted_txCk (src : UpSource) : (s.unpackStarted src).txCk = s.txCk := rfl
@[simp] theorem State.unpackStarted_calls (src : UpSource) : (s.unpackStarted src).calls = s.calls := rfl
@[simp] theorem State.unpackStarted_trap (src : UpSource) : (s.unpackStarted src).trap = s.trap := rfl
@[simp] theorem State.unpackStarted_pkReady (src : UpSource) : (s.unpackStarted src).pkReady = s.pkReady := rfl
@[simp] theorem State.unpackStarted_upReady (src : UpSource) : (s.unpackStarted src).upReady = true := rfl
@[simp] theorem State.unpackStarted_result (src : UpSource) : (s.unpackStarted src).result = s.result := rfl
@[simp] theorem State.unpackStarted_events (src : UpSource) : (s.unpackStarted src).events = s.events := rfl
@[simp] theorem State.unpackStarted_answers (src : UpSource) : (s.unpackStarted src).answers = s.answers := rfl
@[simp] theorem State.unpackStarted_draws (src : UpSource) : (s.unpackStarted src).draws = s.draws := rfl
@[simp] theorem State.unpackStarted_epoch (src : UpSource) : (s.unpackStarted src).epoch = s.epoch := rfl

@[simp] theorem State.packAdvanced_cfg : (s.packAdvanced).cfg = s.cfg := rfl
@[simp] theorem State.packAdvanced_st : (s.packAdvanced).st = s.st := rfl
@[simp] theorem State.packAdvanced_len : (s.packAdvanced).len = s.len := rfl
@[simp] theorem State.packAdvanced_cnt : (s.packAdvanced).cnt = s.cnt := rfl
@[simp] theorem State.packAdvanced_rxbuf : (s.packAdvanced).rxbuf = s.rxbuf := rfl
@[simp] theorem State.packAdvanced_done : (s.packAdvanced).done = s.done := rfl
@[simp] theorem State.packAdvanced_busy : (s.packAdvanced).busy = s.busy := rfl
@[simp] theorem State.packAdvanced_rxie : (s.packAdvanced).rxie = s.rxie := rfl
@[simp] theorem State.packAdvanced_mode : (s.packAdvanced).mode = s.mode := rfl
@[simp] theorem State.packAdvanced_cv : (s.packAdvanced).cv = s.cv := rfl
@[simp] theorem State.packAdvanced_ca : (s.packAdvanced).ca = s.ca := rfl
@[simp] theorem State.packAdvanced_co : (s.packAdvanced).co = s.co := rfl
@[simp] theorem State.packAdvanced_cx : (s.packAdvanced).cx = s.cx := rfl
@[simp] theorem State.packAdvanced_fbuf : (s.packAdvanced).fbuf = s.fbuf := rfl
@[simp] theorem State.packAdvanced_flen : (s.packAdvanced).flen = s.flen := rfl
@[simp] theorem State.packAdvanced_en : (s.packAdvanced).en = s.en := rfl
@[simp] theorem State.packAdvanced_pkBuf : (s.packAdvanced).pkBuf = Memory.write s.pkBuf (s.pkIdx + 1) 0 := rfl
@[simp] theorem State.packAdvanced_pkIdx : (s.packAdvanced).pkIdx = s.pkIdx + 1 := rfl
@[simp] theorem State.packAdvanced_pkFree : (s.packAdvanced).pkFree = 8 := rfl
@[simp] theorem State.packAdvanced_upSrc : (s.packAdvanced).upSrc = s.upSrc := rfl
@[simp] theorem State.packAdvanced_upN : (s.packAdvanced).upN = s.upN := rfl
@[simp] theorem State.packAdvanced_upIdx : (s.packAdvanced).upIdx = s.upIdx := rfl
@[simp] theorem State.packAdvanced_upFree : (s.packAdvanced).upFree = s.upFree := rfl
@[simp] theorem State.packAdvanced_txStream : (s.packAdvanced).txStream = s.txStream := rfl
@[simp] theorem State.packAdvanced_txCk : (s.packAdvanced).txCk = s.txCk := rfl
@[simp] theorem State.packAdvanced_calls : (s.packAdvanced).calls = s.calls := rfl
@[simp] theorem State.packAdvanced_trap : (s.packAdvanced).trap = s.trap := rfl
@[simp] theorem State.packAdvanced_pkReady : (s.packAdvanced).pkReady = s.pkReady := rfl
@[simp] theorem State.packAdvanced_upReady : (s.packAdvanced).upReady = s.upReady := rfl
@[simp] theorem State.packAdvanced_result : (s.packAdvanced).result = s.result := rfl
@[simp] theorem State.packAdvanced_events : (s.packAdvanced).events = s.events := rfl
@[simp] theorem State.packAdvanced_answers : (s.packAdvanced).answers = s.answers := rfl
@[simp] theorem State.packAdvanced_draws : (s.packAdvanced).draws = s.draws := rfl
@[simp] theorem State.packAdvanced_epoch : (s.packAdvanced).epoch = s.epoch := rfl

end Sys2Proof.Machine
end

