-- ==== Sys2Proof/Laws/Ops.lean ====
section
/-! SUPPORT. What the shared operations do: buffers, fault states, selection, events. -/

namespace Sys2Proof.Machine

/-! Buffers -/

@[simp] theorem Memory.read_nil (i : Nat) : Memory.read [] i = none := rfl

/-- A read after a write: the byte written at its index, the old byte anywhere else. -/
@[simp] theorem Memory.read_write (m : Memory) (i j : Nat) (v : Byte) :
    Memory.read (Memory.write m i v) j = if j = i then some v else Memory.read m j := by
  induction m with
  | nil => simp [Memory.write, Memory.read, eq_comm]
  | cons p m ih =>
    obtain ⟨k, b⟩ := p
    simp only [Memory.write]
    split
    · simp [Memory.read, eq_comm]
    · split <;> simp only [Memory.read] <;> (try rw [ih]) <;> grind

/-- What a run of writes from `n` on leaves at each index (R161). -/
theorem Memory.read_writeAll (bs : List Byte) (m : Memory) (n j : Nat) :
    Memory.read (Memory.writeAll m n bs) j =
      if n ≤ j ∧ j < n + bs.length then bs[j - n]? else Memory.read m j := by
  induction bs generalizing m n with
  | nil => simp only [Memory.writeAll, List.length_nil]; split <;> first | omega | rfl
  | cons b bs ih =>
    simp only [Memory.writeAll, ih, Memory.read_write, List.length_cons]
    by_cases hj : j = n
    · subst hj; simp
    · by_cases h : n + 1 ≤ j ∧ j < n + 1 + bs.length
      · have h' : n ≤ j ∧ j < n + (bs.length + 1) := by omega
        have e : j - n = (j - (n + 1)) + 1 := by omega
        rw [if_pos h, if_pos h', e, List.getElem?_cons_succ]
      · have h' : ¬(n ≤ j ∧ j < n + (bs.length + 1)) := by omega
        rw [if_neg h, if_neg h', if_neg hj]

theorem Memory.mem_write {m : Memory} {i : Nat} {v : Byte} {p : Host.Cell}
    (h : p ∈ Memory.write m i v) : p = (i, v) ∨ p ∈ m := by
  induction m with
  | nil => simpa [Memory.write] using h
  | cons q m ih =>
    obtain ⟨k, b⟩ := q
    simp only [Memory.write] at h
    split at h
    · simpa using h
    · split at h
      · simp only [List.mem_cons] at h ⊢; tauto
      · simp only [List.mem_cons] at h ⊢
        rcases h with h | h
        · tauto
        · rcases ih h with h | h <;> tauto

/-- A write keeps the canonical form. -/
theorem Memory.write_wf {m : Memory} (h : m.wf) (i : Nat) (v : Byte) : (Memory.write m i v).wf := by
  induction m with
  | nil => simp [Memory.write, Memory.wf]
  | cons p m ih =>
    obtain ⟨k, b⟩ := p
    simp only [Memory.wf, List.pairwise_cons] at h
    simp only [Memory.write, Memory.wf]
    split
    · rename_i hik
      simp only [List.pairwise_cons, List.mem_cons]
      exact ⟨fun q hq => by rcases hq with rfl | hq; exacts [hik, hik.trans (h.1 q hq)], h⟩
    · split
      · rename_i hik; subst hik
        simp only [List.pairwise_cons]; exact h
      · rename_i h1 h2
        simp only [List.pairwise_cons]
        refine ⟨fun q hq => ?_, ih h.2⟩
        rcases Memory.mem_write hq with rfl | hq
        · show k < i; omega
        · exact h.1 q hq

theorem Memory.writeAll_wf (bs : List Byte) {m : Memory} (h : m.wf) (i : Nat) :
    (Memory.writeAll m i bs).wf := by
  induction bs generalizing m i with
  | nil => exact h
  | cons b bs ih => exact ih (Memory.write_wf h i b) (i + 1)

/-- After a buffered read is loaded, the frame buffer's first `FLEN` bytes are the read's (R161). -/
@[simp] theorem State.frameBytes_loadFrame (s : State) (f : List Byte) :
    (s.loadFrame f).frameBytes = f := by
  apply List.ext_getElem?
  intro i
  simp only [State.frameBytes, State.loadFrame_flen, List.getElem?_map]
  by_cases h : i < f.length
  · simp [h, State.frameByte, Memory.read_writeAll]
  · simp [h]

/-- The buffers of the state after reset are canonical. -/
theorem State.reset_wf :
    State.reset.rxbuf.wf ∧ State.reset.fbuf.wf ∧ State.reset.pkBuf.wf :=
  ⟨.nil, .nil, .nil⟩

/-! Bits of the enabled set -/

@[simp] theorem putBit_getLsbD (v : BitVec 256) (i j : Nat) (b : Bool) (hi : i < 256) :
    (putBit v i b).getLsbD j = if j = i then b else v.getLsbD j := by
  unfold putBit
  cases b <;> by_cases hj : j = i
  · subst hj; simp
  · have : ¬ i = j := fun h => hj h.symm
    by_cases hl : j < 256
    · simp [hj, hl]
    · simp [hj, hl, BitVec.getLsbD_of_ge v j (Nat.le_of_not_lt hl)]
  · subst hj; simp [hi]
  · have : ¬ i = j := fun h => hj h.symm
    simp [hj, this]

/-- Writing one enabled bit (R33). -/
@[simp] theorem State.enabled_setEn (s : State) (a a' : Byte) (b : Bool) :
    (s.setEn a b).enabled a' = if a' = a then b else s.enabled a' := by
  have h := a.isLt
  simp only [State.enabled, State.setEn, putBit_getLsbD _ _ _ _ h]
  by_cases e : a' = a
  · simp [e]
  · have : a'.toNat ≠ a.toNat := fun h => e (BitVec.eq_of_toNat_eq h)
    simp [e, this]

/-! Fault states -/

@[simp] theorem live_none {s : State} (h : s.trap = none)
    (k : Host.Outcome State Fault Refusal) : live s k = k := by simp [live, h]

@[simp] theorem live_debugHalt {s : State} (h : s.trap = some .debugHalt)
    (k : Host.Outcome State Fault Refusal) : live s k = .next s := by simp [live, h]

/-- All that an operation under `live` can do when it answers a next state (R265, R266). -/
theorem live_next {s t : State} {k : Host.Outcome State Fault Refusal} (h : live s k = .next t) :
    (s.trap = none ∧ k = .next t) ∨ (s.trap = some .debugHalt ∧ t = s) := by
  unfold live at h
  split at h
  · exact .inl ⟨‹_›, h⟩
  · exact .inr ⟨‹_›, by injection h with h; exact h.symm⟩
  · cases h
  · cases h

/-- All that a byte operation can do when it answers a next state (R130). -/
theorem whenSelected_next {s t : State} {sel : Bool} {k : Host.Outcome State Fault Refusal}
    (h : whenSelected s sel k = .next t) :
    (s.trap = none ∧ sel = true ∧ k = .next t) ∨ (s.trap = some .debugHalt ∧ t = s) := by
  rcases live_next h with ⟨h0, h⟩ | h
  · split at h
    · exact .inl ⟨h0, ‹_›, h⟩
    · cases h
  · exact .inr h

/-- All that an outcome of a buffered read can do when it answers a next state (R160). -/
theorem frameOutcome_next {s t k : State} {sel : Bool} (h : frameOutcome s sel k = .next t) :
    (s.trap = none ∧ s.mode = .hostDebug ∧ sel = true ∧ t = k) ∨
      ((s.trap = some .debugHalt ∨ s.mode = .peripheralBus) ∧ t = s) := by
  rcases live_next h with ⟨h0, h⟩ | ⟨h0, h⟩
  · unfold State.frameEnabled at h
    cases hm : s.mode <;> simp only [hm] at h
    · cases sel <;> simp at h
      exact .inl ⟨h0, rfl, rfl, h.symm⟩
    · simp at h
      exact .inr ⟨.inr rfl, h.symm⟩
  · exact .inr ⟨.inl h0, h⟩

/-- All that a dispatched command can do when it answers a next state (R185, R265). -/
theorem answerCommand_next {r : DispatchEnd × State} {t : State} (h : answerCommand r = .next t) :
    (∃ status w, r.1 = .response status w ∧ t = r.2.answer (.response status w)) ∨
      (r.1 = .timeout ∧ t = r.2.answer .timeout) ∨ (r.1 = .halt ∧ t = r.2.raise .debugHalt) := by
  obtain ⟨e, s⟩ := r
  cases e <;> (unfold answerCommand at h; injection h with h; subst h; simp)

/-- All that a command run on its own can do when it answers a next state (R101). -/
theorem runCommand_next {s t : State} {sel : Bool} {k : State → DispatchEnd × State}
    (h : runCommand s sel k = .next t) :
    (s.trap = none ∧ sel = true ∧ answerCommand (k s) = .next t) ∨
      (s.trap = some .debugHalt ∧ t = s) := by
  rcases live_next h with ⟨h0, h⟩ | h
  · split at h
    · exact .inl ⟨h0, ‹_›, h⟩
    · cases h
  · exact .inr h

/-! Packed replies -/

/-- All that a packed reply can do: it sends one frame, of the packed stream where that can be spelt,
and of some payload of at most 249 bytes where it cannot (R248; log entry 29). -/
theorem State.replyPacked_sends (s : State) (seq : Half) (status : Byte) :
    (s.packSpelt = true ∧ s.packLen ≤ 249 ∧
      s.replyPacked seq status = s.replyFrame seq status (s.packBytes s.packLen)) ∨
    (s.packSpelt = false ∧ ∃ p : List Byte, p.length ≤ 249 ∧
      s.replyPacked seq status = s.drawn.replyFrame seq status p) := by
  unfold State.replyPacked
  cases h : s.packSpelt
  · exact .inr ⟨rfl, _, cutPayload_length _, rfl⟩
  · refine .inl ⟨rfl, ?_, rfl⟩
    simp only [State.packSpelt, Bool.and_eq_true, decide_eq_true_eq] at h
    exact h.2

@[simp] theorem State.packBytes_length (s : State) (n : Nat) : (s.packBytes n).length = n := by
  simp [State.packBytes]

/-- The unpacker pointed at the pack buffer reads it as it stands (R34, R60). -/
theorem State.sourceByte_pkBuf {s : State} {n : Nat} (h : s.upSrc = .pkBuf n) (i : Nat) :
    s.sourceByte i = s.packByte i := by simp [State.sourceByte, h]

/-- The unpacker pointed at bytes reads them (R37). -/
theorem State.sourceByte_bytes {s : State} {b : List Byte} (h : s.upSrc = .bytes b) (i : Nat) :
    s.sourceByte i = b[i]?.getD (Config.freeSourceByte i) := by simp [State.sourceByte, h]

/-! Events -/

/-- A step with an event pending runs the operation the event causes (R6). -/
theorem step_of_event {s : State} {e : Event} {es : List Event} (h : s.events = e :: es) :
    step s = exec (s.eventInstr e) s.delivered := by
  simp [step, State.fetch, h]

/-- With no event pending the block waits (R300). -/
theorem step_idle {s : State} (h : s.events = []) : step s = .next s := by
  simp [step, State.fetch, h]

end Sys2Proof.Machine
end

