-- ==== Sys2Proof/Laws/Codec.lean ====
section
/-! SUPPORT. What the codec's loops can do (R212, R216): which fields they touch, and their turns as
equations. -/

namespace Sys2Proof.Machine

/-- The packer's loop touches only the pack buffer, its two registers and the fault state. -/
theorem packLoop_rest (v : Word) (width fuel rem : Nat) (s : State) :
    { packLoop v width fuel rem s with
      pkBuf := s.pkBuf, pkIdx := s.pkIdx, pkFree := s.pkFree, trap := s.trap } = s := by
  induction fuel generalizing rem s with
  | zero => rfl
  | succ fuel ih =>
    unfold packLoop
    split
    · rfl
    split
    · rfl
    split
    · rfl
    split
    · rfl
    · have h := ih (rem - s.pkFree) (s.packChunk v width rem).packAdvanced
      generalize packLoop v width fuel _ _ = t at h ⊢
      have h' := congrArg (fun u : State =>
        { u with pkBuf := s.pkBuf, pkIdx := s.pkIdx, pkFree := s.pkFree, trap := s.trap }) h
      exact h'

/-- `PK.PUT` touches only the pack buffer, its two registers and the fault state (R212). -/
theorem packed_rest (s : State) (v : Word) (width : Nat) :
    { s.packed v width with
      pkBuf := s.pkBuf, pkIdx := s.pkIdx, pkFree := s.pkFree, trap := s.trap } = s :=
  packLoop_rest v width _ width s

/-- The puts of a batch touch only the pack buffer, its two registers and the fault state (R214). -/
theorem packAll_rest (width : Nat) (vs : List Word) (s : State) :
    { packAll width vs s with
      pkBuf := s.pkBuf, pkIdx := s.pkIdx, pkFree := s.pkFree, trap := s.trap } = s := by
  induction vs generalizing s with
  | nil => rfl
  | cons v vs ih =>
    have h := packed_rest s v width
    simp only [packAll]
    split
    · exact h
    · have h' := ih (s.packed v width)
      rw [← h'] at h
      exact h

/-- The unpacker's loop touches only its index, its bit count and the fault state. -/
theorem unpackLoop_rest (width fuel rem acc : Nat) (s : State) :
    { (unpackLoop width fuel rem acc s).2 with
      upIdx := s.upIdx, upFree := s.upFree, trap := s.trap } = s := by
  induction fuel generalizing rem acc s with
  | zero => rfl
  | succ fuel ih =>
    unfold unpackLoop
    split
    · rfl
    split
    · rfl
    split
    · rfl
    · have h := ih (rem - s.upFree) (s.unpackChunk acc width rem)
        { s with upFree := 8, upIdx := s.upIdx + 1 }
      generalize (unpackLoop width fuel _ _ _).2 = t at h ⊢
      exact congrArg (fun u : State =>
        { u with upIdx := s.upIdx, upFree := s.upFree, trap := s.trap }) h

/-- `UP.GET` touches only its index, its bit count and the fault state (R216). -/
theorem unpacked_rest (s : State) (width : Nat) :
    { (s.unpacked width).2 with upIdx := s.upIdx, upFree := s.upFree, trap := s.trap } = s :=
  unpackLoop_rest width _ width 0 s

/-- The gets of a batch touch only the index, the bit count and the fault state (R217). -/
theorem unpackAll_rest (width n : Nat) (s : State) :
    { (unpackAll width n s).2 with upIdx := s.upIdx, upFree := s.upFree, trap := s.trap } = s := by
  induction n generalizing s with
  | zero => rfl
  | succ n ih =>
    have h := unpacked_rest s width
    simp only [unpackAll]
    generalize s.unpacked width = r at h ⊢
    obtain ⟨_ | v, t⟩ := r
    · exact h
    · have h' := ih t
      simp only at h h' ⊢
      rw [← h'] at h
      exact h

/-! Turns of the loops -/

@[simp] theorem packLoop_done (v : Word) (width fuel : Nat) (s : State) :
    packLoop v width fuel 0 s = s := by
  cases fuel <;> simp [packLoop]

/-- A turn that ends inside the byte being filled (R212, first branch). -/
theorem packLoop_inside (v : Word) (width fuel rem : Nat) (s : State) (h0 : rem ≠ 0)
    (hi : s.pkIdx < s.cfg.pkbufSize) (h : rem < s.pkFree) :
    packLoop v width (fuel + 1) rem s =
      { s.packChunk v width rem with pkFree := s.pkFree - rem } := by
  simp [packLoop, h0, h, Nat.not_le.2 hi]

/-- A turn that fills the byte and leaves it for the next (R212, second branch). -/
theorem packLoop_across (v : Word) (width fuel rem : Nat) (s : State) (h0 : rem ≠ 0)
    (hi : s.pkIdx + 1 < s.cfg.pkbufSize) (h : s.pkFree ≤ rem) :
    packLoop v width (fuel + 1) rem s =
      packLoop v width fuel (rem - s.pkFree) (s.packChunk v width rem).packAdvanced := by
  have h1 : ¬ s.cfg.pkbufSize ≤ s.pkIdx := by omega
  simp [packLoop, h0, Nat.not_lt.2 h, Nat.not_le.2 hi, h1]

/-- A turn that fills the last byte of the buffer raises `CodecOverflow` (R220). -/
theorem packLoop_overflow (v : Word) (width fuel rem : Nat) (s : State) (h0 : rem ≠ 0)
    (hi : s.pkIdx + 1 = s.cfg.pkbufSize) (h : s.pkFree ≤ rem) :
    packLoop v width (fuel + 1) rem s = (s.packChunk v width rem).raise .codecOverflow := by
  have h1 : ¬ s.cfg.pkbufSize ≤ s.pkIdx := by omega
  simp [packLoop, h0, Nat.not_lt.2 h, h1, hi]

@[simp] theorem unpackLoop_done (width fuel acc : Nat) (s : State) :
    unpackLoop width fuel 0 acc s = (some acc, s) := by
  cases fuel <;> simp [unpackLoop]

/-- A turn past the end of the stream raises `CodecUnderrun` (R216). -/
theorem unpackLoop_underrun (width fuel rem acc : Nat) (s : State) (h0 : rem ≠ 0)
    (hi : s.upN ≤ s.upIdx) :
    unpackLoop width (fuel + 1) rem acc s = (none, s.raise .codecUnderrun) := by
  simp [unpackLoop, h0, hi]

/-- A turn that ends inside the byte being read (R216, first branch). -/
theorem unpackLoop_inside (width fuel rem acc : Nat) (s : State) (h0 : rem ≠ 0)
    (hi : s.upIdx < s.upN) (h : rem < s.upFree) :
    unpackLoop width (fuel + 1) rem acc s =
      (some (s.unpackChunk acc width rem), { s with upFree := s.upFree - rem }) := by
  simp [unpackLoop, h0, h, Nat.not_le.2 hi]

/-- A turn that reads the byte out and goes on to the next (R216, second branch). -/
theorem unpackLoop_across (width fuel rem acc : Nat) (s : State) (h0 : rem ≠ 0)
    (hi : s.upIdx < s.upN) (h : s.upFree ≤ rem) :
    unpackLoop width (fuel + 1) rem acc s =
      unpackLoop width fuel (rem - s.upFree) (s.unpackChunk acc width rem)
        { s with upFree := 8, upIdx := s.upIdx + 1 } := by
  simp [unpackLoop, h0, Nat.not_lt.2 h, Nat.not_le.2 hi]

end Sys2Proof.Machine
end

