-- ==== Sys2Proof/Laws/Config.lean ====
section
/-! SUPPORT. What is known of the device's configuration: it is legal, and it has the spec's fixed
values (R8). -/

namespace Sys2Proof

theorem Config.legal_withSpecValues {c : Config} (h : c.Legal) : c.withSpecValues.Legal := h

theorem Config.minimal_legal : Config.minimal.Legal := by decide

theorem Config.device_legal : Config.device.Legal := by
  unfold Config.device
  split
  · rename_i h
    exact h
  · exact Config.minimal_legal

@[simp] theorem Config.device_sync : Config.device.sync = 0xEB := rfl
@[simp] theorem Config.device_sof : Config.device.sof = 0xFF := rfl
@[simp] theorem Config.device_replyOrder : Config.device.replyOrder = .le := rfl
@[simp] theorem Config.device_ckWordOrder : Config.device.ckWordOrder = .be := rfl
@[simp] theorem Config.device_packOrder : Config.device.packOrder = .msbFirst := rfl

end Sys2Proof
end

