-- ==== Sys2Proof/Laws/Dispatcher.lean ====
section
/-! SUPPORT. What a dispatch can do (R185 to R195): the commands as equations, and one lemma that says
which fields it touches. -/

namespace Sys2Proof.Machine

/-- The state `t` differs from `s` at most in what a dispatch for resource `a` may change: `EN[a]`,
calls appended, answers taken, values drawn. -/
structure DispatchChanges (a : Byte) (s t : State) : Prop where
  rest : { t with en := s.en, calls := s.calls, answers := s.answers, draws := s.draws } = s
  en : ∀ b, b ≠ a → t.enabled b = s.enabled b
  calls : ∃ ks, t.calls = s.calls ++ ks ∧ ∀ k ∈ ks, k.addr = a

theorem DispatchChanges.refl (a : Byte) (s : State) : DispatchChanges a s s :=
  ⟨rfl, fun _ _ => rfl, [], by simp⟩

theorem DispatchChanges.trans {a : Byte} {s t u : State} (h : DispatchChanges a s t)
    (h' : DispatchChanges a t u) : DispatchChanges a s u := by
  obtain ⟨ks, hk, hka⟩ := h.calls
  obtain ⟨ls, hl, hla⟩ := h'.calls
  refine ⟨?_, fun b hb => (h'.en b hb).trans (h.en b hb), ks ++ ls, ?_, ?_⟩
  · have h1 := h.rest
    have h2 := h'.rest
    rw [← h2] at h1
    exact h1
  · rw [hl, hk, List.append_assoc]
  · intro k hk; rcases List.mem_append.1 hk with hk | hk; exacts [hka k hk, hla k hk]

theorem DispatchChanges.setEn (a : Byte) (s : State) (b : Bool) :
    DispatchChanges a s (s.setEn a b) :=
  ⟨rfl, fun c hc => by simp [hc], [], by simp⟩

theorem DispatchChanges.called (a : Byte) (s : State) (fn : CollabFn) :
    DispatchChanges a s (s.called fn a) := by
  refine ⟨?_, fun c _ => by simp [State.enabled], _, State.called_calls s fn a, by simp⟩
  unfold State.called State.logCall State.replied State.drawn
  split <;> rfl

theorem DispatchChanges.drawEn (a : Byte) (s : State) : DispatchChanges a s (s.drawEn a) :=
  ⟨rfl, (DispatchChanges.setEn a s _).en, [], by simp⟩

theorem startThen_changes (a : Byte) (k : State → DispatchEnd × State) (s : State)
    (hk : ∀ s, DispatchChanges a s (k s).2) : DispatchChanges a s (startThen a k s).2 := by
  have h1 := DispatchChanges.called a s .start
  unfold startThen
  split
  · exact h1.trans ((DispatchChanges.setEn a _ true).trans (hk _))
  · exact h1.trans (DispatchChanges.drawEn a _)
  · exact h1

theorem autoInit_changes (a : Byte) (k : State → DispatchEnd × State) (s : State)
    (hk : ∀ s, DispatchChanges a s (k s).2) : DispatchChanges a s (autoInit a k s).2 := by
  unfold autoInit
  split
  · exact hk s
  · exact startThen_changes a k s hk

theorem cmdStart_changes (a : Byte) (s : State) : DispatchChanges a s (cmdStart a s).2 := by
  unfold cmdStart
  split
  · exact .refl a s
  · exact startThen_changes a _ s (fun s => .refl a s)

theorem cmdStop_changes (a : Byte) (s : State) : DispatchChanges a s (cmdStop a s).2 := by
  have h1 := DispatchChanges.called a s .stop
  unfold cmdStop
  split
  · exact h1.trans (DispatchChanges.setEn a _ false)
  · exact h1.trans (DispatchChanges.drawEn a _)
  · exact h1

theorem lifecycleCall_changes (fn : CollabFn) (a : Byte) (s : State) :
    DispatchChanges a s (lifecycleCall fn a s).2 := by
  have h1 := DispatchChanges.called a s fn
  unfold lifecycleCall
  split <;> exact h1

theorem cmdHandle_changes (a o : Byte) (x : Half) (s : State) :
    DispatchChanges a s (cmdHandle a o x s).2 := by
  have h1 := DispatchChanges.called a s (.handle o x)
  unfold cmdHandle
  split <;> exact h1

theorem cmdBody_changes (a o : Byte) (x : Half) (s : State) :
    DispatchChanges a s (cmdBody a o x s).2 := by
  unfold cmdBody
  split
  · exact cmdStop_changes a s
  split
  · exact lifecycleCall_changes .sleep a s
  split
  · exact lifecycleCall_changes .wakeup a s
  split
  · exact cmdHandle_changes a _ x s
  split
  · exact cmdHandle_changes a _ x s
  · exact cmdHandle_changes a _ x s

/-- All that DISPATCH changes of the state, however it ends. -/
theorem dispatch_changes (a o : Byte) (x : Half) (s : State) :
    DispatchChanges a s (dispatch a o x s).2 := by
  unfold dispatch
  split
  · exact .refl a s
  split
  · exact cmdStart_changes a s
  · exact autoInit_changes a _ s (cmdBody_changes a o x)

/-- A dispatch leaves every field but the enabled bits, the calls and the draws alone. -/
theorem dispatch_rest (a o : Byte) (x : Half) (s : State) :
    { (dispatch a o x s).2 with
      en := s.en, calls := s.calls, answers := s.answers, draws := s.draws } = s :=
  (dispatch_changes a o x s).rest

end Sys2Proof.Machine
end

