-- ==== Sys2Proof/Laws/PerInstr.lean ====
section
/-! SUPPORT. How many bytes each operation's word has (R91, R92, R94, R97, R98, R111): a family of statements, one
lemma a constructor of Instr. -/

namespace Sys2Proof.Laws.WireLength

/-- The number of bytes a word of a format can have: one received byte; a buffered read of any length;
a streaming request of a command, six. -/
def fits : Format → Nat → Prop
  | .rxb _ _, n => n = 1
  | .read, _ => True
  | .creq, n => n ≤ 255
  | .cmd, n => n = 6

/-- The length of an operation's word under a configuration. An operation without a format has no
word. A request that no test drops has 7 to 255 bytes; the bytes of a dropped read are any. -/
def Statement (i : Instr) : Prop :=
  ∀ c : Config, i.wellFormed c = true →
    match i, formatOf i with
    | .ckDrop f, _ => encode c i = f
    | _, some fmt => fits fmt (encode c i).length
    | _, none => encode c i = []

theorem rxSkip (b : Byte) : Statement (.rxSkip b) := fun _ _ => rfl

theorem rxSync (b : Byte) : Statement (.rxSync b) := fun _ _ => rfl

theorem rxLen (b : Byte) : Statement (.rxLen b) := fun _ _ => rfl

theorem rxData (b : Byte) : Statement (.rxData b) := fun _ _ => rfl

theorem rxMasked (b : Byte) : Statement (.rxMasked b) := fun _ _ => rfl

theorem ckFrame (f : List Byte) : Statement (.ckFrame f) := fun _ _ => trivial

theorem ckDrop (f : List Byte) : Statement (.ckDrop f) := fun _ _ => rfl

theorem ckGetid (seq : Half) (ops : List Byte) : Statement (.ckGetid seq ops) := by
  intro c h
  have := of_decide_eq_true h
  show (encodeRequest c seq Config.cmdGetId ops).length ≤ 255
  rw [encodeRequest_length]
  omega

theorem ckRoute (seq code : Half) (ops : List Byte) : Statement (.ckRoute seq code ops) := by
  intro c h
  simp only [Instr.wellFormed, Bool.and_eq_true, decide_eq_true_eq] at h
  show (encodeRequest c seq code ops).length ≤ 255
  rw [encodeRequest_length]
  omega

theorem ckUnsup (seq code : Half) (ops : List Byte) : Statement (.ckUnsup seq code ops) := by
  intro c h
  simp only [Instr.wellFormed, Bool.and_eq_true, decide_eq_true_eq] at h
  show (encodeRequest c seq code ops).length ≤ 255
  rw [encodeRequest_length]
  omega

theorem mTake : Statement .mTake := fun _ _ => rfl

theorem mExec : Statement .mExec := fun _ _ => rfl

theorem cmdInvalid (a o : Byte) (x : Half) : Statement (.cmdInvalid a o x) := fun _ _ => rfl

theorem cmdStart (a : Byte) (x : Half) : Statement (.cmdStart a x) := fun _ _ => rfl

theorem cmdStop (a : Byte) (x : Half) : Statement (.cmdStop a x) := fun _ _ => rfl

theorem cmdSleep (a : Byte) (x : Half) : Statement (.cmdSleep a x) := fun _ _ => rfl

theorem cmdWakeup (a : Byte) (x : Half) : Statement (.cmdWakeup a x) := fun _ _ => rfl

theorem cmdRead (a : Byte) (x : Half) : Statement (.cmdRead a x) := fun _ _ => rfl

theorem cmdWrite (a : Byte) (x : Half) : Statement (.cmdWrite a x) := fun _ _ => rfl

theorem cmdRspec (a o : Byte) (x : Half) : Statement (.cmdRspec a o x) := fun _ _ => rfl

theorem pkInit : Statement .pkInit := fun _ _ => rfl

theorem pkPut (v : Word) (width : Nat) : Statement (.pkPut v width) := fun _ _ => rfl

theorem pkLen : Statement .pkLen := fun _ _ => rfl

theorem pkBatch (width : Nat) (vs : List Word) : Statement (.pkBatch width vs) := fun _ _ => rfl

theorem upInit (src : UpSource) : Statement (.upInit src) := fun _ _ => rfl

theorem upGet (width : Nat) : Statement (.upGet width) := fun _ _ => rfl

theorem upBatch (width n : Nat) : Statement (.upBatch width n) := fun _ _ => rfl

theorem rbStream (w : Word) : Statement (.rbStream w) := fun _ _ => rfl

theorem rbCk (seq : Half) (status : Byte) (payload : Payload) :
    Statement (.rbCk seq status payload) := fun _ _ => rfl

theorem evPreempt : Statement .evPreempt := fun _ _ => rfl

theorem evAbort : Statement .evAbort := fun _ _ => rfl

theorem evEnterBus : Statement .evEnterBus := fun _ _ => rfl

theorem evReset : Statement .evReset := fun _ _ => rfl

end Sys2Proof.Laws.WireLength
end

