-- ==== Sys2Proof/Tests/Slice0.lean ====
section
/-! SUPPORT. Tests: the vectors of 95_test_vectors.md, the well-formedness checks, written-out words, and
a witness for each statement that has hypotheses. -/

namespace Sys2Proof.Tests

open Sys2Proof.Machine

/-! The reference configuration (95_test_vectors.md, `REFCFG`), with the routes that the vectors use -/

def cfg : Config where
  sync := 0xEB
  sof := 0xFF
  pkbufSize := 256
  flowControl := true
  registry := [⟨0x01, [0, 1, 2, 3, 4, 5, 0x10], []⟩]
  opStart := 0
  opStop := 1
  opSleep := 2
  opWakeup := 3
  opRead := 4
  opWrite := 5
  sentinel := 0xFFFFFFFF
  stUnsupported := 1
  stResend := 2
  stUnknownError := 3
  lifecycleResult := 0
  replyOrder := .le
  ckWordOrder := .be
  family := 0x5A
  ident := 0x01
  cmdRoute := [⟨0x0104, [0, 0], 1, 4, 0⟩, ⟨0x0199, [0, 0], 1, 0x99, 0⟩]
  packOrder := .msbFirst
  resetMode := .hostDebug
  timeoutTicks := 0

/-- After a reset into HOST_DEBUG. -/
def host : State := State.resetOf cfg

/-- After `enter_bus`. -/
def bus : State := { host with mode := .peripheralBus, rxie := true }

/-- Resource 1 enabled. -/
def live1 : State := { bus with en := 2 }

/-- A command in the latch, resource 1 disabled, with the answers to come. -/
def latched (o : Byte) (as : List Reply) : State :=
  { bus with cv := true, ca := 1, co := o, busy := true, answers := as }

/-- The packer after PK.INIT, or with some stream in its buffer. -/
def packing (size : Nat) (m : Memory) (idx free : Nat) : State :=
  { host with cfg := { cfg with pkbufSize := size }, pkBuf := m, pkIdx := idx, pkFree := free,
              pkReady := true }

/-- The unpacker pointed at bytes. -/
def unpacking (bs : List Byte) : State :=
  { host with upSrc := .bytes bs, upN := bs.length, upReady := true }

/-- A packed stream in the buffer, and a resource whose `read` answers with it. -/
def packed (m : Memory) (idx free : Nat) : State :=
  { host with cfg := { cfg with registry := [⟨0x01, [0, 1, 2, 3, 4, 5], [4]⟩] }, en := 2,
              answers := [.ok 0], pkBuf := m, pkIdx := idx, pkFree := free, pkReady := true }

/-- The next state, if there is one. -/
def after : Host.Outcome State Fault Refusal → Option State
  | .next s => some s
  | _ => none

/-- The refusal, if there is one. -/
def refusal : Host.Outcome State Fault Refusal → Option Refusal
  | .refused r => some r
  | _ => none

/-- The fault, if there is one. -/
def faultOf : Host.Outcome State Fault Refusal → Option Fault
  | .fault f => some f
  | _ => none

/-! Well-formedness: an ill-formed term for each check, beside a well-formed one -/

theorem test_wf_byte_checks :
    (Instr.rxSkip 0xEB).wellFormed cfg = false ∧ (Instr.rxSkip 0xEA).wellFormed cfg = true ∧
    (Instr.rxSync 0xEC).wellFormed cfg = false ∧ (Instr.rxSync 0xEB).wellFormed cfg = true := by
  decide

theorem test_wf_drop_of_valid_frame :
    (Instr.ckDrop [0xFF, 7, 0, 1, 0, 3, 0x0A]).wellFormed cfg = false ∧
    (Instr.ckDrop [0xFF, 7, 0, 1, 0, 3, 0x0B]).wellFormed cfg = true := by decide

theorem test_wf_operand_length (f : List Byte) (h : f.length = 249) :
    (Instr.ckGetid 1 f).wellFormed cfg = false ∧
    (Instr.ckGetid 1 f.tail).wellFormed cfg = true ∧
    (Instr.ckRoute 1 0x0104 f).wellFormed { cfg with cmdRoute := [⟨0x0104, f, 1, 4, 0⟩] } = false ∧
    (Instr.ckUnsup 1 0x7F7F f).wellFormed cfg = false ∧
    (Instr.rbCk 1 0 (.bytes (0 :: f))).wellFormed cfg = false ∧ (Instr.rbCk 1 0 (.bytes f)).wellFormed cfg = true := by
  simp [Instr.wellFormed, h]

theorem test_wf_code_selects_outcome :
    (Instr.ckRoute 1 0x0104 []).wellFormed cfg = false ∧
    (Instr.ckRoute 1 0x0003 [0, 0]).wellFormed cfg = false ∧
    (Instr.ckRoute 1 0x0104 [0, 0]).wellFormed cfg = true ∧
    (Instr.ckUnsup 1 0x0104 [0, 0]).wellFormed cfg = false ∧
    (Instr.ckUnsup 1 0x0003 []).wellFormed cfg = false := by decide

theorem test_wf_unknown_commands :
    (Instr.cmdInvalid 1 4 0).wellFormed cfg = false ∧ (Instr.cmdInvalid 1 0x77 0).wellFormed cfg = true ∧
    (Instr.cmdStart 2 0).wellFormed cfg = false ∧ (Instr.cmdStop 2 0).wellFormed cfg = false ∧
    (Instr.cmdSleep 2 0).wellFormed cfg = false ∧ (Instr.cmdWakeup 2 0).wellFormed cfg = false ∧
    (Instr.cmdRead 2 0).wellFormed cfg = false ∧ (Instr.cmdWrite 2 0).wellFormed cfg = false := by
  decide

theorem test_wf_rspec :
    (Instr.cmdRspec 1 4 0).wellFormed cfg = false ∧ (Instr.cmdRspec 1 0x77 0).wellFormed cfg = false ∧
    (Instr.cmdRspec 1 0x10 0).wellFormed cfg = true := by decide

theorem test_wf_widths :
    (Instr.pkPut 1 0).wellFormed cfg = false ∧ (Instr.pkPut 1 33).wellFormed cfg = false ∧
    (Instr.pkPut 1 32).wellFormed cfg = true ∧ (Instr.pkBatch 33 [1]).wellFormed cfg = false ∧
    (Instr.upGet 0).wellFormed cfg = false ∧ (Instr.upBatch 0 1).wellFormed cfg = false := by decide

theorem test_cfg_legal : cfg.Legal := by decide

/-! Decoding: words written out from 30_encoding.md -/

/-- Every byte of scenario B's request at the state it comes in (R142). -/
theorem test_decode_bytes :
    decodeByte cfg false .waiting 0xEB = .rxSync 0xEB ∧
    decodeByte cfg false .waiting 0x34 = .rxSkip 0x34 ∧
    decodeByte cfg false .lengthPending 0x04 = .rxLen 0x04 ∧
    decodeByte cfg false .receiving 0x2C = .rxData 0x2C ∧
    decodeByte cfg true .receiving 0x2C = .rxMasked 0x2C := by decide

/-- Vectors K1, K12, K2, K9, K8: each outcome of a buffered read. -/
theorem test_decode_requests :
    decodeFrame cfg [0xFF, 0x07, 0x00, 0x01, 0x00, 0x03, 0x0A] = .ckGetid 1 [] ∧
    decodeFrame cfg [0xFF, 0x0A, 0x00, 0x05, 0x00, 0x03, 9, 9, 9, 0x2C] = .ckGetid 5 [9, 9, 9] ∧
    decodeFrame cfg [0xFF, 0x07, 0x00, 0x01, 0x00, 0x03, 0x0B] =
      .ckDrop [0xFF, 0x07, 0x00, 0x01, 0x00, 0x03, 0x0B] ∧
    decodeFrame cfg [0xFF, 0x09, 0x00, 0x02, 0x01, 0x04, 0, 0, 0x0F] = .ckRoute 2 0x0104 [0, 0] ∧
    decodeFrame cfg [0xFF, 0x07, 0x12, 0x34, 0x7F, 0x7F, 0x4A] = .ckUnsup 0x1234 0x7F7F [] := by
  decide

/-- Vectors K3 to K6: start marker, length byte, too short, empty. -/
theorem test_decode_bad_requests :
    decodeFrame cfg [0xFE, 7, 0, 1, 0, 3, 9] = .ckDrop [0xFE, 7, 0, 1, 0, 3, 9] ∧
    decodeFrame cfg [0xFF, 8, 0, 1, 0, 3, 0x0B] = .ckDrop [0xFF, 8, 0, 1, 0, 3, 0x0B] ∧
    decodeFrame cfg [0xFF, 3, 2] = .ckDrop [0xFF, 3, 2] ∧ decodeFrame cfg [] = .ckDrop [] := by
  decide

/-- The two-byte change that the spec lists as accepted (95_test_vectors.md 2.2). -/
theorem test_decode_accepted_double_change :
    decodeFrame cfg [0xFF, 7, 0, 2, 0, 2, 0x0A] = .ckUnsup 2 2 [] := by decide

/-- Program 4 and Program 1: the wire bytes of each command; the operand is little-endian. -/
theorem test_decode_commands :
    decodeStream cfg [0xEB, 4, 0x77, 0, 0, 0] = .ok (.cmdInvalid 0x77 0 0) ∧
    decodeStream cfg [0xEB, 4, 1, 0, 0x2C, 1] = .ok (.cmdStart 1 0x012C) ∧
    decodeStream cfg [0xEB, 4, 1, 1, 0, 0] = .ok (.cmdStop 1 0) ∧
    decodeStream cfg [0xEB, 4, 1, 2, 0, 0] = .ok (.cmdSleep 1 0) ∧
    decodeStream cfg [0xEB, 4, 1, 3, 0, 0] = .ok (.cmdWakeup 1 0) ∧
    decodeStream cfg [0xEB, 4, 1, 4, 0, 0] = .ok (.cmdRead 1 0) ∧
    decodeStream cfg [0xEB, 5, 1, 5, 0xEB, 0xEB, 0x99] = .ok (.cmdWrite 1 0xEBEB) ∧
    decodeStream cfg [0xEB, 4, 1, 0x10, 2, 0] = .ok (.cmdRspec 1 0x10 2) := by decide

theorem test_decode_bad_streams :
    decodeStream cfg [0xEC, 4, 1, 0, 0, 0] = .error .noSync ∧
    decodeStream cfg [0xEB, 5, 1, 0, 0, 0] = .error .lengthMismatch ∧
    decodeStream cfg [0xEB, 3, 1, 0, 0] = .error .shortPayload ∧
    decode cfg (.rxb false .waiting) [1, 2] = .error .notOneByte := by decide

/-- Vectors B1, B2, B6. -/
theorem test_read_replies :
    readStreamReply cfg [0xBC, 0x0A, 0, 0] = some 0xABC ∧
    readStreamReply { cfg with replyOrder := .be } [0, 0, 0x0A, 0xBC] = some 0xABC ∧
    readCkReply cfg [0xFF, 6, 0x12, 0x34, 1, 0x4C] = some (0x1234, 1, []) ∧
    readCkReply cfg [0xFF, 6, 0x12, 0x34, 1, 0x4D] = none ∧
    readStreamReply cfg [0, 0, 0] = none := by decide

/-! The streaming framer: vectors F1 to F14 -/

/-- F1, F2. -/
theorem test_rxSkip_unchanged : after (exec (.rxSkip 0xFF) bus) = some bus := by decide

/-- F3. -/
theorem test_rxSync_opens :
    (after (exec (.rxSync 0xEB) bus)).map (fun s => (s.st, s.busy)) = some (.lengthPending, true) := by
  decide

/-- F13. -/
theorem test_rxSync_without_flow_control :
    (after (exec (.rxSync 0xEB) { bus with cfg := { cfg with flowControl := false } })).map
      (fun s => (s.st, s.busy)) = some (.lengthPending, false) := by decide

/-- F4. -/
theorem test_rxLen_zero_completes :
    (after (exec (.rxLen 0) { bus with st := .lengthPending, len := 9, cnt := 9 })).map
      (fun s => (s.st, s.len, s.cnt, s.done)) = some (.waiting, 0, 0, true) := by decide

/-- F6. -/
theorem test_rxLen_sync_value_is_a_length :
    (after (exec (.rxLen 0xEB) { bus with st := .lengthPending })).map
      (fun s => (s.st, s.len.toNat, s.cnt, s.done)) = some (.receiving, 235, 0, false) := by decide

/-- F8, the last byte of the longest payload. -/
theorem test_rxData_last_of_255 :
    (after (exec (.rxData 0xFE) { bus with st := .receiving, len := 255, cnt := 254 })).map
      (fun s => (s.st, s.cnt.toNat, s.done, s.rxbuf)) =
      some (.waiting, 255, true, [(254, 0xFE)]) := by decide

/-- F10, the second byte of the overrunning frame. -/
theorem test_rxData_overrun :
    (after (exec (.rxData 0x05) { bus with
      st := .receiving, len := 4, cnt := 1, done := true,
      rxbuf := [(0, 1), (1, 4), (2, 0x34), (3, 0x12)] })).map
      (fun s => (s.st, s.cnt, s.done, s.rxbuf)) =
      some (.receiving, 2, true, [(0, 1), (1, 5), (2, 0x34), (3, 0x12)]) := by decide

/-- F11, F12. -/
theorem test_rxMasked_unchanged :
    after (exec (.rxMasked 0xEB) host) = some host ∧
    after (exec (.rxMasked 0xEB) { bus with rxie := false }) = some { bus with rxie := false } := by
  decide

/-! The checksummed framer: vectors K1 to K13 -/

/-- K9, from the bytes of the read. -/
theorem test_ckFrame_route :
    (after (exec (.ckFrame [0xFF, 9, 0, 2, 1, 4, 0, 0, 0x0F])
      { host with answers := [.ok 0, .ok 0xABC] })).map
      (fun s => (s.txCk, s.calls, s.enabled 1)) =
      some ([0xFF, 0x0A, 0, 2, 0, 0, 0, 0x0A, 0xBC, 0xD1],
        [⟨.start, 1, .done⟩, ⟨.handle 4 0, 1, .value 0xABC⟩], true) := by decide

/-- K13. -/
theorem test_ckFrame_on_the_bus :
    after (exec (.ckFrame [0xFF, 7, 0, 1, 0, 3, 0x0A]) bus) = some bus := by decide

/-- K2. -/
theorem test_ckDrop_no_reply :
    after (exec (.ckDrop [0xFF, 7, 0, 1, 0, 3, 0x0B]) host) = some host := by decide

/-- K12. -/
theorem test_ckGetid_ignores_operands :
    (after (exec (.ckGetid 5 [9, 9, 9]) host)).map (·.txCk) =
      some [0xFF, 8, 0, 5, 0, 0x5A, 1, 0x67] := by decide

/-- K10. -/
theorem test_ckRoute_unknown_opcode :
    (after (exec (.ckRoute 3 0x0199 [0, 0]) host)).map (fun s => (s.txCk, s.calls)) =
      some ([0xFF, 0x0A, 0, 3, 1, 0xFF, 0xFF, 0xFF, 0xFF, 9], []) := by decide

/-- K9 with a packed result, the stream of Q3: the payload is `AB CD EF`, without the spare byte; the
checksum is `FF + 09 + 00 + 02 + 00 + AB + CD + EF = 371`. -/
theorem test_ckRoute_packed_result :
    (after (exec (.ckRoute 2 0x0104 [0, 0])
      (packed [(0, 0xAB), (1, 0xCD), (2, 0xEF), (3, 0)] 3 8))).map (·.txCk) =
      some [0xFF, 9, 0, 2, 0, 0xAB, 0xCD, 0xEF, 0x71] := by decide

/-- K8. -/
theorem test_ckUnsup_empty_payload :
    (after (exec (.ckUnsup 0x1234 0x7F7F []) host)).map (·.txCk) =
      some [0xFF, 6, 0x12, 0x34, 1, 0x4C] := by decide

/-! The main loop: vectors M1 to M7, X2, X14 to X16 -/

/-- M2. -/
theorem test_mTake_parses :
    (after (exec .mTake { bus with
      done := true, len := 5, rxbuf := [(0, 1), (1, 5), (2, 0xEB), (3, 0xEB), (4, 0x99)] })).map
      (fun s => (s.ca, s.co, s.cx, s.cv, s.done, s.rxie)) =
      some (1, 5, 0xEBEB, true, false, true) := by decide

/-- M5. -/
theorem test_mTake_short :
    refusal (exec .mTake { bus with done := true, len := 3 }) = some .shortTransfer := by decide

/-- X2. -/
theorem test_mExec_read :
    (after (exec .mExec (latched 4 [.ok 0, .ok 0xABC]))).map
      (fun s => (s.txStream, s.cv, s.busy, s.enabled 1)) =
      some ([0xBC, 0x0A, 0, 0], false, false, true) := by decide

/-- X16. -/
theorem test_mExec_halt :
    (after (exec .mExec { latched 4 [.halt] with en := 2 })).map
      (fun s => (s.trap, s.cv, s.txStream, s.calls)) =
      some (some .debugHalt, true, [], [⟨.handle 4 0, 1, .halt⟩]) := by decide

/-! The dispatcher: vectors X1 to X13 -/

/-- X9. -/
theorem test_cmdInvalid_no_auto_init :
    (after (exec (.cmdInvalid 1 0x77 0) bus)).map (fun s => (s.result, s.calls, s.enabled 1)) =
      some (.response 1 0xFFFFFFFF, [], false) := by decide

/-- X4. -/
theorem test_cmdStart_again :
    (after (exec (.cmdStart 1 0) live1)).map (fun s => (s.result, s.calls, s.enabled 1)) =
      some (.response 0 0, [], true) := by decide

/-- X15: `EN[1]` is a draw. -/
theorem test_cmdStart_timeout :
    (after (exec (.cmdStart 1 0) { bus with answers := [.timeout] })).map
      (fun s => (s.result, s.calls)) = some (.timeout, [⟨.start, 1, .timeout⟩]) := by rfl

/-- X1. -/
theorem test_cmdStop_starts_first :
    (after (exec (.cmdStop 1 0) { bus with answers := [.ok 0, .ok 0] })).map
      (fun s => (s.result, s.calls, s.enabled 1)) =
      some (.response 0 0, [⟨.start, 1, .done⟩, ⟨.stop, 1, .done⟩], false) := by decide

/-- X8. -/
theorem test_cmdStop_disables :
    (after (exec (.cmdStop 1 0) { live1 with answers := [.ok 0] })).map
      (fun s => (s.calls, s.enabled 1)) = some ([⟨.stop, 1, .done⟩], false) := by decide

/-- X10. -/
theorem test_cmdSleep_auto_init :
    (after (exec (.cmdSleep 1 0) { bus with answers := [.ok 0, .ok 0] })).map
      (fun s => (s.calls, s.enabled 1)) =
      some ([⟨.start, 1, .done⟩, ⟨.sleep, 1, .done⟩], true) := by decide

/-- X11. -/
theorem test_cmdWakeup :
    (after (exec (.cmdWakeup 1 0) { live1 with answers := [.ok 0] })).map
      (fun s => (s.result, s.calls, s.enabled 1)) =
      some (.response 0 0, [⟨.wakeup, 1, .done⟩], true) := by decide

/-- X13: a sentinel from the collaborator comes back as a value. -/
theorem test_cmdRead_sentinel_in_band :
    (after (exec (.cmdRead 1 0) { live1 with answers := [.ok 0xFFFFFFFF] })).map
      (fun s => (s.result, s.calls)) =
      some (.response 0 0xFFFFFFFF, [⟨.handle 4 0, 1, .value 0xFFFFFFFF⟩]) := by decide

/-- X12. -/
theorem test_cmdWrite_passes_operand :
    (after (exec (.cmdWrite 1 0xFF) { live1 with answers := [.ok 0xABC] })).map
      (fun s => (s.result, s.calls)) =
      some (.response 0 0xABC, [⟨.handle 5 0xFF, 1, .value 0xABC⟩]) := by decide

/-- X5. -/
theorem test_cmdRspec_passes_opcode :
    (after (exec (.cmdRspec 1 0x10 2) { live1 with answers := [.ok 0xDEADBEEF] })).map
      (fun s => (s.result, s.calls)) =
      some (.response 0 0xDEADBEEF, [⟨.handle 0x10 2, 1, .value 0xDEADBEEF⟩]) := by decide

/-! The codec: vectors Q1 to Q20, G1 to G7 -/

/-- Q1. -/
theorem test_pkInit :
    (after (exec .pkInit { host with pkIdx := 7, pkFree := 3, pkBuf := [(0, 9), (1, 8)] })).map
      (fun s => (s.pkIdx, s.pkFree, s.pkBuf)) = some (0, 8, [(0, 0), (1, 8)]) := by decide

/-- Q9, the second put: 32 bits across five bytes. -/
theorem test_pkPut_across_five_bytes :
    (after (exec (.pkPut 0xDEADBEEF 32) (packing 256 [(0, 0x80)] 0 7))).map
      (fun s => (s.pkIdx, s.pkFree, s.pkBuf)) =
      some (4, 7, [(0, 0xEF), (1, 0x56), (2, 0xDF), (3, 0x77), (4, 0x80)]) := by decide

/-- Q18, the second put. -/
theorem test_pkPut_overflow :
    (after (exec (.pkPut 0xCD 8) (packing 2 [(0, 0xAB), (1, 0)] 1 8))).map
      (fun s => (s.trap, s.pkBuf)) =
      some (some .codecOverflow, [(0, 0xAB), (1, 0xCD)]) := by decide

/-- Q2 and Q3: a partial byte counts, a spare byte does not. -/
theorem test_pkLen :
    (after (exec .pkLen (packing 256 [(0, 0xAB), (1, 0xC0)] 1 4))).map (·.result) =
      some (.length 2) ∧
    (after (exec .pkLen (packing 256 [(0, 0xAB), (1, 0xCD), (2, 0xEF), (3, 0)] 3 8))).map
      (·.result) = some (.length 3) := by decide

/-- Q16. -/
theorem test_pkBatch_twelve_bits :
    (after (exec (.pkBatch 12 [1, 2, 3, 4, 5, 6, 7, 8]) host)).map (·.result) =
      some (.bytes [0, 0x10, 2, 0, 0x30, 4, 0, 0x50, 6, 0, 0x70, 8]) := by decide

/-- Q3, Q4 and Q6 under LSB_FIRST. -/
theorem test_pkBatch_lsb_first :
    let s := { host with cfg := { cfg with packOrder := .lsbFirst } }
    (after (exec (.pkBatch 12 [0xABC, 0xDEF]) s)).map (·.result) = some (.bytes [0xBC, 0xFA, 0xDE]) ∧
    (after (exec (.pkBatch 1 [1, 0, 1, 1, 0, 0, 1, 0]) s)).map (·.result) = some (.bytes [0x4D]) ∧
    (after (exec (.pkBatch 20 [0xABCDE]) s)).map (·.result) =
      some (.bytes [0xDE, 0xBC, 0x0A]) := by decide

/-- G1. -/
theorem test_upInit :
    (after (exec (.upInit (.bytes [0xAB, 0xCD, 0xEF])) { host with upIdx := 5, upFree := 2 })).map
      (fun s => (s.upSrc, s.upN, s.upIdx, s.upFree)) =
      some (.bytes [0xAB, 0xCD, 0xEF], 3, 0, 8) := by decide

/-- R215: no faults, whatever the length. -/
theorem test_upInit_past_the_pack_buffer :
    (after (exec (.upInit (.pkBuf 3)) (packing 2 [(0, 0xAB)] 0 3))).map
      (fun s => (s.upN, s.upIdx, s.upFree)) = some (3, 0, 8) := by decide

/-- G4, the second get. -/
theorem test_upGet_across_five_bytes :
    (after (exec (.upGet 32) { unpacking [0xEF, 0x56, 0xDF, 0x77, 0x80] with upFree := 7 })).map
      (fun s => (s.result, s.upIdx, s.upFree)) = some (.value 0xDEADBEEF, 4, 7) := by decide

/-- G2, the third get. -/
theorem test_upGet_underrun :
    (after (exec (.upGet 1) { unpacking [0xAB, 0xCD, 0xEF] with upIdx := 3 })).map
      (fun s => (s.trap, s.result)) = some (some .codecUnderrun, .none) := by decide

/-- G5: the padding is read as data. -/
theorem test_upBatch_reads_padding :
    (after (exec (.upBatch 1 8) (unpacking [0xE0]))).map (·.result) =
      some (.values [1, 1, 1, 0, 0, 0, 0, 0]) := by decide

/-- R60: the unpacker pointed at the pack buffer reads the buffer's own bytes. -/
theorem test_upBatch_reads_the_pack_buffer :
    (after (exec (.upBatch 4 2)
      { packing 2 [(0, 0xAB)] 1 8 with upSrc := .pkBuf 1, upN := 1, upReady := true })).map
      (·.result) = some (.values [0xA, 0xB]) := by decide

/-! The replies: vectors B2 to B8 -/

/-- B3. -/
theorem test_rbStream_le :
    (after (exec (.rbStream 0xDEADBEEF) host)).map (·.txStream) =
      some [0xEF, 0xBE, 0xAD, 0xDE] := by decide

/-- B2. -/
theorem test_rbStream_be :
    (after (exec (.rbStream 0xABC) { host with cfg := { cfg with replyOrder := .be } })).map
      (·.txStream) = some [0, 0, 0x0A, 0xBC] := by decide

/-- B8. -/
theorem test_rbCk_payload :
    (after (exec (.rbCk 0xFFFF 0 (.bytes [0xAB, 0xCD, 0xEF])) host)).map (·.txCk) =
      some [0xFF, 9, 0xFF, 0xFF, 0, 0xAB, 0xCD, 0xEF, 0x6D] := by decide

/-- Program 5: the packed stream as a payload. -/
theorem test_rbCk_packed_payload :
    (after (exec (.rbCk 9 0 .packed) (packed [(0, 0), (1, 0x10), (2, 2), (3, 0), (4, 0x30), (5, 4),
      (6, 0), (7, 0x50), (8, 6), (9, 0), (10, 0x70), (11, 8), (12, 0)] 12 8))).map (·.txCk) =
      some [0xFF, 0x12, 0, 9, 0, 0, 0x10, 2, 0, 0x30, 4, 0, 0x50, 6, 0, 0x70, 8, 0x2E] := by decide

/-! The control events: vectors E1 to E7 -/

/-- E1. -/
theorem test_evPreempt_mid_transfer :
    (after (exec .evPreempt { bus with st := .receiving, len := 235, cnt := 2, busy := true })).map
      (fun s => (s.st, s.mode, s.rxie, s.busy, s.len.toNat, s.cnt)) =
      some (.waiting, .hostDebug, false, false, 235, 2) := by decide

/-- E3. -/
theorem test_evPreempt_latched :
    (after (exec .evPreempt (latched 4 [.ok 0]))).map (fun s => (s.cv, s.txStream, s.calls)) =
      some (false, [], []) := by decide

/-- E5. -/
theorem test_evAbort :
    (after (exec .evAbort { bus with st := .lengthPending, busy := true })).map
      (fun s => (s.st, s.busy, s.rxie, s.mode)) =
      some (.waiting, false, true, .peripheralBus) := by decide

/-- E6. -/
theorem test_evEnterBus :
    (after (exec .evEnterBus host)).map (fun s => (s.mode, s.st, s.rxie, s.done)) =
      some (.peripheralBus, .waiting, true, false) := by decide

/-- E7. -/
theorem test_evReset :
    (after (exec .evReset { live1 with st := .receiving, txStream := [1] })).map
      (fun s => (s.en, s.st, s.mode, s.txStream)) = some (0, .waiting, .hostDebug, []) := by rfl

/-! Witnesses: for each statement with hypotheses, a state and operands that meet them all, one for
each clause, at the values where clauses meet -/

theorem witness_DecodeOfEncodeIsIdentity :
    cfg.Legal ∧ (([] : List Byte).length ≤ 249) ∧
    ((Instr.ckFrame []).wellFormed cfg = true ∧ formatOf (.ckFrame []) = some .read) ∧
    ((Instr.cmdWrite 1 0xEBEB).wellFormed cfg = true ∧ formatOf (.cmdWrite 1 0xEBEB) = some .cmd) ∧
    ((Instr.ckRoute 0xFFFF 0x0104 [0, 0]).wellFormed cfg = true ∧
      formatOf (.ckRoute 0xFFFF 0x0104 [0, 0]) = some .creq) := by decide

theorem witness_DecodedIsWellFormed :
    decode cfg .creq [0xFF, 7, 0, 1, 0, 3, 0x0A] = .ok (.ckGetid 1 []) ∧
    readStreamReply cfg [0xBC, 0x0A, 0, 0] = some 0xABC ∧
    readCkReply cfg [0xFF, 6, 0x12, 0x34, 1, 0x4C] = some (0x1234, 1, []) := by decide

theorem witness_StepRunsTheDecodedInstruction :
    { bus with events := [.rx 0xEB] }.events = .rx 0xEB :: [] ∧ bus.events = [] := by decide

theorem witness_StepRunsOnlySelectedOperations :
    host.trap = none ∧ (∃ p : List Byte, p.length = 250 ∧ 249 < p.length) ∧
      formatOf (.rbStream 0) = none :=
  ⟨by decide, ⟨List.replicate 250 0, List.length_replicate,
    by rw [List.length_replicate]; decide⟩, rfl⟩

theorem witness_ByteSelectsItsOperation :
    (host.mode ≠ .peripheralBus ∨ host.rxie = false) ∧
    (bus.mode = .peripheralBus ∧ bus.rxie = true ∧ bus.st = .waiting ∧
      0xEB = bus.cfg.sync ∧ 0xEC ≠ bus.cfg.sync) ∧
    { bus with st := .lengthPending }.st = .lengthPending ∧
    { bus with st := .receiving }.st = .receiving := by decide

theorem witness_SkippedAndMaskedBytesChangeNothing :
    (bus.trap = none ∧ bus.mode = .peripheralBus ∧ bus.rxie = true ∧ bus.st = .waiting ∧
      0xEA ≠ bus.cfg.sync) ∧
    (host.trap = none ∧ (host.mode ≠ .peripheralBus ∨ host.rxie = false)) := by decide

theorem witness_SyncByteOpensTransfer :
    bus.trap = none ∧ bus.mode = .peripheralBus ∧ bus.rxie = true ∧ bus.st = .waiting := by decide

theorem witness_LengthByteStartsPayload :
    let s := { bus with st := .lengthPending }
    s.trap = none ∧ s.mode = .peripheralBus ∧ s.rxie = true ∧ s.st = .lengthPending := by decide

/-- The last byte of a payload of 255, and a byte before the last. -/
theorem witness_DataByteIsStored :
    let s := { bus with st := .receiving, len := 255, cnt := 254 }
    let t := { bus with st := .receiving, len := 2, cnt := 0 }
    (s.trap = none ∧ s.mode = .peripheralBus ∧ s.rxie = true ∧ s.st = .receiving ∧
      s.cnt.toNat < s.len.toNat ∧ s.cnt.toNat + 1 = s.len.toNat) ∧
    (t.trap = none ∧ t.mode = .peripheralBus ∧ t.rxie = true ∧ t.st = .receiving ∧
      t.cnt.toNat < t.len.toNat ∧ t.cnt.toNat + 1 ≠ t.len.toNat) := by decide

theorem witness_WholeFrameIsReceived :
    let s := { bus with events := [.rx 0xEB, .rx 2, .rx 7, .rx 8, .take] }
    s.trap = none ∧ s.mode = .peripheralBus ∧ s.rxie = true ∧ s.st = .waiting ∧
      ([7, 8] : List Byte).length ≤ 255 ∧
      s.events = (s.cfg.sync :: BitVec.ofNat 8 ([7, 8] : List Byte).length :: [7, 8]).map Event.rx ++
        [.take] := by decide

theorem witness_FramerOperationsFrame :
    after (exec (.rxSkip 0) bus) = some bus ∧ after (exec (.rxMasked 0) host) = some host ∧
    (after (exec (.rxSync 0xEB) bus)).isSome ∧
    (after (exec (.rxLen 3) { bus with st := .lengthPending })).isSome ∧
    (after (exec (.rxData 3) { bus with st := .receiving, len := 3 })).isSome := by decide

/-- The empty read, and reads that fail one test each. -/
theorem witness_InvalidFrameIsDropped :
    host.trap = none ∧ host.mode = .hostDebug ∧
    ∀ f ∈ ([[], [0xFF, 7, 0, 1, 0, 3, 0x0B], [0xFE, 7, 0, 1, 0, 3, 9], [0xFF, 8, 0, 1, 0, 3, 0x0B],
        [0xFF, 3, 2]] : List (List Byte)),
      ¬ (7 ≤ f.length ∧ f[0]? = some host.cfg.sof ∧ f[1]?.map BitVec.toNat = some f.length ∧
        f.getLast?.map BitVec.toNat = some ((f.dropLast.map BitVec.toNat).sum % 256)) := by decide

theorem witness_BufferedReadRunsItsOutcome :
    (bus.trap = none ∧ bus.mode = .peripheralBus) ∧ (host.trap = none ∧ host.mode = .hostDebug) ∧
    (∃ f : List Byte, 255 < f.length) ∧ ∃ f : List Byte, f.length = 255 :=
  ⟨by decide, by decide, ⟨List.replicate 256 0, by rw [List.length_replicate]; decide⟩,
    ⟨List.replicate 255 0, List.length_replicate⟩⟩

theorem witness_SingleByteMutationIsRejected :
    host.trap = none ∧ host.mode = .hostDebug ∧
    frameValid host.cfg [0xFF, 7, 0, 1, 0, 3, 0x0A] = true ∧
    6 < ([0xFF, 7, 0, 1, 0, 3, 0x0A] : List Byte).length ∧
    ([0xFF, 7, 0, 1, 0, 3, 0x0A] : List Byte)[6]? ≠ some 0x0B := by decide

theorem witness_GetIdIsAnswered :
    host.trap = none ∧ host.mode = .hostDebug ∧ ([] : List Byte).length ≤ 248 ∧
    ∃ ops : List Byte, ops.length = 248 :=
  ⟨by decide, by decide, by decide, List.replicate 248 0, List.length_replicate⟩

theorem witness_UnroutableCodeIsUnsupported :
    host.trap = none ∧ host.mode = .hostDebug ∧ ([] : List Byte).length ≤ 248 ∧
    (0x7F7F : Half) ≠ 0x0003 ∧ host.cfg.routeOf 0x7F7F [] = none := by decide

/-- A Response, a timeout and a halt; a word for a result, a stream that can be spelt, one that cannot. -/
theorem witness_RoutedCommandIsDispatched :
    host.trap = none ∧ host.mode = .hostDebug ∧ ([0, 0] : List Byte).length ≤ 248 ∧
    (0x0104 : Half) ≠ 0x0003 ∧ host.cfg.routeOf 0x0104 [0, 0] = some (1, 4, 0) ∧
    (dispatch 1 4 0 { host with answers := [.ok 0, .ok 5] }).1 = .response 0 5 ∧
    (dispatch 1 4 0 { host with answers := [.ok 0, .timeout] }).1 = .timeout ∧
    (dispatch 1 4 0 { host with answers := [.halt] }).1 = .halt ∧
    host.cfg.packs 1 4 = false ∧
    (let s := packed [] 0 3
     s.cfg.routeOf 0x0104 [0, 0] = some (1, 4, 0) ∧ s.cfg.packs 1 4 = true ∧
      (dispatch 1 4 0 s).1 = .response 0 0 ∧ s.pkReady = true ∧ s.packLen ≤ 249) ∧
    (let s := packed [] 250 8
     s.cfg.packs 1 4 = true ∧ 249 < s.packLen) ∧
    { packed [] 0 8 with pkReady := false }.pkReady = false := by decide

theorem witness_RepliesEchoTheSequenceId :
    (after (exec (.ckFrame [0xFF, 7, 0x12, 0x34, 0x7F, 0x7F, 0x4A]) host)).isSome ∧
    (after (exec (.ckFrame [0xFF, 7, 0x12, 0x34, 0x7F, 0x7F, 0x4B]) host)).isSome := by decide

theorem witness_ChecksummedOperationsFrame :
    (after (exec (.ckFrame [0xFF, 7, 0, 1, 0, 3, 0x0A]) host)).isSome ∧
    after (exec (.ckDrop []) host) = some host ∧ (after (exec (.ckGetid 1 []) host)).isSome ∧
    (after (exec (.ckUnsup 1 0x7F7F []) host)).isSome ∧
    (after (exec (.ckRoute 1 0x0104 [0, 0]) { host with answers := [.ok 0, .ok 1] })).isSome ∧
    host.cfg.routeOf 0x0104 [0, 0] = some (1, 4, 0) ∧ (2 : Byte) ≠ 1 := by decide

theorem witness_TakeParsesThePayload :
    let s := { bus with done := true, len := 4, rxbuf := [(0, 1), (1, 0), (2, 0x2C), (3, 1)] }
    s.trap = none ∧ s.mode = .peripheralBus ∧ s.done = true ∧ s.cv = false ∧ 4 ≤ s.len.toNat ∧
      Memory.read s.rxbuf 3 = some 1 := by decide

theorem witness_TakeRefusesShortTransfers :
    let s := { bus with done := true, len := 3 }
    (s.trap = none ∧ s.mode = .peripheralBus ∧ s.done = true ∧ s.cv = false ∧ s.len.toNat < 4) ∧
    (bus.trap = none ∧ bus.done = false) ∧ host.mode ≠ .peripheralBus ∧
    { bus with cv := true }.cv = true ∧ bus.cv = false := by decide

theorem witness_ExecDispatchesAndReplies :
    ((latched 4 []).trap = none ∧ (latched 4 []).cv = true) ∧
    (dispatch 1 4 0 (latched 4 [.ok 0, .ok 5])).1 = .response 0 5 ∧
    (dispatch 1 4 0 (latched 4 [.timeout])).1 = .timeout ∧
    (dispatch 1 4 0 (latched 4 [.ok 0, .halt])).1 = .halt := by decide

theorem witness_DispatchIgnoresNewTransfers :
    (after (exec .mExec (latched 4 [.ok 0, .ok 5]))).isSome := by decide

theorem witness_MainLoopFrame :
    (after (exec .mTake { bus with done := true, len := 4, rxbuf := [(0, 1), (1, 0), (2, 2), (3, 1)] })).isSome ∧
    (after (exec .mExec (latched 4 [.ok 0, .ok 5]))).isSome := by decide

theorem witness_DispatchRunsTheSelectedCommand : bus.cfg.Legal ∧ bus.trap = none := by decide

theorem witness_UnknownCommandAnswersSentinel :
    bus.trap = none ∧ bus.cfg.known 1 0x77 = false ∧ bus.cfg.known 0x77 0 = false := by decide

theorem witness_StartInitialisesOnce :
    (live1.trap = none ∧ live1.cfg.known 1 live1.cfg.opStart = true ∧ live1.enabled 1 = true) ∧
    ({ bus with answers := [.ok 0] }.enabled 1 = false ∧
      { bus with answers := [.ok 0] }.nextReply = .ok 0) := by decide

/-- A state in which resource 1 is enabled and its collaborator is about to complete. -/
theorem witness_StopDisables :
    let s := { live1 with answers := [.ok 7] }
    s.trap = none ∧ s.cfg.known 1 s.cfg.opStop = true ∧ s.enabled 1 = true ∧
      s.nextReply = .ok 7 := by decide

theorem witness_SleepAndWakeupArePassedOn :
    let s := { live1 with answers := [.ok 7] }
    s.trap = none ∧ s.enabled 1 = true ∧ s.nextReply = .ok 7 ∧
      s.cfg.known 1 s.cfg.opSleep = true ∧ s.cfg.known 1 s.cfg.opWakeup = true := by decide

theorem witness_HandledCommandsReturnTheWord :
    ∀ r ∈ [Reply.ok 7, .timeout, .halt], ∀ o ∈ ([4, 5, 0x10] : List Byte),
      let s := { live1 with answers := [r] }
      s.trap = none ∧ s.enabled 1 = true ∧ s.cfg.known 1 o = true ∧ s.nextReply = r ∧
        o ∉ [s.cfg.opStart, s.cfg.opStop, s.cfg.opSleep, s.cfg.opWakeup] := by decide

theorem witness_DisabledResourceIsStartedFirst :
    (∀ r ∈ [Reply.ok 7, .timeout, .halt],
      let s := { bus with answers := [r] }
      s.cfg.known 1 4 = true ∧ 4 ≠ s.cfg.opStart ∧ s.enabled 1 = false ∧ s.nextReply = r) ∧
    live1.cfg.known 1 4 = true ∧ 4 ≠ live1.cfg.opStart ∧ live1.enabled 1 = true := by decide

theorem witness_TimeoutEndsTheDispatch :
    let s := { bus with answers := [.timeout] }
    let t := { live1 with answers := [.timeout] }
    (s.cfg.Legal ∧ s.cfg.known 1 4 = true ∧ s.nextReply = .timeout ∧ s.enabled 1 = false) ∧
    (t.nextReply = .timeout ∧ t.enabled 1 = true ∧ t.cfg.known 1 1 = true ∧ 1 = t.cfg.opStop) ∧
    ∀ o ∈ ([2, 3, 4, 5, 0x10] : List Byte),
      o ≠ t.cfg.opStart ∧ o ≠ t.cfg.opStop ∧ t.cfg.known 1 o = true := by decide

/-- `start` of a disabled resource, and each other command of an enabled one. -/
theorem witness_HaltRaisesDebugHalt :
    let s := { live1 with answers := [.halt] }
    let t := { bus with answers := [.halt] }
    (t.cfg.Legal ∧ t.trap = none ∧ t.cfg.known 1 0 = true ∧ t.nextReply = .halt ∧
      ¬ (0 = t.cfg.opStart ∧ t.enabled 1 = true)) ∧
    s.cfg.Legal ∧ s.trap = none ∧ s.nextReply = .halt ∧
    ∀ o ∈ ([1, 2, 3, 4, 5, 0x10] : List Byte),
      s.cfg.known 1 o = true ∧ ¬ (o = s.cfg.opStart ∧ s.enabled 1 = true) := by decide

theorem witness_AutoInitEqualsExplicitStart :
    let s := { bus with answers := [.ok 0, .ok 0xABC] }
    s.cfg.Legal ∧ s.enabled 1 = false ∧ s.nextReply = .ok 0 ∧ s.cfg.known 1 4 = true ∧
      4 ≠ s.cfg.opStart := by decide

theorem witness_StepKeepsStartDiscipline :
    { latched 4 [.ok 0, .ok 5] with events := [.exec] }.StartDiscipline ∧
    (after (step { latched 4 [.ok 0, .ok 5] with events := [.exec] })).isSome := by
  refine ⟨fun a => ⟨?_, ?_⟩, by decide⟩
  · intro pre mid post k k' h
    simp [latched, bus, host, State.resetOf] at h
  · intro _ pre post k h
    simp [latched, bus, host, State.resetOf] at h

theorem witness_CommandsFrame :
    (after (exec (.cmdInvalid 1 0x77 0) bus)).isSome ∧ (after (exec (.cmdStart 1 0) live1)).isSome ∧
    ∀ i ∈ [Instr.cmdStop 1 0, .cmdSleep 1 0, .cmdWakeup 1 0, .cmdRead 1 0, .cmdWrite 1 0,
        .cmdRspec 1 0x10 0],
      (after (exec i { live1 with answers := [.ok 7] })).isSome := by decide

theorem witness_PackInitStartsAStream : host.trap = none := by decide

/-- A put that leaves one bit of the buffer free. -/
theorem witness_PutAppendsTheLowBits :
    let s := packing 2 [(0, 0x80)] 0 7
    s.trap = none ∧ s.cfg.packOrder = .msbFirst ∧ s.pkReady = true ∧ s.PackInv ∧ s.PackClean ∧
      s.packPos + 14 < 8 * s.cfg.pkbufSize := by
  refine ⟨by decide, by decide, by decide, by decide, ?_, by decide⟩
  intro k _ h
  have hk : k < 8 := h
  interval_cases k <;> first | rfl | (exfalso; revert ‹_ ≤ _›; decide)

/-- A put that fills the buffer to its last bit. -/
theorem witness_PutPastTheEndOverflows :
    let s := packing 2 [(0, 0x80)] 0 7
    s.trap = none ∧ s.cfg.packOrder = .msbFirst ∧ s.pkReady = true ∧ s.PackInv ∧ s.PackClean ∧
      8 * s.cfg.pkbufSize ≤ s.packPos + 15 := by
  obtain ⟨h1, h2, h3, h4, h5, -⟩ := witness_PutAppendsTheLowBits
  exact ⟨h1, h2, h3, h4, h5, by decide⟩

theorem witness_LengthCountsThePartialByte :
    (let s := packing 2 [] 0 1; s.trap = none ∧ s.pkReady = true ∧ 1 ≤ s.pkFree ∧ s.pkFree ≤ 8) ∧
    (let s := packing 2 [] 1 8; s.trap = none ∧ s.pkReady = true ∧ 1 ≤ s.pkFree ∧ s.pkFree ≤ 8) := by
  decide

/-- Batches of 15 and of 16 bits into a buffer of 2 bytes, and an empty one. -/
theorem witness_BatchPacksEveryValue :
    let s := packing 2 [] 0 8
    s.trap = none ∧ s.cfg.packOrder = .msbFirst ∧ 1 ≤ s.cfg.pkbufSize ∧
      ([1, 2, 3] : List Word).length * 5 < 8 * s.cfg.pkbufSize ∧
      8 * s.cfg.pkbufSize ≤ ([1, 2] : List Word).length * 8 ∧
      ([] : List Word).length * 0 < 8 * s.cfg.pkbufSize ∧
      host.trap = none ∧ host.pkReady = false ∧ 249 < (packing 512 [] 249 4).packLen := by decide

theorem witness_UnpackInitPointsAtItsSource :
    host.trap = none ∧
    (let s := unpacking [7, 8]; s.upSrc = .bytes [7, 8] ∧ 1 < ([7, 8] : List Byte).length) ∧
    { host with upSrc := .pkBuf 2 }.upSrc = .pkBuf 2 := by decide

/-- 12 bits of 24 left, and 1 bit of none. -/
theorem witness_GetReadsTheNextBits :
    let s := { unpacking [0xAB, 0xCD, 0xEF] with upIdx := 1, upFree := 4 }
    let t := { unpacking [0xAB, 0xCD, 0xEF] with upIdx := 3 }
    (s.trap = none ∧ s.cfg.packOrder = .msbFirst ∧ s.upReady = true ∧ s.UnpackInv ∧
      s.unpackPos + 12 ≤ 8 * s.upN) ∧
    (t.UnpackInv ∧ 8 * t.upN < t.unpackPos + 1) := by decide

theorem witness_BatchGetsEveryValue :
    let s := unpacking [0xAB, 0xCD, 0xEF]
    s.trap = none ∧ s.cfg.packOrder = .msbFirst ∧ s.upReady = true ∧ s.UnpackInv ∧
      s.unpackPos + 2 * 12 ≤ 8 * s.upN ∧ 8 * s.upN < s.unpackPos + 5 * 5 := by decide

theorem witness_UnpackInvertsPack :
    let s := packing 2 [] 0 8
    let ps : List (Word × Nat) := [(5, 3), (0x2A5, 10), (1, 2)]
    s.trap = none ∧ s.cfg.packOrder = .msbFirst ∧ (∀ p ∈ ps, 1 ≤ p.2 ∧ p.2 ≤ 32) ∧
      (ps.map Prod.snd).sum < 8 * s.cfg.pkbufSize := by decide

theorem witness_CodecRefusals :
    host.trap = none ∧ ((0 : Nat) = 0 ∨ 32 < 0) ∧ (33 = 0 ∨ 32 < 33) ∧
      host.pkReady = false ∧ host.upReady = false := by decide

theorem witness_CodecFrame :
    (after (exec .pkInit host)).isSome ∧ (after (exec (.pkPut 1 3) (packing 2 [(0, 0)] 0 8))).isSome ∧
    (after (exec (.pkBatch 3 [1, 2]) host)).isSome ∧
    (after (exec .pkLen (packing 2 [(0, 0)] 0 8))).isSome ∧
    (after (exec (.upInit (.bytes [1])) host)).isSome ∧
    (after (exec (.upGet 3) (unpacking [1]))).isSome ∧
    (after (exec (.upBatch 3 2) (unpacking [1]))).isSome := by decide

theorem witness_StreamingReplyIsFourBytes :
    host.trap = none ∧ host.cfg.replyOrder = .le ∧
    { host with cfg := { cfg with replyOrder := .be } }.cfg.replyOrder = .be := by decide

theorem witness_ChecksummedReplyLayout :
    host.trap = none ∧ ([] : List Byte).length ≤ 249 ∧ ∃ p : List Byte, p.length = 249 :=
  ⟨by decide, by decide, List.replicate 249 0, List.length_replicate⟩

theorem witness_PreemptionDiscardsTheTransfer :
    (bus.trap = none ∧ bus.mode = .peripheralBus) ∧ (host.trap = none ∧ host.mode = .hostDebug) := by
  decide

theorem witness_AbortAndEnterBusResetTheTransfer :
    { bus with st := .receiving, busy := true, done := true }.trap = none := by decide

theorem witness_ResetGivesTheResetValues :
    1 ≤ { live1 with trap := some .debugHalt, calls := [⟨.stop, 1, .done⟩] }.cfg.pkbufSize := by decide

theorem witness_DebugHaltEnablesOnlyReset :
    { latched 4 [] with trap := some .debugHalt }.trap = some .debugHalt ∧
    Instr.mExec ≠ .evReset := by decide

theorem witness_CodecFaultStopsTheMachine :
    { host with trap := some .codecOverflow }.trap = some .codecOverflow ∧
    { host with trap := some .codecUnderrun }.trap = some .codecUnderrun ∧
    Instr.pkLen ≠ .evReset ∧
    faultOf (exec .pkLen { host with trap := some .codecOverflow }) = some .codecOverflow := by decide

theorem witness_RepliesAndEventsFrame :
    (after (exec (.rbStream 1) host)).isSome ∧ (after (exec (.rbCk 1 0 (.bytes [])) host)).isSome ∧
    (after (exec (.rbCk 1 0 .packed) (packed [(0, 0)] 0 3))).isSome ∧
    (after (exec .evAbort bus)).isSome ∧ (after (exec .evPreempt bus)).isSome ∧
    (after (exec .evEnterBus host)).isSome := by decide

/-- A state in the middle of a transfer, with a stream packed and a resource enabled. -/
theorem witness_StepKeepsTheInvariant :
    let s := { live1 with st := .receiving, len := 4, cnt := 1, rxbuf := [(0, 1)], busy := true,
                          events := [.rx 5], pkBuf := [(0, 0x80)], pkFree := 7, pkReady := true }
    s.Inv ∧ (after (step s)).isSome := by
  refine ⟨⟨by decide, by decide, by decide, ⟨by decide, ?_⟩, by decide, by decide, by decide⟩,
    by decide⟩
  intro a
  revert a
  decide

theorem witness_HistoriesGrowOnlyByReplies :
    let s := { latched 4 [.ok 0, .ok 5] with events := [.exec] }
    s.events = .exec :: [] ∧ Event.exec ≠ .reset ∧ (after (step s)).isSome := by decide

theorem witness_OnlyTheOwnersWrite :
    let s := { bus with events := [.preempt] }
    s.events = .preempt :: [] ∧ Event.preempt ≠ .reset ∧ (after (step s)).isSome := by decide

end Sys2Proof.Tests
end

section
/-! The statements of the spec's scope: what one step is. -/

namespace Sys2Proof.Machine

/-- Settles O4: the two cases of `step`, an event pending and none. Delivering `e` from `e :: es`
leaves `es` pending. -/
theorem stepRunsTheDecodedInstruction : Obligations.StepRunsTheDecodedInstruction := by
  refine ⟨fun s e es h => ?pending, fun s h => step_idle h⟩
  case pending =>
    have delivered_eq : s.delivered = { s with events := es } := by simp [State.delivered, h]
    rw [step_of_event h, delivered_eq]

end Sys2Proof.Machine
end

section
/-! What each operation that an event causes can do when it answers a next state: one inversion lemma
per operation, and the table of what a step may write, by its event. -/

namespace Sys2Proof.Machine

variable {s t : State}

/-! Inversion -/

theorem next_inj {u : State} (h : (.next u : Host.Outcome State Fault Refusal) = .next t) : t = u := by
  injection h with h
  exact h.symm

/-- A guard that refuses lets only its other branch answer a next state. -/
theorem next_of_refused_else {c : Prop} [Decidable c] {r : Refusal}
    {k : Host.Outcome State Fault Refusal} (h : (if c then .refused r else k) = .next t) :
    k = .next t := by
  split at h
  · cases h
  · exact h

/-- Under `live` an operation that can only answer `u` answers `u`, or nothing happens. -/
theorem live_answers {u : State} {k : Host.Outcome State Fault Refusal}
    (hk : k = .next t → t = u) (h : live s k = .next t) : t = s ∨ t = u := by
  rcases live_next h with ⟨-, h⟩ | ⟨-, h⟩
  exacts [.inr (hk h), .inl h]

theorem State.masked_eq_false : s.masked = false ↔ s.mode = .peripheralBus ∧ s.rxie = true := by
  simp [State.masked]

/-- A byte operation that an unmasked byte selects changes the state on the bus alone (R130). -/
theorem whenSelected_onBus {sel : Bool} {k : Host.Outcome State Fault Refusal}
    (hsel : sel = true → s.masked = false) (h : whenSelected s sel k = .next t) :
    t = s ∨ s.mode = .peripheralBus ∧ k = .next t := by
  rcases whenSelected_next h with ⟨-, hs, hk⟩ | ⟨-, h⟩
  · exact .inr ⟨(State.masked_eq_false.1 (hsel hs)).1, hk⟩
  · exact .inl h

/-- RX.LEN of 0 completes the transfer, of any other length starts the payload (R133). -/
theorem State.lengthTaken_cases (s : State) (b : Byte) :
    b = 0 ∧ s.lengthTaken b = ({ s with len := b, cnt := 0 } : State).complete ∨
      b ≠ 0 ∧ s.lengthTaken b = { s with len := b, cnt := 0, st := .receiving } := by
  by_cases hb : b = 0
  exacts [.inl ⟨hb, if_pos hb⟩, .inr ⟨hb, if_neg hb⟩]

/-- `RXBUF[CNT] <- b; CNT <- CNT + 1` (R134). -/
def State.appended (s : State) (b : Byte) : State :=
  { s with rxbuf := Memory.write s.rxbuf s.cnt.toNat b, cnt := s.cnt + 1 }

/-- RX.DATA appends the byte, and completes the transfer when the count is the length (R134). -/
theorem State.dataTaken_cases (s : State) (b : Byte) :
    s.cnt + 1 = s.len ∧ s.dataTaken b = (s.appended b).complete ∨
      s.cnt + 1 ≠ s.len ∧ s.dataTaken b = s.appended b := by
  by_cases h : s.cnt + 1 = s.len
  exacts [.inl ⟨h, if_pos h⟩, .inr ⟨h, if_neg h⟩]

theorem execRxSkip_next {b : Byte} (h : execRxSkip b s = .next t) : t = s := by
  rcases whenSelected_next h with ⟨-, -, h⟩ | ⟨-, h⟩
  exacts [next_inj h, h]

theorem execRxMasked_next {b : Byte} (h : execRxMasked b s = .next t) : t = s := by
  rcases whenSelected_next h with ⟨-, -, h⟩ | ⟨-, h⟩
  exacts [next_inj h, h]

theorem execRxSync_next {b : Byte} (h : execRxSync b s = .next t) :
    t = s ∨ s.mode = .peripheralBus ∧ t = { s.raiseBusy with st := .lengthPending } := by
  rcases whenSelected_onBus (fun hs => by simp_all) h with h | ⟨hm, h⟩
  exacts [.inl h, .inr ⟨hm, next_inj h⟩]

theorem execRxLen_next {b : Byte} (h : execRxLen b s = .next t) :
    t = s ∨ s.mode = .peripheralBus ∧ t = s.lengthTaken b := by
  rcases whenSelected_onBus (fun hs => by simp_all) h with h | ⟨hm, h⟩
  exacts [.inl h, .inr ⟨hm, next_inj h⟩]

theorem execRxData_next {b : Byte} (h : execRxData b s = .next t) :
    t = s ∨ s.mode = .peripheralBus ∧ s.cnt.toNat < Config.rxbufSize ∧ t = s.dataTaken b := by
  rcases whenSelected_onBus (fun hs => by simp_all) h with h | ⟨hm, h⟩
  · exact .inl h
  · split at h
    · exact .inr ⟨hm, ‹_›, next_inj h⟩
    · cases h

theorem execCkDrop_next {f : List Byte} (h : execCkDrop f s = .next t) : t = s := by
  rcases frameOutcome_next h with ⟨-, -, -, h⟩ | ⟨-, h⟩ <;> exact h

theorem execCkGetid_next {seq : Half} {ops : List Byte} (h : execCkGetid seq ops s = .next t) :
    t = s ∨ t = s.replyFrame seq Config.stOk [s.cfg.family, s.cfg.ident] := by
  rcases frameOutcome_next h with ⟨-, -, -, h⟩ | ⟨-, h⟩
  exacts [.inr h, .inl h]

theorem execCkUnsup_next {seq code : Half} {ops : List Byte}
    (h : execCkUnsup seq code ops s = .next t) :
    t = s ∨ t = s.replyFrame seq s.cfg.stUnsupported [] := by
  rcases frameOutcome_next h with ⟨-, -, -, h⟩ | ⟨-, h⟩
  exacts [.inr h, .inl h]

theorem execCkRoute_next {seq code : Half} {ops : List Byte}
    (h : execCkRoute seq code ops s = .next t) :
    t = s ∨ ∃ a o x, s.cfg.routeOf code ops = some (a, o, x) ∧
      t = finishRoute (s.cfg.packs a o) seq (dispatch a o x s) := by
  unfold execCkRoute at h
  split at h
  case h_1 a o x hr =>
    rcases frameOutcome_next h with ⟨-, -, -, h⟩ | ⟨-, h⟩
    exacts [.inr ⟨a, o, x, hr, h⟩, .inl h]
  case h_2 => rcases frameOutcome_next h with ⟨-, -, -, h⟩ | ⟨-, h⟩ <;> exact .inl h

/-- The outcomes of a loaded read: nothing, a reply, or a dispatch of the routed triple (R103). -/
theorem runFrame_next (h : runFrame s = .next t) :
    t = s ∨ (∃ seq status p, t = s.replyFrame seq status p) ∨
      ∃ seq code ops a o x, decodeFrame s.cfg s.frameBytes = .ckRoute seq code ops ∧
        s.cfg.routeOf code ops = some (a, o, x) ∧
        t = finishRoute (s.cfg.packs a o) seq (dispatch a o x s) := by
  unfold runFrame at h
  split at h
  case h_1 =>
    rcases execCkGetid_next h with h | h
    exacts [.inl h, .inr (.inl ⟨_, _, _, h⟩)]
  case h_2 hd =>
    rcases execCkRoute_next h with h | ⟨a, o, x, hr, h⟩
    exacts [.inl h, .inr (.inr ⟨_, _, _, a, o, x, hd, hr, h⟩)]
  case h_3 =>
    rcases execCkUnsup_next h with h | h
    exacts [.inl h, .inr (.inl ⟨_, _, _, h⟩)]
  case h_4 => exact .inl (execCkDrop_next h)

theorem execCkFrame_next {f : List Byte} (h : execCkFrame f s = .next t) :
    t = s ∨ f.length ≤ Config.fbufSize ∧ runFrame (s.loadFrame f) = .next t := by
  rcases live_next h with ⟨-, h⟩ | ⟨-, h⟩
  · split at h
    · exact .inl (next_inj h)
    split at h
    · exact .inl (next_inj h)
    · exact .inr ⟨Nat.le_of_not_lt ‹_›, h⟩
  · exact .inl h

theorem execMTake_next (h : execMTake s = .next t) :
    t = s ∨ s.mode = .peripheralBus ∧ t = s.taken := by
  rcases live_next h with ⟨-, h⟩ | ⟨-, h⟩
  · split at h
    case isTrue he =>
      simp only [State.takeEnabled, Bool.and_eq_true, beq_iff_eq] at he
      obtain ⟨⟨hbus, -⟩, -⟩ := he
      exact .inr ⟨hbus, next_inj (next_of_refused_else h)⟩
    case isFalse => exact .inl (next_inj h)
  · exact .inl h

theorem execMExec_next (h : execMExec s = .next t) :
    t = s ∨ s.cv = true ∧ t = finishExec (dispatch s.ca s.co s.cx s) := by
  rcases live_next h with ⟨-, h⟩ | ⟨-, h⟩
  · split at h
    · exact .inr ⟨‹_›, next_inj h⟩
    · exact .inl (next_inj h)
  · exact .inl h

theorem execPkInit_next (h : execPkInit s = .next t) : t = s ∨ t = s.packStarted :=
  live_answers next_inj h

theorem execPkPut_next {v : Word} {width : Nat} (h : execPkPut v width s = .next t) :
    t = s ∨ t = s.packed v width :=
  live_answers (fun h => next_inj (next_of_refused_else (next_of_refused_else h))) h

theorem execPkLen_next (h : execPkLen s = .next t) :
    t = s ∨ t = s.answer (.length s.packLen) :=
  live_answers (fun h => next_inj (next_of_refused_else h)) h

theorem execPkBatch_next {width : Nat} {vs : List Word} (h : execPkBatch width vs s = .next t) :
    t = s ∨ t = (packAll width vs s.packStarted).batchDone :=
  live_answers (fun h => next_inj (next_of_refused_else h)) h

theorem execUpInit_next {src : UpSource} (h : execUpInit src s = .next t) :
    t = s ∨ t = s.unpackStarted src :=
  live_answers next_inj h

theorem execUpGet_next {width : Nat} (h : execUpGet width s = .next t) :
    t = s ∨ t = answerGet (s.unpacked width) :=
  live_answers (fun h => next_inj (next_of_refused_else (next_of_refused_else h))) h

theorem execUpBatch_next {width n : Nat} (h : execUpBatch width n s = .next t) :
    t = s ∨ t = answerBatch (unpackAll width n s) :=
  live_answers (fun h => next_inj (next_of_refused_else (next_of_refused_else h))) h

theorem execEvPreempt_next (h : execEvPreempt s = .next t) :
    t = s ∨ t = { s.discarded with rxie := false, mode := .hostDebug } := by
  rcases live_next h with ⟨-, h⟩ | ⟨-, h⟩
  · split at h
    exacts [.inr (next_inj h), .inl (next_inj h)]
  · exact .inl h

theorem execEvAbort_next (h : execEvAbort s = .next t) : t = s ∨ t = s.discarded :=
  live_answers next_inj h

theorem execEvEnterBus_next (h : execEvEnterBus s = .next t) :
    t = s ∨ t = { s.discarded with mode := .peripheralBus, rxie := true } :=
  live_answers next_inj h

/-- A step does nothing, or runs the operation that the oldest event causes (R6). -/
theorem step_next (h : step s = .next t) :
    t = s ∨ ∃ e es, s.events = e :: es ∧ exec (s.eventInstr e) s.delivered = .next t := by
  cases he : s.events with
  | nil =>
    rw [step_idle he] at h
    exact .inl (next_inj h)
  | cons e es =>
    rw [step_of_event he] at h
    exact .inr ⟨e, es, rfl, h⟩

end Sys2Proof.Machine
end

section
/-! What a step may write, by its event (R72): the table, and that every operation keeps to it. A frame
says that `t`, with the fields that may differ set back to those of `s`, is `s`; `congrArg` reads any
other field off it, or sets back more fields. -/

namespace Sys2Proof.Machine

variable {s t u : State}

/-- `t` with the codec, the answer and the fault state of `s`. -/
def State.withCodecOf (t s : State) : State :=
  { t with pkBuf := s.pkBuf, pkIdx := s.pkIdx, pkFree := s.pkFree, pkReady := s.pkReady,
           upSrc := s.upSrc, upN := s.upN, upIdx := s.upIdx, upFree := s.upFree,
           upReady := s.upReady, result := s.result, trap := s.trap }

/-- `t` with what CK.ROUTE may write (R166) as it is in `s`. -/
def State.withRouteOf (t s : State) : State :=
  { t with txCk := s.txCk, en := s.en, calls := s.calls, answers := s.answers, draws := s.draws,
           trap := s.trap }

/-- `t` with what CK.FRAME may write (R161, R166) as it is in `s`. -/
def State.withFrameOf (t s : State) : State :=
  { t with fbuf := s.fbuf, flen := s.flen, txCk := s.txCk, en := s.en, calls := s.calls,
           answers := s.answers, draws := s.draws, trap := s.trap }

/-- `t` with what M.EXEC may write (R184) as it is in `s`. -/
def State.withExecOf (t s : State) : State :=
  { t with txStream := s.txStream, cv := s.cv, busy := s.busy, st := s.st, done := s.done,
           en := s.en, calls := s.calls, answers := s.answers, draws := s.draws, trap := s.trap }

/-- `t` is `s` but for what the operation that an event causes may write. -/
def EventFrame : Event → State → State → Prop
  | .rx _, s, t => { t with st := s.st, len := s.len, cnt := s.cnt, rxbuf := s.rxbuf,
                            done := s.done, busy := s.busy } = s
  | .ck _, s, t => t.withFrameOf s = s
  | .take, s, t => { t with ca := s.ca, co := s.co, cx := s.cx, cv := s.cv, done := s.done,
                            rxie := s.rxie } = s
  | .exec, s, t => t.withExecOf s = s
  | .preempt, s, t | .enterBus, s, t => { t with st := s.st, done := s.done, cv := s.cv,
                                                 busy := s.busy, mode := s.mode,
                                                 rxie := s.rxie } = s
  | .abort, s, t => { t with st := s.st, done := s.done, cv := s.cv, busy := s.busy } = s
  | .reset, _, _ => True
  | .pkInit, s, t | .pkPut _ _, s, t | .pkLen, s, t | .pkBatch _ _, s, t | .upInit _, s, t
  | .upGet _, s, t | .upBatch _ _, s, t => t.withCodecOf s = s

/-! The codec -/

theorem withCodecOf_trans (hst : t.withCodecOf s = s) (htu : u.withCodecOf t = t) :
    u.withCodecOf s = s :=
  (congrArg (State.withCodecOf · s) htu).trans hst

theorem packed_withCodecOf (v : Word) (width : Nat) : (s.packed v width).withCodecOf s = s :=
  (congrArg (State.withCodecOf · s) (packed_rest s v width) :)

theorem batchDone_withCodecOf : s.batchDone.withCodecOf s = s := by
  unfold State.batchDone
  split <;> rfl

theorem packBatch_withCodecOf (width : Nat) (vs : List Word) :
    (packAll width vs s.packStarted).batchDone.withCodecOf s = s := by
  have hinit : s.packStarted.withCodecOf s = s := rfl
  have hputs : (packAll width vs s.packStarted).withCodecOf s.packStarted = s.packStarted :=
    (congrArg (State.withCodecOf · s.packStarted) (packAll_rest width vs s.packStarted) :)
  exact withCodecOf_trans (withCodecOf_trans hinit hputs) batchDone_withCodecOf

theorem answerGet_withCodecOf (width : Nat) :
    (answerGet (s.unpacked width)).withCodecOf s = s := by
  have hget := congrArg (State.withCodecOf · s) (unpacked_rest s width)
  generalize s.unpacked width = r at hget ⊢
  obtain ⟨_ | v, t⟩ := r <;> exact hget

theorem answerBatch_withCodecOf (width n : Nat) :
    (answerBatch (unpackAll width n s)).withCodecOf s = s := by
  have hgets := congrArg (State.withCodecOf · s) (unpackAll_rest width n s)
  generalize unpackAll width n s = r at hgets ⊢
  obtain ⟨_ | vs, t⟩ := r <;> exact hgets

/-! The dispatching operations -/

/-- After its dispatch CK.ROUTE writes only the reply, a draw and the fault state (R166). -/
theorem finishRoute_rest (packs : Bool) (seq : Half) (r : DispatchEnd × State) :
    { finishRoute packs seq r with txCk := r.2.txCk, draws := r.2.draws, trap := r.2.trap } =
      r.2 := by
  obtain ⟨_ | _ | _, d⟩ := r
  case response status w =>
    cases packs
    · rfl
    · rcases d.replyPacked_sends seq status with ⟨-, -, h⟩ | ⟨-, p, -, h⟩ <;>
        (simp only [finishRoute, if_true, h]; rfl)
  all_goals rfl

theorem finishRoute_en (packs : Bool) (seq : Half) (r : DispatchEnd × State) :
    (finishRoute packs seq r).en = r.2.en :=
  (congrArg State.en (finishRoute_rest packs seq r) :)

theorem route_withRouteOf (packs : Bool) (seq : Half) (a o : Byte) (x : Half) :
    (finishRoute packs seq (dispatch a o x s)).withRouteOf s = s :=
  (congrArg (State.withRouteOf · s) (finishRoute_rest packs seq (dispatch a o x s)) :).trans
    (congrArg (State.withRouteOf · s) (dispatch_rest a o x s) :)

theorem finishExec_withExecOf (r : DispatchEnd × State) :
    (finishExec r).withExecOf r.2 = r.2 := by
  obtain ⟨_ | _ | _, d⟩ := r <;> rfl

theorem exec_withExecOf (a o : Byte) (x : Half) :
    (finishExec (dispatch a o x s)).withExecOf s = s :=
  (congrArg (State.withExecOf · s) (finishExec_withExecOf _)).trans
    (congrArg (State.withExecOf · s) (dispatch_rest a o x s) :)

theorem runFrame_withRouteOf (h : runFrame s = .next t) : t.withRouteOf s = s := by
  rcases runFrame_next h with rfl | ⟨_, _, _, rfl⟩ | ⟨_, _, _, _, _, _, -, -, rfl⟩
  exacts [rfl, rfl, route_withRouteOf ..]

/-! The table -/

/-- Whatever a received byte selects (R100) writes only the framer's registers, `BUSY` and `RXBUF`. -/
theorem decodeByte_eventFrame {b : Byte}
    (h : exec (decodeByte s.cfg s.masked s.st b) s = .next t) : EventFrame (.rx b) s t := by
  unfold decodeByte at h
  split at h
  · rw [execRxMasked_next (b := b) h]; rfl
  split at h
  · split at h
    · rcases execRxSync_next h with rfl | ⟨-, rfl⟩ <;> rfl
    · rw [execRxSkip_next h]; rfl
  · rcases execRxLen_next h with rfl | ⟨-, rfl⟩
    · rfl
    · rcases s.lengthTaken_cases b with ⟨-, h⟩ | ⟨-, h⟩ <;> rw [h] <;> rfl
  · rcases execRxData_next h with rfl | ⟨-, -, rfl⟩
    · rfl
    · rcases s.dataTaken_cases b with ⟨-, h⟩ | ⟨-, h⟩ <;> rw [h] <;> rfl

/-- Every operation that an event causes writes only what the table says. -/
theorem exec_eventFrame {e : Event} (h : exec (s.eventInstr e) s = .next t) :
    EventFrame e s t := by
  cases e with
  | rx b =>
    exact decodeByte_eventFrame h
  | ck f =>
    rcases execCkFrame_next h with rfl | ⟨-, h⟩
    · rfl
    · exact (congrArg (State.withFrameOf · s) (runFrame_withRouteOf h) :)
  | take => rcases execMTake_next h with rfl | ⟨-, rfl⟩ <;> rfl
  | exec =>
    rcases execMExec_next h with rfl | ⟨-, rfl⟩
    exacts [rfl, exec_withExecOf ..]
  | preempt => rcases execEvPreempt_next h with rfl | rfl <;> rfl
  | abort => rcases execEvAbort_next h with rfl | rfl <;> rfl
  | enterBus => rcases execEvEnterBus_next h with rfl | rfl <;> rfl
  | reset => trivial
  | pkInit => rcases execPkInit_next h with rfl | rfl <;> rfl
  | pkPut v width =>
    rcases execPkPut_next h with rfl | rfl
    exacts [rfl, packed_withCodecOf v width]
  | pkLen => rcases execPkLen_next h with rfl | rfl <;> rfl
  | pkBatch width vs =>
    rcases execPkBatch_next h with rfl | rfl
    exacts [rfl, packBatch_withCodecOf width vs]
  | upInit src => rcases execUpInit_next h with rfl | rfl <;> rfl
  | upGet width =>
    rcases execUpGet_next h with rfl | rfl
    exacts [rfl, answerGet_withCodecOf width]
  | upBatch width n =>
    rcases execUpBatch_next h with rfl | rfl
    exacts [rfl, answerBatch_withCodecOf width n]

end Sys2Proof.Machine
end

section
/-! The invariant of the block (R23, R26, R33, R35 to R39, R60 to R63, R327): it holds after a reset,
and every operation that an event causes keeps it. -/

namespace Sys2Proof

/-- A pair that is known names a resource of the registry (R101, R181). -/
theorem Config.hasResource_of_known {c : Config} {a o : Byte}
    (h : c.known a o = true) :
    c.hasResource a = true := by
  unfold Config.known at h
  unfold Config.hasResource
  cases hc : c.capsOf a <;> simp_all

end Sys2Proof

namespace Sys2Proof.Machine

variable {s t : State}

/-! Buffers -/

theorem Memory.Within.nil (size : Nat) : Memory.Within [] size :=
  ⟨List.Pairwise.nil, fun _ hp => by cases hp⟩

theorem Memory.Within.write {m : Memory} {size i : Nat} (h : m.Within size) (hi : i < size)
    (v : Byte) : (Memory.write m i v).Within size := by
  refine ⟨Memory.write_wf h.1 i v, fun p hp => ?_⟩
  rcases Memory.mem_write hp with rfl | hp
  exacts [hi, h.2 p hp]

theorem Memory.Within.writeAll {size : Nat} (bs : List Byte) {m : Memory} {i : Nat}
    (h : m.Within size) (hi : i + bs.length ≤ size) : (Memory.writeAll m i bs).Within size := by
  induction bs generalizing m i with
  | nil => exact h
  | cons b bs ih =>
    rw [List.length_cons] at hi
    exact ih (h.write (by omega) b) (by omega)

/-! The codec's part -/

/-- The part of the invariant that speaks of the codec. -/
def State.CodecInv (s : State) : Prop :=
  s.pkBuf.Within s.cfg.pkbufSize ∧ s.PackInv ∧ s.UnpackInv

theorem State.CodecInv.packChunk (h : s.CodecInv) (v : Word) (width rem : Nat) :
    (s.packChunk v width rem).CodecInv := by
  obtain ⟨hbuf, hpk, hup⟩ := h
  exact ⟨hbuf.write hpk.1 _, hpk, hup⟩

theorem State.CodecInv.packAdvanced (h : s.CodecInv) (hi : s.pkIdx + 1 < s.cfg.pkbufSize) :
    s.packAdvanced.CodecInv := by
  obtain ⟨hbuf, -, hup⟩ := h
  exact ⟨hbuf.write hi 0, ⟨hi, by simp, by simp⟩, hup⟩

theorem State.CodecInv.packStarted (h : s.CodecInv) (hsize : 1 ≤ s.cfg.pkbufSize) :
    s.packStarted.CodecInv := by
  obtain ⟨hbuf, -, hup⟩ := h
  exact ⟨hbuf.write hsize 0, ⟨hsize, Nat.le_add_left 1 7, le_rfl⟩, hup⟩

theorem State.CodecInv.packLoop (v : Word) (width fuel rem : Nat) (h : s.CodecInv) :
    (packLoop v width fuel rem s).CodecInv := by
  induction fuel generalizing rem s with
  | zero => exact h
  | succ fuel ih =>
    have hchunk := h.packChunk v width rem
    unfold Machine.packLoop
    split
    · exact h
    split
    · exact h
    split
    · obtain ⟨hbuf, ⟨hidx, -, hfree⟩, hup⟩ := hchunk
      simp only [State.packChunk_pkFree] at hfree
      exact ⟨hbuf, ⟨hidx, by dsimp; omega, by dsimp; omega⟩, hup⟩
    split
    · exact hchunk
    · exact ih _ (hchunk.packAdvanced (by simpa using ‹¬ _ ≤ _ + 1›))

theorem State.CodecInv.packAll (width : Nat) (vs : List Word) (h : s.CodecInv) :
    (packAll width vs s).CodecInv := by
  induction vs generalizing s with
  | nil => exact h
  | cons v vs ih =>
    have hput : (s.packed v width).CodecInv := h.packLoop v width _ width
    simp only [Machine.packAll]
    split
    exacts [hput, ih hput]

theorem State.CodecInv.batchDone (h : s.CodecInv) : s.batchDone.CodecInv := by
  unfold State.batchDone
  split <;> exact h

theorem State.CodecInv.unpackLoop (width fuel rem acc : Nat) (h : s.CodecInv) :
    (unpackLoop width fuel rem acc s).2.CodecInv := by
  induction fuel generalizing rem acc s with
  | zero => exact h
  | succ fuel ih =>
    have ⟨hbuf, hpk, hsrc, hidx, _, hfree⟩ := h
    unfold Machine.unpackLoop
    split
    · exact h
    split
    · exact h
    split
    · exact ⟨hbuf, hpk, hsrc, hidx, by dsimp; omega, by dsimp; omega⟩
    · exact ih _ _ ⟨hbuf, hpk, hsrc, by dsimp; omega, by simp, by simp⟩

theorem State.CodecInv.unpackAll (width n : Nat) (h : s.CodecInv) :
    (unpackAll width n s).2.CodecInv := by
  induction n generalizing s with
  | zero => exact h
  | succ n ih =>
    have hget : (s.unpacked width).2.CodecInv := h.unpackLoop width _ width 0
    simp only [Machine.unpackAll]
    generalize s.unpacked width = r at hget ⊢
    obtain ⟨_ | v, t⟩ := r
    exacts [hget, ih hget]

theorem answerGet_codecInv {r : Option Word × State} (h : r.2.CodecInv) :
    (answerGet r).CodecInv := by
  obtain ⟨_ | v, t⟩ := r <;> exact h

theorem answerBatch_codecInv {r : Option (List Word) × State} (h : r.2.CodecInv) :
    (answerBatch r).CodecInv := by
  obtain ⟨_ | vs, t⟩ := r <;> exact h

theorem State.Inv.codecInv (h : s.Inv) : s.CodecInv := by
  obtain ⟨-, -, -, -, ⟨-, -, hbuf, -⟩, hpk, hup⟩ := h
  exact ⟨hbuf, hpk, hup⟩

/-- An operation of the codec keeps the invariant when it keeps the codec's part. -/
theorem State.Inv.of_codecInv (h : s.Inv) (hrest : t.withCodecOf s = s) (hc : t.CodecInv) :
    t.Inv := by
  rw [← hrest] at h
  obtain ⟨hcfg, htr, hmode, hflag, ⟨hrx, hf, -, hlen⟩, -, -⟩ := h
  obtain ⟨hbuf, hpk, hup⟩ := hc
  exact ⟨hcfg, htr, hmode, hflag, ⟨hrx, hf, hbuf, hlen⟩, hpk, hup⟩

/-! The streaming framer -/

/-- A byte received on the bus keeps the invariant when it keeps the parts that speak of what the
framer writes. -/
theorem State.Inv.of_received {b : Byte} (h : s.Inv) (hbus : s.mode = .peripheralBus)
    (hrest : EventFrame (.rx b) s t) (htr : t.TransferInv)
    (hbusy : t.cfg.flowControl = false → t.busy = false)
    (hrx : t.rxbuf.Within Config.rxbufSize) : t.Inv := by
  replace hbus : t.mode = .peripheralBus := (congrArg State.mode hrest :).trans hbus
  rw [← hrest] at h
  obtain ⟨hcfg, -, -, ⟨-, hen⟩, ⟨-, hbufs⟩, hpk, hup⟩ := h
  exact ⟨hcfg, htr, ⟨fun hd => by simp [hbus] at hd, fun _ => hbus⟩, ⟨hbusy, hen⟩, ⟨hrx, hbufs⟩,
    hpk, hup⟩

theorem State.Inv.lengthTaken (h : s.Inv) (hbus : s.mode = .peripheralBus) (b : Byte) :
    (s.lengthTaken b).Inv := by
  have ⟨_, _, _, ⟨hbusy, _⟩, ⟨hrx, _⟩, _⟩ := h
  rcases s.lengthTaken_cases b with ⟨-, ht⟩ | ⟨hb, ht⟩ <;> rw [ht]
  · exact h.of_received (b := b) hbus rfl (fun hst => by simp at hst) hbusy hrx
  · exact h.of_received (b := b) hbus rfl
      (fun _ => Nat.pos_of_ne_zero fun h0 => hb (BitVec.eq_of_toNat_eq h0)) hbusy hrx

theorem State.Inv.dataTaken (h : s.Inv) (hbus : s.mode = .peripheralBus)
    (hcnt : s.cnt.toNat < Config.rxbufSize) (b : Byte) : (s.dataTaken b).Inv := by
  have ⟨_, htr, _, ⟨hbusy, _⟩, ⟨hrx, _⟩, _⟩ := h
  rcases s.dataTaken_cases b with ⟨-, ht⟩ | ⟨hne, ht⟩ <;> rw [ht]
  · exact h.of_received (b := b) hbus rfl (fun hst => by simp at hst) hbusy (hrx.write hcnt b)
  · refine h.of_received (b := b) hbus rfl (fun hst => ?_) hbusy (hrx.write hcnt b)
    have hlt := htr hst
    show (s.cnt + 1).toNat < s.len.toNat
    bv_omega

theorem State.Inv.syncTaken (h : s.Inv) (hbus : s.mode = .peripheralBus) :
    ({ s.raiseBusy with st := .lengthPending } : State).Inv := by
  have ⟨_, _, _, ⟨hbusy, _⟩, ⟨hrx, _⟩, _⟩ := h
  exact h.of_received (b := 0) hbus rfl (fun hst => by simp at hst)
    (fun hf => by simp_all [State.raiseBusy]) hrx

/-- Whatever a received byte selects keeps the invariant. -/
theorem State.Inv.received {b : Byte} (h : s.Inv)
    (hx : exec (decodeByte s.cfg s.masked s.st b) s = .next t) : t.Inv := by
  unfold decodeByte at hx
  split at hx
  · rwa [execRxMasked_next (b := b) hx]
  split at hx
  · split at hx
    · rcases execRxSync_next hx with rfl | ⟨hbus, rfl⟩
      exacts [h, h.syncTaken hbus]
    · rwa [execRxSkip_next hx]
  · rcases execRxLen_next hx with rfl | ⟨hbus, rfl⟩
    exacts [h, h.lengthTaken hbus b]
  · rcases execRxData_next hx with rfl | ⟨hbus, hcnt, rfl⟩
    exacts [h, h.dataTaken hbus hcnt b]

/-! Dispatches -/

/-- A dispatch enables only resources of the registry (R33). -/
theorem dispatch_enabled {a o : Byte} {x : Half}
    (h : ∀ b, s.enabled b = true → s.cfg.hasResource b = true) (b : Byte)
    (hb : (dispatch a o x s).2.enabled b = true) : s.cfg.hasResource b = true := by
  by_cases hk : s.cfg.known a o = true
  · by_cases hba : b = a
    · exact hba ▸ Config.hasResource_of_known hk
    · exact h b ((dispatch_changes a o x s).en b hba ▸ hb)
  · simp only [dispatch, hk, cmdInvalid] at hb
    exact h b hb

/-- What writes only where CK.ROUTE may keeps the invariant when it enables only known resources. -/
theorem State.Inv.of_route (h : s.Inv) (hrest : t.withRouteOf s = s)
    (hen : ∀ b, t.enabled b = true → t.cfg.hasResource b = true) : t.Inv := by
  rw [← hrest] at h
  obtain ⟨hcfg, htr, hmode, ⟨hbusy, -⟩, hbufs⟩ := h
  exact ⟨hcfg, htr, hmode, ⟨hbusy, hen⟩, hbufs⟩

theorem dispatch_cfg (a o : Byte) (x : Half) (s : State) : (dispatch a o x s).2.cfg = s.cfg :=
  (congrArg State.cfg (dispatch_rest a o x s) :)

theorem State.Inv.dispatch (h : s.Inv) (a o : Byte) (x : Half) : (dispatch a o x s).2.Inv := by
  have ⟨_, _, _, ⟨_, hen⟩, _⟩ := h
  refine h.of_route (congrArg (State.withRouteOf · s) (dispatch_rest a o x s) :) fun b hb => ?_
  rw [dispatch_cfg]
  exact dispatch_enabled hen b hb

theorem State.Inv.finishRoute {r : DispatchEnd × State} (h : r.2.Inv) (packs : Bool) (seq : Half) :
    (finishRoute packs seq r).Inv := by
  rw [← finishRoute_rest packs seq r] at h
  exact h

theorem State.Inv.served (h : s.Inv) (w : Word) : (s.served w).Inv := by
  obtain ⟨hcfg, htr, ⟨hidle, hie⟩, ⟨hbusy, hen⟩, hbufs⟩ := h
  refine ⟨hcfg, htr, ⟨fun hd => ?_, hie⟩, ⟨fun hf => ?_, hen⟩, hbufs⟩
  · obtain ⟨hst, hdone, -⟩ := hidle hd
    exact ⟨hst, hdone, rfl⟩
  · simp [hbusy hf]

theorem State.Inv.idleFramer (h : s.Inv) : s.idleFramer.Inv := by
  obtain ⟨hcfg, -, ⟨hidle, hie⟩, hrest⟩ := h
  refine ⟨hcfg, fun hst => by simp at hst, ⟨fun hd => ?_, hie⟩, hrest⟩
  obtain ⟨-, -, hcv⟩ := hidle hd
  exact ⟨rfl, rfl, hcv⟩

theorem State.Inv.finishExec {r : DispatchEnd × State} (h : r.2.Inv) : (finishExec r).Inv := by
  obtain ⟨_ | _ | _, d⟩ := r
  case response status w => exact State.Inv.served h w
  case timeout => exact State.Inv.served (State.Inv.idleFramer (s := d.drawn) h) _
  case halt => exact h

theorem State.Inv.runFrame (h : s.Inv) (hx : runFrame s = .next t) : t.Inv := by
  rcases runFrame_next hx with rfl | ⟨_, _, _, rfl⟩ | ⟨_, _, _, a, o, x, -, -, rfl⟩
  exacts [h, h, (h.dispatch a o x).finishRoute _ _]

theorem State.Inv.loadFrame (h : s.Inv) {f : List Byte} (hf : f.length ≤ Config.fbufSize) :
    (s.loadFrame f).Inv := by
  obtain ⟨hcfg, htr, hmode, hflag, ⟨hrx, hfbuf, hpkbuf, -⟩, hcodec⟩ := h
  exact ⟨hcfg, htr, hmode, hflag, ⟨hrx, hfbuf.writeAll f (by omega), hpkbuf, hf⟩, hcodec⟩

/-! The main loop and the control events -/

theorem State.Inv.taken (h : s.Inv) (hbus : s.mode = .peripheralBus) : s.taken.Inv := by
  obtain ⟨hcfg, htr, -, hrest⟩ := h
  exact ⟨hcfg, htr, ⟨fun hd => by simp [State.taken, hbus] at hd, fun _ => hbus⟩, hrest⟩

/-- The transfer discarded, in any mode with an interrupt enable that the mode allows (R269 to
R271). -/
theorem State.Inv.discarded (h : s.Inv) {m : Mode} {ie : Bool}
    (hie : ie = true → m = .peripheralBus) :
    ({ s.discarded with rxie := ie, mode := m } : State).Inv := by
  obtain ⟨hcfg, -, -, ⟨-, hen⟩, hrest⟩ := h
  exact ⟨hcfg, fun hst => by simp at hst, ⟨fun _ => ⟨rfl, rfl, rfl⟩, hie⟩, ⟨fun _ => rfl, hen⟩,
    hrest⟩

/-! Reset -/

theorem enabled_resetOf (c : Config) (a : Byte) : (State.resetOf c).enabled a = false := by
  simp [State.enabled, State.resetOf]

theorem resetOf_inv {c : Config} (h : c.Legal) : (State.resetOf c).Inv := by
  refine ⟨h, nofun, ⟨fun _ => ⟨rfl, rfl, rfl⟩, nofun⟩, ⟨fun _ => rfl, fun a ha => ?_⟩, ?_,
    ⟨h.1, Nat.le_add_left 1 7, le_rfl⟩, rfl, le_rfl, Nat.le_add_left 1 7, le_rfl⟩
  · rw [enabled_resetOf] at ha
    cases ha
  · exact ⟨.nil _, .nil _, .nil _, Nat.zero_le _⟩

/-- The packer's registers that a reset leaves unspecified are in their ranges (R35, R36). -/
theorem afterReset_packInv (h : 1 ≤ s.cfg.pkbufSize) : s.afterReset.PackInv :=
  ⟨Nat.mod_lt _ h, Nat.le_add_left 1 _, (Config.freeRegs _).pkFree.isLt⟩

/-- The unpacker's registers that a reset leaves unspecified are in their ranges (R37 to R39). -/
theorem afterReset_unpackInv : s.afterReset.UnpackInv :=
  ⟨rfl, Nat.le_of_lt_succ (Nat.mod_lt _ (Nat.succ_pos _)), Nat.le_add_left 1 _,
    (Config.freeRegs _).upFree.isLt⟩

theorem afterReset_flen : s.afterReset.flen ≤ Config.fbufSize :=
  Nat.le_of_lt_succ (Config.freeRegs _).flen.isLt

theorem afterReset_inv (h : s.cfg.Legal) : s.afterReset.Inv := by
  obtain ⟨hcfg, -, hmode, hflag, ⟨hrx, hf, hpk, -⟩, -, -⟩ := resetOf_inv h
  exact ⟨hcfg, nofun, hmode, hflag, ⟨hrx, hf, hpk, afterReset_flen⟩,
    afterReset_packInv h.1, afterReset_unpackInv⟩

/-! Steps -/

/-- Every operation that an event causes keeps the invariant. -/
theorem State.Inv.exec {e : Event} (h : s.Inv) (hx : exec (s.eventInstr e) s = .next t) :
    t.Inv := by
  have hc := h.codecInv
  have ⟨hlegal, _, ⟨_, hie⟩, _⟩ := h
  have ⟨hsize, _⟩ := hlegal
  cases e with
  | rx b => exact h.received hx
  | ck f =>
    rcases execCkFrame_next hx with rfl | ⟨hf, hx⟩
    exacts [h, (h.loadFrame hf).runFrame hx]
  | take =>
    rcases execMTake_next hx with rfl | ⟨hbus, rfl⟩
    exacts [h, h.taken hbus]
  | exec =>
    rcases execMExec_next hx with rfl | ⟨-, rfl⟩
    exacts [h, (h.dispatch ..).finishExec]
  | preempt =>
    rcases execEvPreempt_next hx with rfl | rfl
    exacts [h, h.discarded (by simp)]
  | abort =>
    rcases execEvAbort_next hx with rfl | rfl
    exacts [h, h.discarded hie]
  | enterBus =>
    rcases execEvEnterBus_next hx with rfl | rfl
    exacts [h, h.discarded fun _ => rfl]
  | reset =>
    rw [next_inj hx]
    exact afterReset_inv hlegal
  | pkInit =>
    rcases execPkInit_next hx with rfl | rfl
    exacts [h, h.of_codecInv rfl (hc.packStarted hsize)]
  | pkPut v width =>
    rcases execPkPut_next hx with rfl | rfl
    exacts [h, h.of_codecInv (packed_withCodecOf v width) (hc.packLoop v width _ width)]
  | pkLen => rcases execPkLen_next hx with rfl | rfl <;> exact h
  | pkBatch width vs =>
    rcases execPkBatch_next hx with rfl | rfl
    exacts [h, h.of_codecInv (packBatch_withCodecOf width vs)
      ((hc.packStarted hsize).packAll width vs).batchDone]
  | upInit src =>
    rcases execUpInit_next hx with rfl | rfl
    · exact h
    · obtain ⟨hbuf, hpk, -⟩ := hc
      exact h.of_codecInv rfl ⟨hbuf, hpk, rfl, Nat.zero_le _, by simp, by simp⟩
  | upGet width =>
    rcases execUpGet_next hx with rfl | rfl
    exacts [h, h.of_codecInv (answerGet_withCodecOf width)
      (answerGet_codecInv (hc.unpackLoop width _ width 0))]
  | upBatch width n =>
    rcases execUpBatch_next hx with rfl | rfl
    exacts [h, h.of_codecInv (answerBatch_withCodecOf width n)
      (answerBatch_codecInv (hc.unpackAll width n))]

/-- Settles O58: delivering an event touches nothing the invariant speaks of, and the operation the
event causes keeps it. -/
theorem stepKeepsTheInvariant : Obligations.StepKeepsTheInvariant := by
  intro s t h hstep
  rcases step_next hstep with rfl | ⟨e, es, -, hx⟩
  · exact h
  · have hdelivered : s.delivered.Inv := h
    exact hdelivered.exec (e := e) hx

/-- Settles O57: `State.reset` is the reset state of the device's configuration, which is legal. -/
theorem resetMeetsTheInvariant : Obligations.ResetMeetsTheInvariant :=
  resetOf_inv Config.device_legal

/-- Settles O53: the reset values hold by definition, the ranges by the bounds of the free values. -/
theorem resetGivesTheResetValues : Obligations.ResetGivesTheResetValues := by
  intro s
  exact ⟨s.afterReset, rfl, rfl, rfl, rfl, rfl, rfl, rfl, enabled_resetOf s.cfg, rfl, rfl, rfl, rfl,
    rfl, rfl, rfl, afterReset_packInv, afterReset_unpackInv, afterReset_flen, rfl, rfl, rfl⟩

end Sys2Proof.Machine
end

section
/-! Who writes what (R27, R28, R33, R45, R46, R61, R72): the statements on the events of a step, read
off the table, and the frames of the main loop and of the checksummed framer. -/

namespace Sys2Proof.Machine

variable {s t : State}

/-! What a dispatch appends -/

theorem cmdStop_calls (a : Byte) (s : State) :
    (cmdStop a s).2.calls = s.calls ++ [⟨.stop, a, answerOf .stop s.nextReply⟩] := by
  have hcalls := State.called_calls s .stop a
  unfold cmdStop
  split <;> exact hcalls

theorem lifecycleCall_calls (fn : CollabFn) (a : Byte) (s : State) :
    (lifecycleCall fn a s).2.calls = s.calls ++ [⟨fn, a, answerOf fn s.nextReply⟩] := by
  have hcalls := State.called_calls s fn a
  unfold lifecycleCall
  split <;> exact hcalls

theorem cmdHandle_calls (a o : Byte) (x : Half) (s : State) :
    (cmdHandle a o x s).2.calls =
      s.calls ++ [⟨.handle o x, a, answerOf (.handle o x) s.nextReply⟩] := by
  have hcalls := State.called_calls s (.handle o x) a
  unfold cmdHandle
  split <;> exact hcalls

/-- The command after AUTOINIT is one of three lifecycle calls, or `handle` with the opcode (R189 to
R194). -/
theorem cmdBody_eq (a o : Byte) (x : Half) (s : State) :
    cmdBody a o x s =
      if o = s.cfg.opStop then cmdStop a s
      else if o = s.cfg.opSleep then lifecycleCall .sleep a s
      else if o = s.cfg.opWakeup then lifecycleCall .wakeup a s
      else cmdHandle a o x s := by
  unfold cmdBody
  split_ifs with hstop hsleep hwakeup hread hwrite
  · rfl
  · rfl
  · rfl
  · rw [hread]; rfl
  · rw [hwrite]; rfl
  · rfl

/-- The command after AUTOINIT makes one call (R189 to R194). -/
theorem cmdBody_calls (a o : Byte) (x : Half) (s : State) :
    ∃ k, (cmdBody a o x s).2.calls = s.calls ++ [k] := by
  rw [cmdBody_eq]
  split_ifs
  exacts [⟨_, cmdStop_calls a s⟩, ⟨_, lifecycleCall_calls .sleep a s⟩,
    ⟨_, lifecycleCall_calls .wakeup a s⟩, ⟨_, cmdHandle_calls a o x s⟩]

theorem cmdBody_calls_length (a o : Byte) (x : Half) (s : State) :
    (cmdBody a o x s).2.calls.length = s.calls.length + 1 := by
  obtain ⟨k, hk⟩ := cmdBody_calls a o x s
  rw [hk, List.length_append, List.length_singleton]

/-- A start before a command of at most one call makes two (R187). -/
theorem startThen_calls_length {a : Byte} {k : State → DispatchEnd × State}
    (hk : ∀ u, (k u).2.calls.length ≤ u.calls.length + 1) :
    (startThen a k s).2.calls.length ≤ s.calls.length + 2 := by
  unfold startThen
  split
  · simpa using hk ((s.called .start a).setEn a true)
  all_goals simp

/-- A dispatch makes at most two calls (R78). -/
theorem dispatch_calls_length (a o : Byte) (x : Half) (s : State) :
    (dispatch a o x s).2.calls.length ≤ s.calls.length + 2 := by
  unfold dispatch
  split
  · exact Nat.le_add_right _ 2
  split
  · unfold cmdStart
    split
    · exact Nat.le_add_right _ 2
    · exact startThen_calls_length fun u => Nat.le_add_right _ 1
  · unfold autoInit
    split
    · exact (cmdBody_calls_length a o x s).le.trans (Nat.le_succ _)
    · exact startThen_calls_length fun u => (cmdBody_calls_length a o x u).le

/-- `t` has the calls of `s`, and at most two more at their end. -/
def AtMostTwoCallsMore (s t : State) : Prop := ∃ ks, ks.length ≤ 2 ∧ t.calls = s.calls ++ ks

theorem AtMostTwoCallsMore.refl (s : State) : AtMostTwoCallsMore s s := ⟨[], by simp⟩

theorem dispatch_calls (a o : Byte) (x : Half) (s : State) :
    AtMostTwoCallsMore s (dispatch a o x s).2 := by
  obtain ⟨ks, hks, -⟩ := (dispatch_changes a o x s).calls
  have hlen := dispatch_calls_length a o x s
  rw [hks, List.length_append] at hlen
  exact ⟨ks, by omega, hks⟩

theorem finishExec_calls (r : DispatchEnd × State) : (finishExec r).calls = r.2.calls := by
  obtain ⟨_ | _ | _, d⟩ := r <;> rfl

theorem finishRoute_calls (packs : Bool) (seq : Half) (r : DispatchEnd × State) :
    (finishRoute packs seq r).calls = r.2.calls :=
  (congrArg State.calls (finishRoute_rest packs seq r) :)

/-- M.EXEC sends one word, or nothing after a halt (R184, R265). -/
theorem finishExec_txStream (r : DispatchEnd × State) :
    (finishExec r).txStream = r.2.txStream ∨
      ∃ w, (finishExec r).txStream = r.2.txStream ++ wordBytes w r.2.cfg.replyOrder := by
  obtain ⟨_ | _ | _, d⟩ := r
  exacts [.inr ⟨_, rfl⟩, .inr ⟨_, rfl⟩, .inl rfl]

/-- CK.ROUTE sends one frame, or nothing after a halt (R166, R265). -/
theorem finishRoute_txCk (packs : Bool) (seq : Half) (r : DispatchEnd × State) :
    ∃ bs, (finishRoute packs seq r).txCk = r.2.txCk ++ bs := by
  obtain ⟨_ | _ | _, d⟩ := r
  case response status w =>
    cases packs
    · exact ⟨_, rfl⟩
    · rcases d.replyPacked_sends seq status with ⟨-, -, h⟩ | ⟨-, p, -, h⟩ <;>
        exact ⟨_, by simp only [finishRoute, if_true, h]; rfl⟩
  case timeout => exact ⟨_, rfl⟩
  case halt => exact ⟨[], (List.append_nil _).symm⟩

/-! A step's histories -/

theorem execMExec_histories (h : execMExec s = .next t) :
    (t.txStream = s.txStream ∨ s.cv = true ∧ ∃ r, r.length = 4 ∧ t.txStream = s.txStream ++ r) ∧
      AtMostTwoCallsMore s t := by
  rcases execMExec_next h with rfl | ⟨hcv, rfl⟩
  · exact ⟨.inl rfl, .refl t⟩
  · have hd : (dispatch s.ca s.co s.cx s).2.txStream = s.txStream :=
      (congrArg State.txStream (dispatch_rest s.ca s.co s.cx s) :)
    obtain ⟨ks, hlen, hks⟩ := dispatch_calls s.ca s.co s.cx s
    refine ⟨?_, ks, hlen, (finishExec_calls _).trans hks⟩
    rcases finishExec_txStream (dispatch s.ca s.co s.cx s) with hx | ⟨w, hx⟩
    · exact .inl (hx.trans hd)
    · exact .inr ⟨hcv, _, wordBytes_length w _, by rw [hx, hd]⟩

theorem runFrame_histories (h : runFrame s = .next t) :
    (∃ bs, t.txCk = s.txCk ++ bs) ∧ AtMostTwoCallsMore s t := by
  rcases runFrame_next h with rfl | ⟨_, _, _, rfl⟩ | ⟨seq, _, _, a, o, x, -, -, rfl⟩
  · exact ⟨⟨[], by simp⟩, .refl t⟩
  · exact ⟨⟨_, rfl⟩, .refl s⟩
  · have hd : (dispatch a o x s).2.txCk = s.txCk :=
      (congrArg State.txCk (dispatch_rest a o x s) :)
    obtain ⟨bs, hbs⟩ := finishRoute_txCk (s.cfg.packs a o) seq (dispatch a o x s)
    obtain ⟨ks, hlen, hks⟩ := dispatch_calls a o x s
    exact ⟨⟨bs, by rw [hbs, hd]⟩, ks, hlen, (finishRoute_calls ..).trans hks⟩

theorem execCkFrame_histories {f : List Byte} (h : execCkFrame f s = .next t) :
    (∃ bs, t.txCk = s.txCk ++ bs) ∧ AtMostTwoCallsMore s t := by
  rcases execCkFrame_next h with rfl | ⟨-, h⟩
  exacts [⟨⟨[], by simp⟩, .refl t⟩, (runFrame_histories h :)]

/-- Settles O59: the two dispatching events append replies and calls; the table says that no other
event touches a history. -/
theorem historiesGrowOnlyByReplies : Obligations.HistoriesGrowOnlyByReplies := by
  intro s t e es hes hne hstep
  rw [step_of_event hes] at hstep
  have hframe : EventFrame e s.delivered t := exec_eventFrame hstep
  cases e with
  | reset => exact absurd rfl hne
  | exec =>
    obtain ⟨hstream, hcalls⟩ := execMExec_histories hstep
    exact ⟨hstream.imp_right fun h => ⟨rfl, h⟩, .inl (congrArg State.txCk hframe :),
      .inr ⟨.inl rfl, hcalls⟩⟩
  | ck f =>
    obtain ⟨⟨bs, hbs⟩, hcalls⟩ := execCkFrame_histories hstep
    exact ⟨.inl (congrArg State.txStream hframe :), .inr ⟨f, bs, rfl, hbs⟩,
      .inr ⟨.inr ⟨f, rfl⟩, hcalls⟩⟩
  | _ =>
    exact ⟨.inl (congrArg State.txStream hframe :), .inl (congrArg State.txCk hframe :),
      .inl (congrArg State.calls hframe :)⟩

/-! The owners of a register -/

/-- Only a received byte sets `DONE` (R25). -/
theorem done_of_exec {e : Event} (h : exec (s.eventInstr e) s = .next t) (hrx : ∀ b, e ≠ .rx b)
    (ht : t.done = true) : s.done = true := by
  have hframe := exec_eventFrame h
  cases e with
  | rx b => exact absurd rfl (hrx b)
  | take =>
    rcases execMTake_next h with rfl | ⟨-, rfl⟩
    exacts [ht, by cases ht]
  | exec =>
    rcases execMExec_next h with rfl | ⟨-, rfl⟩
    · exact ht
    · have hd : (dispatch s.ca s.co s.cx s).2.done = s.done :=
        (congrArg State.done (dispatch_rest s.ca s.co s.cx s) :)
      generalize dispatch s.ca s.co s.cx s = r at hd ht
      obtain ⟨_ | _ | _, d⟩ := r
      case response => exact hd.symm.trans ht
      case timeout => cases ht
      case halt => exact hd.symm.trans ht
  | preempt =>
    rcases execEvPreempt_next h with rfl | rfl
    exacts [ht, by cases ht]
  | abort =>
    rcases execEvAbort_next h with rfl | rfl
    exacts [ht, by cases ht]
  | enterBus =>
    rcases execEvEnterBus_next h with rfl | rfl
    exacts [ht, by cases ht]
  | reset => rw [next_inj h] at ht; cases ht
  | _ => exact (congrArg State.done hframe :).symm.trans ht

/-- Settles O60: each field is read off the table; `DONE` alone is written, but not set, by others. -/
theorem onlyTheOwnersWrite : Obligations.OnlyTheOwnersWrite := by
  intro s t e es hes hne hstep
  rw [step_of_event hes] at hstep
  have hdone := done_of_exec (s := s.delivered) (e := e) hstep
  have hframe : EventFrame e s.delivered t := exec_eventFrame hstep
  refine ⟨fun hrx => ?framer, fun hp he => ?mode, fun hx hck => ?enabled, ?config⟩
  case framer =>
    cases e with
    | reset => exact absurd rfl hne
    | rx b => exact absurd rfl (hrx b)
    | _ =>
      exact ⟨(congrArg State.len hframe :), (congrArg State.cnt hframe :),
        (congrArg State.rxbuf hframe :), hdone hrx⟩
  case mode =>
    cases e with
    | reset => exact absurd rfl hne
    | preempt => exact absurd rfl hp
    | enterBus => exact absurd rfl he
    | take => exact ⟨(congrArg State.mode hframe :), fun ht => absurd rfl ht⟩
    | _ => exact ⟨(congrArg State.mode hframe :), fun _ => (congrArg State.rxie hframe :)⟩
  case enabled =>
    cases e with
    | reset => exact absurd rfl hne
    | exec => exact absurd rfl hx
    | ck f => exact absurd rfl (hck f)
    | _ => exact (congrArg State.en hframe :)
  case config =>
    cases e with
    | reset => exact absurd rfl hne
    | _ => exact (congrArg State.cfg hframe :)

/-! Frames -/

theorem enabled_of_en (h : t.en = s.en) (b : Byte) : t.enabled b = s.enabled b := by
  rw [State.enabled, h, State.enabled]

theorem finishExec_en (r : DispatchEnd × State) : (finishExec r).en = r.2.en := by
  obtain ⟨_ | _ | _, d⟩ := r <;> rfl

/-- Settles O25: the two rows of the table, and a dispatch changes only the bit of its resource. -/
theorem mainLoopFrame : Obligations.MainLoopFrame := by
  intro s t
  refine ⟨fun h => exec_eventFrame (e := .take) h, fun h => ⟨exec_eventFrame (e := .exec) h, ?_⟩⟩
  intro a ha
  rcases execMExec_next h with rfl | ⟨-, rfl⟩
  · rfl
  · rw [enabled_of_en (finishExec_en _), (dispatch_changes s.ca s.co s.cx s).en a ha]

/-- CK.ROUTE and CK.FRAME enable or disable no resource but the routed one (R187 to R189). -/
theorem route_enabled {a o b : Byte} {x : Half} {packs : Bool} {seq : Half} (hb : b ≠ a) :
    (finishRoute packs seq (dispatch a o x s)).enabled b = s.enabled b := by
  rw [enabled_of_en (finishRoute_en ..), (dispatch_changes a o x s).en b hb]

/-- Settles O20: the row of a buffered read, its outcomes, and what loading it writes. -/
theorem checksummedOperationsFrame : Obligations.ChecksummedOperationsFrame := by
  intro s t f ops seq code
  refine ⟨fun h => ⟨exec_eventFrame (e := .ck f) h, ?fbuf, ?frameEn⟩, fun h => execCkDrop_next h,
    fun h => ?getid, fun h => ?unsup, fun h => ?route⟩
  case fbuf =>
    intro i hi
    rcases execCkFrame_next h with rfl | ⟨hf, h⟩
    · rfl
    · have hfbuf : t.fbuf = (s.loadFrame f).fbuf := (congrArg State.fbuf (runFrame_withRouteOf h) :)
      rw [hfbuf, State.loadFrame_fbuf, Memory.read_writeAll, if_neg (fun hin => hi ⟨by omega, hf⟩)]
  case frameEn =>
    intro b hb
    rcases execCkFrame_next h with rfl | ⟨-, h⟩
    · rfl
    rcases runFrame_next h with rfl | ⟨_, _, _, rfl⟩ | ⟨q, k, p, a, o, x, hd, hr, rfl⟩
    · rfl
    · rfl
    · rw [State.frameBytes_loadFrame] at hd
      exact route_enabled (hb q k p a o x hd hr)
  case getid => rcases execCkGetid_next h with rfl | rfl <;> rfl
  case unsup => rcases execCkUnsup_next h with rfl | rfl <;> rfl
  case route =>
    rcases execCkRoute_next h with rfl | ⟨a, o, x, hr, rfl⟩
    · exact ⟨rfl, fun _ _ => rfl⟩
    · exact ⟨route_withRouteOf .., fun b hb => route_enabled (hb a o x hr)⟩

end Sys2Proof.Machine
end

section
/-! Commands: what a dispatch answers (R185 to R195), a command run on its own (R101), and a routed
request (R166). -/

namespace Sys2Proof

/-- A request of at most 248 operand bytes decodes to what its command code selects (R94, R164). -/
theorem decodeFrame_encodeRequest (c : Config) (seq code : Half) (ops : List Byte)
    (h : ops.length ≤ 248) :
    decodeFrame c (encodeRequest c seq code ops) = decodeCode c seq code ops := by
  unfold decodeFrame
  rw [encodeRequest_valid c seq code ops h]
  simp [encodeRequest, withChecksum]

theorem decodeCode_route {c : Config} {seq code : Half} {ops : List Byte} {r : Byte × Byte × Half}
    (hcode : code ≠ Config.cmdGetId) (hr : c.routeOf code ops = some r) :
    decodeCode c seq code ops = .ckRoute seq code ops := by
  rw [decodeCode, if_neg hcode, if_pos (by simp [hr])]

end Sys2Proof

namespace Sys2Proof.Machine

variable {s t : State} {a o : Byte} {x : Half}

/-! Routed requests -/

/-- CK.ROUTE in HOST_DEBUG dispatches the routed triple (R166). -/
theorem execCkRoute_of_route {seq code : Half} {ops : List Byte} (h0 : s.trap = none)
    (hm : s.mode = .hostDebug) (hlen : ops.length ≤ 248) (hcode : code ≠ Config.cmdGetId)
    (hr : s.cfg.routeOf code ops = some (a, o, x)) :
    execCkRoute seq code ops s =
      .next (finishRoute (s.cfg.packs a o) seq (dispatch a o x s)) := by
  have hsel : (decide (ops.length ≤ 248) && code != Config.cmdGetId) = true := by
    rw [decide_eq_true hlen, Bool.true_and, bne_iff_ne]
    exact hcode
  simp only [execCkRoute, hr, frameOutcome, live_none h0, State.frameEnabled, hm, hsel]
  rfl

theorem packSpelt_iff : s.packSpelt = true ↔ s.pkReady = true ∧ s.packLen ≤ 249 := by
  simp [State.packSpelt]

theorem packSpelt_eq_false (h : s.pkReady = false ∨ 249 < s.packLen) : s.packSpelt = false := by
  rcases h with h | h <;> simp [State.packSpelt, h]

/-- A reply sent after operations that kept the configuration and the history (R242). -/
theorem replyFrame_eq {d : State} (hcfg : d.cfg = s.cfg) (htx : d.txCk = s.txCk) (seq : Half)
    (status : Byte) (p : List Byte) :
    d.replyFrame seq status p = { d with txCk := s.txCk ++ encodeReply s.cfg seq status p } := by
  rw [← hcfg, ← htx]
  rfl

/-- A packed reply of a stream that can be spelt (R248). -/
theorem replyPacked_of_spelt {seq : Half} {status : Byte} (h : s.packSpelt = true) :
    s.replyPacked seq status = s.replyFrame seq status (s.packBytes s.packLen) := if_pos h

/-- A packed reply of a stream that cannot be spelt (log entry 29). -/
theorem replyPacked_of_not_spelt {seq : Half} {status : Byte} (h : s.packSpelt = false) :
    ∃ p : List Byte, p.length ≤ 249 ∧
      s.replyPacked seq status = s.drawn.replyFrame seq status p :=
  ⟨_, cutPayload_length _, if_neg (by simp [h])⟩

/-- Settles O18: the request decodes to CK.ROUTE, and what that does with the end of its dispatch is
read in terms of the state before, of which a dispatch keeps the configuration, history and codec. -/
theorem routedCommandIsDispatched : Obligations.RoutedCommandIsDispatched := by
  intro s seq code ops a o x h0 hm hlen hcode hr
  refine ⟨by rw [decodeFrame_encodeRequest _ _ _ _ hlen, decodeCode_route hcode hr], ?_⟩
  have hexec : exec (.ckRoute seq code ops) s =
      .next (finishRoute (s.cfg.packs a o) seq (dispatch a o x s)) :=
    execCkRoute_of_route h0 hm hlen hcode hr
  have hrest := dispatch_rest a o x s
  rw [hexec]
  have hcfg := dispatch_cfg a o x s
  have htx : (dispatch a o x s).2.txCk = s.txCk := (congrArg State.txCk hrest :)
  generalize dispatch a o x s = r at hrest hcfg htx
  obtain ⟨_ | _ | _, d⟩ := r
  case response status w =>
    refine ⟨fun hp => ?word, fun hp hready hle => ?stream, fun hp hno => ?free⟩
    case word =>
      have hord : d.cfg.ckWordOrder = s.cfg.ckWordOrder := congrArg Config.ckWordOrder hcfg
      rw [← replyFrame_eq hcfg htx, ← hord]
      simp [finishRoute, hp]
    case stream =>
      have hspelt : d.packSpelt = true :=
        (congrArg State.packSpelt hrest :).trans (packSpelt_iff.2 ⟨hready, hle⟩)
      have hbytes : d.packBytes d.packLen = s.packBytes s.packLen :=
        (congrArg (fun u => u.packBytes u.packLen) hrest :)
      rw [← replyFrame_eq hcfg htx, ← hbytes, ← replyPacked_of_spelt hspelt]
      simp [finishRoute, hp]
    case free =>
      have hspelt : d.packSpelt = false :=
        (congrArg State.packSpelt hrest :).trans (packSpelt_eq_false hno)
      obtain ⟨p, hp249, hreply⟩ := replyPacked_of_not_spelt (seq := seq) (status := status) hspelt
      refine ⟨p, hp249, ?_⟩
      have hsent := replyFrame_eq (d := d.drawn) hcfg htx seq status p
      simp only [finishRoute, hp, if_true, hreply, hsent]
      rfl
  case timeout =>
    refine ⟨Config.freeStatus d.draws, cutPayload (Config.freeBytes (d.draws + 1)), d.draws + 2,
      cutPayload_length _, ?_⟩
    exact congrArg _ (replyFrame_eq (d := d.drawn.drawn) hcfg htx seq _ _)
  case halt => rfl

/-! Commands run on their own -/

theorem DispatchChanges.sameButDispatch (h : DispatchChanges a s t) : SameButDispatch a s t :=
  ⟨h.rest, h.en⟩

theorem runCommand_of_selected {sel : Bool} {k : State → DispatchEnd × State}
    (h0 : s.trap = none) (hsel : sel = true) : runCommand s sel k = answerCommand (k s) := by
  simp [runCommand, h0, hsel]

/-- Answering a command writes what its dispatch does, the answer and the fault state. -/
theorem answerCommand_frame {r : DispatchEnd × State} (hr : DispatchChanges a s r.2)
    (h : answerCommand r = .next t) :
    SameButDispatch a s { t with result := s.result, trap := s.trap } ∧ s.calls <+: t.calls := by
  have hanswer : { t with result := r.2.result, trap := r.2.trap } = r.2 := by
    rcases answerCommand_next h with ⟨_, _, -, rfl⟩ | ⟨-, rfl⟩ | ⟨-, rfl⟩ <;> rfl
  have hen : t.en = r.2.en := (congrArg State.en hanswer :)
  have hcalls : t.calls = r.2.calls := (congrArg State.calls hanswer :)
  refine ⟨⟨?rest, fun b hb => (enabled_of_en hen b).trans (hr.en b hb)⟩, ?calls⟩
  case rest =>
    have hdispatch := congrArg (fun u : State => { u with
      en := s.en, calls := s.calls, answers := s.answers, draws := s.draws, result := s.result,
      trap := s.trap }) hanswer
    exact hdispatch.trans
      (congrArg (fun u : State => { u with result := s.result, trap := s.trap }) hr.rest :)
  case calls =>
    obtain ⟨ks, hks, -⟩ := hr.calls
    exact ⟨ks, by rw [hcalls, hks]⟩

/-- A command run on its own writes what its dispatch may, the answer and the fault state. -/
theorem runCommand_frame {sel : Bool} {k : State → DispatchEnd × State}
    (hk : ∀ u, DispatchChanges a u (k u).2) (h : runCommand s sel k = .next t) :
    SameButDispatch a s { t with result := s.result, trap := s.trap } ∧ s.calls <+: t.calls := by
  rcases runCommand_next h with ⟨-, -, h⟩ | ⟨-, rfl⟩
  · exact answerCommand_frame (hk s) h
  · exact ⟨⟨rfl, fun _ _ => rfl⟩, ⟨[], List.append_nil _⟩⟩

/-- Settles O37: each command is a run of the dispatcher's function for it. -/
theorem commandsFrame : Obligations.CommandsFrame := by
  intro s t a o x
  refine ⟨fun h => ?invalid, ?known⟩
  case invalid =>
    rcases runCommand_next h with ⟨-, -, h⟩ | ⟨-, rfl⟩
    · rw [next_inj h]; rfl
    · rfl
  case known =>
    rintro (h | h | h | h | h | h | h)
    · exact runCommand_frame (cmdStart_changes a) h
    · exact runCommand_frame (fun u => autoInit_changes a _ u (cmdStop_changes a)) h
    · exact runCommand_frame (fun u => autoInit_changes a _ u (lifecycleCall_changes .sleep a)) h
    · exact runCommand_frame (fun u => autoInit_changes a _ u (lifecycleCall_changes .wakeup a)) h
    · exact runCommand_frame
        (fun u => autoInit_changes a (cmdRead a x) u fun v => cmdHandle_changes a _ x v) h
    · exact runCommand_frame
        (fun u => autoInit_changes a (cmdWrite a x) u fun v => cmdHandle_changes a _ x v) h
    · exact runCommand_frame (fun u => autoInit_changes a _ u (cmdHandle_changes a o x)) h

/-- AUTOINIT of an enabled resource is the command alone (R187). -/
theorem autoInit_enabled {k : State → DispatchEnd × State} (h : s.enabled a = true) :
    autoInit a k s = k s := if_pos h

/-- AUTOINIT of a disabled resource starts it (R187). -/
theorem autoInit_disabled {k : State → DispatchEnd × State} (h : s.enabled a = false) :
    autoInit a k s = startThen a k s := if_neg (by simp [h])

/-- AUTOINIT keeps the configuration, so that a command may read it before or after (R187). -/
theorem autoInit_congr {k k' : State → DispatchEnd × State}
    (h : ∀ u : State, u.cfg = s.cfg → k u = k' u) : autoInit a k s = autoInit a k' s := by
  have hstarted := h ((s.called .start a).setEn a true) (by simp)
  simp only [autoInit, startThen, h s rfl, hstarted]

theorem dispatch_unknown (h : s.cfg.known a o = false) : dispatch a o x s = cmdInvalid s :=
  if_pos (by simp [h])

theorem dispatch_start (h : s.cfg.known a o = true) (hs : o = s.cfg.opStart) :
    dispatch a o x s = cmdStart a s := by
  rw [dispatch, if_neg (by simp [h]), if_pos hs]

theorem dispatch_body (h : s.cfg.known a o = true) (hs : o ≠ s.cfg.opStart) :
    dispatch a o x s = autoInit a (cmdBody a o x) s := by
  rw [dispatch, if_neg (by simp [h]), if_neg hs]

/-- A known command other than `start` runs what its dispatch does, when `k` is its body (R185). -/
theorem runCommand_of_body {sel : Bool} {k : State → DispatchEnd × State} (h0 : s.trap = none)
    (hk : s.cfg.known a o = true) (hs : o ≠ s.cfg.opStart) (hsel : sel = true)
    (hbody : ∀ u : State, u.cfg = s.cfg → cmdBody a o x u = k u) :
    runCommand s sel (autoInit a k) = answerCommand (dispatch a o x s) := by
  rw [runCommand_of_selected h0 hsel, dispatch_body hk hs, autoInit_congr hbody]

/-- The command that a triple selects, run on its own, answers what its dispatch does (R101, R185). -/
theorem exec_decodeCommand (h0 : s.trap = none) :
    exec (decodeCommand s.cfg a o x) s = answerCommand (dispatch a o x s) := by
  unfold decodeCommand
  cases hk : s.cfg.known a o
  case false =>
    rw [dispatch_unknown hk]
    exact runCommand_of_selected h0 (by simp [hk])
  simp only [Bool.not_true, Bool.false_eq_true, if_false]
  split_ifs with hstart hstop hsleep hwakeup hread hwrite
  · rw [dispatch_start hk hstart]
    exact runCommand_of_selected h0 (hstart ▸ hk)
  · exact runCommand_of_body h0 hk hstart (hstop ▸ hk) fun u hu => by
      rw [cmdBody, hu, if_pos hstop]
  · exact runCommand_of_body h0 hk hstart (hsleep ▸ hk) fun u hu => by
      rw [cmdBody, hu, if_neg hstop, if_pos hsleep]
  · exact runCommand_of_body h0 hk hstart (hwakeup ▸ hk) fun u hu => by
      rw [cmdBody, hu, if_neg hstop, if_neg hsleep, if_pos hwakeup]
  · exact runCommand_of_body h0 hk hstart (hread ▸ hk) fun u hu => by
      rw [cmdBody, hu, if_neg hstop, if_neg hsleep, if_neg hwakeup, if_pos hread]
  · exact runCommand_of_body h0 hk hstart (hwrite ▸ hk) fun u hu => by
      rw [cmdBody, hu, if_neg hstop, if_neg hsleep, if_neg hwakeup, if_neg hread, if_pos hwrite]
  · exact runCommand_of_body h0 hk hstart (by simp [Config.generic, *]) fun u hu => by
      rw [cmdBody, hu, if_neg hstop, if_neg hsleep, if_neg hwakeup, if_neg hread, if_neg hwrite]

/-- What answering a call of `handle` leaves, by the collaborator's answer (R192 to R195, R265). -/
theorem answerCommand_handle (h0 : s.trap = none) :
    ∃ t, answerCommand (cmdHandle a o x s) = .next t ∧ t.en = s.en ∧
      match s.nextReply with
      | .ok w => t.calls = s.calls ++ [⟨.handle o x, a, .value w⟩] ∧
          t.result = .response 0x00 w ∧ t.trap = none
      | .timeout => t.calls = s.calls ++ [⟨.handle o x, a, .timeout⟩] ∧
          t.result = .timeout ∧ t.trap = none
      | .halt => t.calls = s.calls ++ [⟨.handle o x, a, .halt⟩] ∧
          t.result = s.result ∧ t.trap = some .debugHalt := by
  have hen := State.called_en s (.handle o x) a
  have hcalls := State.called_calls s (.handle o x) a
  have htrap := (State.called_trap s (.handle o x) a).trans h0
  have hresult := State.called_result s (.handle o x) a
  unfold cmdHandle
  cases hr : s.nextReply with
  | ok w => exact ⟨_, rfl, hen, hcalls.trans (by rw [hr]; rfl), rfl, htrap⟩
  | timeout => exact ⟨_, rfl, hen, hcalls.trans (by rw [hr]; rfl), rfl, htrap⟩
  | halt => exact ⟨_, rfl, hen, hcalls.trans (by rw [hr]; rfl), hresult, rfl⟩

theorem runCommand_of_enabled {sel : Bool} {k : State → DispatchEnd × State} (h0 : s.trap = none)
    (hen : s.enabled a = true) (hsel : sel = true) :
    runCommand s sel (autoInit a k) = answerCommand (k s) := by
  rw [runCommand_of_selected h0 hsel, autoInit_enabled hen]

/-- Settles O31: the three operations are one call of `handle`, whose answer decides the end. -/
theorem handledCommandsReturnTheWord : Obligations.HandledCommandsReturnTheWord := by
  intro s a o x h0 hen hk ho
  obtain ⟨t, ht, htEn, hend⟩ := answerCommand_handle (a := a) (o := o) (x := x) h0
  have hframe := (answerCommand_frame (cmdHandle_changes a o x s) ht).1
  refine ⟨t, fun hread => ?_, fun hwrite => ?_, fun hread hwrite => ?_, htEn, hframe, hend⟩
  · subst hread
    exact (runCommand_of_enabled h0 hen hk).trans ht
  · subst hwrite
    exact (runCommand_of_enabled h0 hen hk).trans ht
  · simp only [List.mem_cons, not_or] at ho
    exact (runCommand_of_enabled h0 hen (by simp [Config.generic, *])).trans ht

/-! Halts -/

theorem State.withTrap_eq {trap : Option Trap} (h : s.trap = trap) :
    { s with trap := trap } = s := by
  subst h
  rfl

theorem answerOf_halt (fn : CollabFn) : answerOf fn .halt = .halt := by cases fn <;> rfl

/-- The call that a dispatch of a known pair makes first, unless it is `start` of an enabled resource
(R187 to R194). -/
def firstCall (s : State) (a o : Byte) (x : Half) : CollabFn :=
  if s.enabled a = false then .start
  else if o = s.cfg.opStop then .stop
  else if o = s.cfg.opSleep then .sleep
  else if o = s.cfg.opWakeup then .wakeup
  else .handle o x

theorem startThen_halt {k : State → DispatchEnd × State} (hr : s.nextReply = .halt) :
    startThen a k s = (.halt, s.called .start a) := by
  simp [startThen, hr]

theorem cmdBody_halt (hr : s.nextReply = .halt) (hen : s.enabled a = true) :
    cmdBody a o x s = (.halt, s.called (firstCall s a o x) a) := by
  have hne : ¬ s.enabled a = false := by simp [hen]
  rw [cmdBody_eq, firstCall, if_neg hne]
  split_ifs
  · simp only [cmdStop, hr]
  · simp only [lifecycleCall, hr]
  · simp only [lifecycleCall, hr]
  · simp only [cmdHandle, hr]

/-- A dispatch ends at a call that halts (R265). -/
theorem dispatch_halt (hk : s.cfg.known a o = true) (hr : s.nextReply = .halt)
    (hcall : ¬ (o = s.cfg.opStart ∧ s.enabled a = true)) :
    dispatch a o x s = (.halt, s.called (firstCall s a o x) a) := by
  cases hen : s.enabled a
  case false =>
    rw [firstCall, if_pos hen]
    by_cases hs : o = s.cfg.opStart
    · rw [dispatch_start hk hs, cmdStart, if_neg (by simp [hen]), startThen_halt hr]
    · rw [dispatch_body hk hs, autoInit_disabled hen, startThen_halt hr]
  case true =>
    rw [dispatch_body hk fun hs => hcall ⟨hs, hen⟩, autoInit_enabled hen, cmdBody_halt hr hen]

/-- Settles O34: the dispatch ends at its first call, and raises `DebugHalt`. -/
theorem haltRaisesDebugHalt : Obligations.HaltRaisesDebugHalt := by
  intro s a o x _ h0 hk hr hcall
  have hsame := (DispatchChanges.called a s (firstCall s a o x)).sameButDispatch
  refine ⟨(s.called (firstCall s a o x) a).raise .debugHalt, ?_, rfl, ?_, by simp, by simp, ?_⟩
  · rw [exec_decodeCommand h0, dispatch_halt hk hr hcall]
    rfl
  · simp [hr, answerOf_halt, firstCall]
  · show SameButDispatch a s { s.called (firstCall s a o x) a with trap := none }
    rwa [State.withTrap_eq (by simp [h0])]

end Sys2Proof.Machine
end

section
/-! The packed stream (R211 to R214, R223): what a chunk, a put and a batch append to it, bit by bit,
and when they overflow (R220). -/

namespace Sys2Proof.Machine

variable {s t u : State}

/-! Bytes -/

@[simp] theorem State.packByte_setPackByte (s : State) (i j : Nat) (b : Byte) :
    (s.setPackByte i b).packByte j = if j = i then b else s.packByte j := by
  simp only [State.packByte, State.setPackByte, Memory.read_write]
  split <;> rfl

/-- A packed byte with a chunk ORed in, bit by bit (R212). -/
theorem getLsbD_orChunk (old : Byte) (chunk shift : Nat) {b : Nat} (hb : b < 8) :
    (orChunk old chunk shift).getLsbD b =
      (old.getLsbD b || (decide (shift ≤ b) && chunk.testBit (b - shift))) := by
  rw [orChunk, BitVec.getLsbD_or, BitVec.getLsbD_ofNat, Nat.testBit_mul_two_pow, decide_eq_true hb,
    Bool.true_and]

/-- The next `k` bits of a value under MSB_FIRST, as a number (R212). -/
theorem testBit_chunkOf_msbFirst (v : Word) (width rem k i : Nat) :
    (chunkOf .msbFirst v width rem k).testBit i =
      (decide (i < k) && v.getLsbD (i + (rem - k))) := by
  simp [chunkOf, Nat.testBit_mod_two_pow, Nat.testBit_div_two_pow, BitVec.getLsbD]

/-! One chunk -/

/-- A chunk changes no bit outside the byte being filled (R212). -/
theorem packBit_packChunk_of_ne {v : Word} {width rem j : Nat} (hj : j / 8 ≠ s.pkIdx) :
    (s.packChunk v width rem).packBit j = s.packBit j := by
  simp [State.packBit, streamBit, State.packChunk, hj]

/-- A bit of the byte being filled after a chunk, in the terms of `chunkOf` and `chunkShift`. -/
theorem packBit_packChunk_of_eq {v : Word} {width rem j : Nat} (hmsb : s.cfg.packOrder = .msbFirst)
    (hj : j / 8 = s.pkIdx) :
    (s.packChunk v width rem).packBit j = (s.packBit j ||
      (decide (s.pkFree - min rem s.pkFree ≤ 7 - j % 8) &&
        (decide (7 - j % 8 - (s.pkFree - min rem s.pkFree) < min rem s.pkFree) &&
          v.getLsbD (7 - j % 8 - (s.pkFree - min rem s.pkFree) + (rem - min rem s.pkFree))))) := by
  have hb : 7 - j % 8 < 8 := by omega
  simp only [State.packBit, streamBit, State.packChunk, State.packByte_setPackByte, hj, if_true,
    getLsbD_orChunk _ _ _ hb, hmsb, chunkShift, testBit_chunkOf_msbFirst]

/-- A chunk leaves the bits before it alone (R212). -/
theorem packBit_packChunk_before {v : Word} {width rem j : Nat}
    (hmsb : s.cfg.packOrder = .msbFirst) (hfree : s.pkFree ≤ 8) (hj : j < s.packPos) :
    (s.packChunk v width rem).packBit j = s.packBit j := by
  unfold State.packPos at hj
  by_cases hb : j / 8 = s.pkIdx
  · rw [packBit_packChunk_of_eq hmsb hb]
    have hout : ¬ (7 - j % 8 - (s.pkFree - min rem s.pkFree) < min rem s.pkFree) := by omega
    simp [hout]
  · exact packBit_packChunk_of_ne hb

/-- A chunk puts the next bits of the value, the most significant first, into the free bits of the
byte being filled, and leaves those it does not reach (R212, R223). -/
theorem packBit_packChunk_free {v : Word} {width rem i : Nat}
    (hmsb : s.cfg.packOrder = .msbFirst) (hfree : s.pkFree ≤ 8) (hi : i < s.pkFree) :
    (s.packChunk v width rem).packBit (s.packPos + i) =
      (s.packBit (s.packPos + i) || (decide (i < rem) && v.getLsbD (rem - 1 - i))) := by
  have hbyte : (s.packPos + i) / 8 = s.pkIdx := by unfold State.packPos; omega
  have hbit : 7 - (s.packPos + i) % 8 = s.pkFree - 1 - i := by unfold State.packPos; omega
  rw [packBit_packChunk_of_eq hmsb hbyte, hbit]
  by_cases hr : i < rem
  · have h1 : s.pkFree - min rem s.pkFree ≤ s.pkFree - 1 - i := by omega
    have h2 : s.pkFree - 1 - i - (s.pkFree - min rem s.pkFree) < min rem s.pkFree := by omega
    have h3 : s.pkFree - 1 - i - (s.pkFree - min rem s.pkFree) + (rem - min rem s.pkFree) =
        rem - 1 - i := by omega
    simp [h1, h2, h3, hr]
  · have h1 : ¬ (s.pkFree - min rem s.pkFree ≤ s.pkFree - 1 - i) := by omega
    simp [h1, hr]

/-! What is appended -/

/-- `t` is `s` with `n` bits appended to its packed stream, bit `i` of them being `bit i`: the bits
before them are as they were, and the rest of the byte being filled is zero. -/
structure PackAppends (s t : State) (n : Nat) (bit : Nat → Bool) : Prop where
  cfg : t.cfg = s.cfg
  trap : t.trap = s.trap
  pos : t.packPos = s.packPos + n
  inv : t.PackInv
  clean : t.PackClean
  kept : ∀ k, k < s.packPos → t.packBit k = s.packBit k
  new : ∀ i, i < n → t.packBit (s.packPos + i) = bit i

theorem PackAppends.refl (hinv : s.PackInv) (hclean : s.PackClean) (bit : Nat → Bool) :
    PackAppends s s 0 bit :=
  ⟨rfl, rfl, rfl, hinv, hclean, fun _ _ => rfl, fun _ hi => absurd hi (Nat.not_lt_zero _)⟩

/-- Appending `n` bits and then `m` is appending `n + m`. -/
theorem PackAppends.trans {n m : Nat} {f g bit : Nat → Bool} (hst : PackAppends s t n f)
    (htu : PackAppends t u m g) (hf : ∀ i, i < n → f i = bit i)
    (hg : ∀ i, i < m → g i = bit (n + i)) : PackAppends s u (n + m) bit where
  cfg := htu.cfg.trans hst.cfg
  trap := htu.trap.trans hst.trap
  pos := by rw [htu.pos, hst.pos, Nat.add_assoc]
  inv := htu.inv
  clean := htu.clean
  kept k hk := by rw [htu.kept k (by rw [hst.pos]; omega), hst.kept k hk]
  new i hi := by
    by_cases hin : i < n
    · rw [htu.kept _ (by rw [hst.pos]; omega), hst.new i hin, hf i hin]
    · have hpos : s.packPos + i = t.packPos + (i - n) := by rw [hst.pos]; omega
      rw [hpos, htu.new _ (by omega), hg _ (by omega), Nat.add_sub_cancel' (Nat.le_of_not_lt hin)]

/-- Bit `i` of the low `rem` bits of a value, the most significant first (R223). -/
def lowBit (v : Word) (rem i : Nat) : Bool := v.getLsbD (rem - 1 - i)

/-- The low `rem - n` bits are what follows the first `n` of the low `rem`. -/
theorem lowBit_sub (v : Word) (rem n i : Nat) : lowBit v (rem - n) i = lowBit v rem (n + i) := by
  have hidx : rem - n - 1 - i = rem - 1 - (n + i) := by omega
  rw [lowBit, lowBit, hidx]

/-- The free bits of the byte being filled are zero. -/
theorem packBit_free (hclean : s.PackClean) (hfree : s.pkFree ≤ 8) {i : Nat} (hi : i < s.pkFree) :
    s.packBit (s.packPos + i) = false :=
  hclean _ (Nat.le_add_right _ _) (by unfold State.packPos; omega)

theorem packBit_packChunk_new {v : Word} {width rem i : Nat} (hmsb : s.cfg.packOrder = .msbFirst)
    (hclean : s.PackClean) (hfree : s.pkFree ≤ 8) (hi : i < s.pkFree) :
    (s.packChunk v width rem).packBit (s.packPos + i) = (decide (i < rem) && lowBit v rem i) := by
  rw [packBit_packChunk_free hmsb hfree hi, packBit_free hclean hfree hi, Bool.false_or, lowBit]

/-- A turn that ends inside the byte appends the bits that remain (R212, first branch). -/
theorem packChunk_inside_appends {v : Word} {width rem : Nat} (hmsb : s.cfg.packOrder = .msbFirst)
    (hinv : s.PackInv) (hclean : s.PackClean) (hrem : rem < s.pkFree) :
    PackAppends s { s.packChunk v width rem with pkFree := s.pkFree - rem } rem (lowBit v rem) := by
  obtain ⟨hidx, -, hfree⟩ := hinv
  refine ⟨rfl, rfl, ?pos, ⟨hidx, ?_, ?_⟩, ?clean,
    fun k hk => packBit_packChunk_before hmsb hfree hk, fun i hi => ?new⟩
  case pos => simp only [State.packPos, State.packChunk_pkIdx]; omega
  case clean =>
    intro k hle hlt
    simp only [State.packPos, State.packChunk_pkIdx] at hle hlt
    obtain ⟨i, rfl⟩ : ∃ i, k = s.packPos + i := ⟨k - s.packPos, by unfold State.packPos; omega⟩
    unfold State.packPos at hle hlt
    refine (packBit_packChunk_new hmsb hclean hfree (by omega)).trans ?_
    rw [decide_eq_false (by omega), Bool.false_and]
  case new =>
    refine (packBit_packChunk_new hmsb hclean hfree (by omega)).trans ?_
    rw [decide_eq_true hi, Bool.true_and]
  all_goals dsimp; omega

/-- A turn that fills the byte appends as many bits as were free (R212, second branch). -/
theorem packChunk_across_appends {v : Word} {width rem : Nat} (hmsb : s.cfg.packOrder = .msbFirst)
    (hinv : s.PackInv) (hclean : s.PackClean) (hrem : s.pkFree ≤ rem)
    (hnext : s.pkIdx + 1 < s.cfg.pkbufSize) :
    PackAppends s (s.packChunk v width rem).packAdvanced s.pkFree (lowBit v rem) := by
  obtain ⟨-, -, hfree⟩ := hinv
  have hbefore : ∀ k, k < 8 * (s.pkIdx + 1) →
      (s.packChunk v width rem).packAdvanced.packBit k = (s.packChunk v width rem).packBit k := by
    intro k hk
    have hb : k / 8 ≠ s.pkIdx + 1 := by omega
    simp [State.packBit, streamBit, State.packAdvanced, State.packByte, hb]
  refine ⟨rfl, rfl, ?pos, ⟨hnext, ?_, ?_⟩, ?clean, fun k hk => ?kept, fun i hi => ?new⟩
  case pos => simp only [State.packPos, State.packAdvanced_pkIdx, State.packAdvanced_pkFree,
    State.packChunk_pkIdx]; omega
  case clean =>
    intro k hle hlt
    simp only [State.packPos, State.packAdvanced_pkIdx, State.packAdvanced_pkFree,
      State.packChunk_pkIdx] at hle hlt
    have hb : k / 8 = s.pkIdx + 1 := by omega
    simp [State.packBit, streamBit, State.packAdvanced, State.packByte, hb]
  case kept =>
    rw [hbefore k (by unfold State.packPos at hk; omega), packBit_packChunk_before hmsb hfree hk]
  case new =>
    rw [hbefore _ (by unfold State.packPos; omega), packBit_packChunk_new hmsb hclean hfree hi,
      decide_eq_true (by omega), Bool.true_and]
  all_goals simp

/-! A put -/

/-- The loop of PK.PUT appends the bits that remain, where they do not fill the buffer (R212). -/
theorem packLoop_appends {v : Word} {width fuel rem : Nat} (hfuel : rem < fuel)
    (hmsb : s.cfg.packOrder = .msbFirst) (hinv : s.PackInv) (hclean : s.PackClean)
    (hfits : s.packPos + rem < 8 * s.cfg.pkbufSize) :
    PackAppends s (packLoop v width fuel rem s) rem (lowBit v rem) := by
  induction fuel generalizing rem s with
  | zero => exact absurd hfuel (Nat.not_lt_zero _)
  | succ fuel ih =>
    have ⟨hidx, hfree1, hfree8⟩ := hinv
    by_cases h0 : rem = 0
    · subst h0
      rw [packLoop_done]
      exact .refl hinv hclean _
    by_cases hin : rem < s.pkFree
    · rw [packLoop_inside v width fuel rem s h0 hidx hin]
      exact packChunk_inside_appends hmsb hinv hclean hin
    · have hge := Nat.le_of_not_lt hin
      have hnext : s.pkIdx + 1 < s.cfg.pkbufSize := by unfold State.packPos at hfits; omega
      have hfill := packChunk_across_appends (v := v) (width := width) hmsb hinv hclean hge hnext
      rw [packLoop_across v width fuel rem s h0 hnext hge]
      have hrest := ih (s := (s.packChunk v width rem).packAdvanced) (rem := rem - s.pkFree)
        (by omega) hmsb hfill.inv hfill.clean (by rw [hfill.pos, hfill.cfg]; omega)
      have hall := hfill.trans hrest (fun _ _ => rfl) fun i _ => lowBit_sub v rem s.pkFree i
      rwa [Nat.add_sub_cancel' hge] at hall

/-- The loop of PK.PUT raises `CodecOverflow` where the bits that remain fill the buffer (R220). -/
theorem packLoop_overflows {v : Word} {width fuel rem : Nat} (hfuel : rem < fuel)
    (hinv : s.PackInv) (hfull : 8 * s.cfg.pkbufSize ≤ s.packPos + rem) :
    (packLoop v width fuel rem s).trap = some .codecOverflow := by
  induction fuel generalizing rem s with
  | zero => exact absurd hfuel (Nat.not_lt_zero _)
  | succ fuel ih =>
    have ⟨hidx, hfree1, hfree8⟩ := hinv
    unfold State.packPos at hfull
    have h0 : rem ≠ 0 := by omega
    have hge : s.pkFree ≤ rem := by omega
    by_cases hlast : s.pkIdx + 1 = s.cfg.pkbufSize
    · rw [packLoop_overflow v width fuel rem s h0 hlast hge]
      rfl
    · have hnext : s.pkIdx + 1 < s.cfg.pkbufSize := by omega
      rw [packLoop_across v width fuel rem s h0 hnext hge]
      refine ih (by omega) ⟨hnext, by simp, by simp⟩ ?_
      simp only [State.packPos, State.packAdvanced_cfg, State.packAdvanced_pkIdx,
        State.packAdvanced_pkFree, State.packChunk_cfg, State.packChunk_pkIdx]
      omega

/-- PK.PUT appends the low `width` bits of the value (R212, R223). -/
theorem packed_appends (v : Word) {width : Nat} (hmsb : s.cfg.packOrder = .msbFirst)
    (hinv : s.PackInv) (hclean : s.PackClean)
    (hfits : s.packPos + width < 8 * s.cfg.pkbufSize) :
    PackAppends s (s.packed v width) width (lowBit v width) :=
  packLoop_appends (Nat.lt_succ_self width) hmsb hinv hclean hfits

theorem packed_overflows (v : Word) {width : Nat} (hinv : s.PackInv)
    (hfull : 8 * s.cfg.pkbufSize ≤ s.packPos + width) :
    (s.packed v width).trap = some .codecOverflow :=
  packLoop_overflows (Nat.lt_succ_self width) hinv hfull

/-! A batch -/

/-- Bit `k` of the low `width` bits of each value, one value after the other (R214, R223). -/
def batchBit (width : Nat) (vs : List Word) (k : Nat) : Bool :=
  lowBit (vs[k / width]?.getD 0) width (k % width)

theorem batchBit_cons_first {width k : Nat} {v : Word} {vs : List Word} (hk : k < width) :
    batchBit width (v :: vs) k = lowBit v width k := by
  simp [batchBit, Nat.div_eq_of_lt hk, Nat.mod_eq_of_lt hk]

theorem batchBit_cons_rest {width k : Nat} {v : Word} {vs : List Word} (hw : 0 < width) :
    batchBit width (v :: vs) (width + k) = batchBit width vs k := by
  simp [batchBit, Nat.add_div_left k hw]

theorem batchBit_value {width i j : Nat} {v : Word} {vs : List Word} (hv : vs[j]? = some v)
    (hi : i < width) : batchBit width vs (j * width + i) = lowBit v width i := by
  have hdiv : (j * width + i) / width = j := by
    rw [Nat.mul_comm, Nat.mul_add_div (by omega), Nat.div_eq_of_lt hi, Nat.add_zero]
  have hmod : (j * width + i) % width = i := by
    rw [Nat.mul_comm, Nat.mul_add_mod, Nat.mod_eq_of_lt hi]
  rw [batchBit, hdiv, hmod, hv, Option.getD_some]

/-- The puts of a batch append every value, where they do not fill the buffer (R214). -/
theorem packAll_appends {width : Nat} {vs : List Word} (h0 : s.trap = none)
    (hmsb : s.cfg.packOrder = .msbFirst) (hinv : s.PackInv) (hclean : s.PackClean)
    (hfits : s.packPos + vs.length * width < 8 * s.cfg.pkbufSize) :
    PackAppends s (packAll width vs s) (vs.length * width) (batchBit width vs) := by
  induction vs generalizing s with
  | nil =>
    rw [List.length_nil, Nat.zero_mul]
    exact .refl hinv hclean _
  | cons v vs ih =>
    rw [List.length_cons, Nat.succ_mul vs.length, Nat.add_comm (vs.length * width)] at hfits ⊢
    have hput := packed_appends v (width := width) hmsb hinv hclean (by omega)
    have ht : (s.packed v width).trap = none := hput.trap.trans h0
    have hrest := ih ht (hput.cfg ▸ hmsb) hput.inv hput.clean (by rw [hput.pos, hput.cfg]; omega)
    have hstep : packAll width (v :: vs) s = packAll width vs (s.packed v width) := by
      simp [packAll, ht]
    rw [hstep]
    refine hput.trans hrest (fun i hi => (batchBit_cons_first hi).symm) fun i hi => ?_
    have hw : 0 < width := Nat.pos_of_ne_zero fun h => by simp [h] at hi
    exact (batchBit_cons_rest hw).symm

/-- The puts of a batch raise `CodecOverflow` where they fill the buffer (R214, R220). -/
theorem packAll_overflows {width : Nat} {vs : List Word} (h0 : s.trap = none)
    (hmsb : s.cfg.packOrder = .msbFirst) (hinv : s.PackInv) (hclean : s.PackClean)
    (hfull : 8 * s.cfg.pkbufSize ≤ s.packPos + vs.length * width) :
    (packAll width vs s).trap = some .codecOverflow := by
  induction vs generalizing s with
  | nil =>
    obtain ⟨hidx, hfree, -⟩ := hinv
    rw [List.length_nil, Nat.zero_mul, State.packPos] at hfull
    omega
  | cons v vs ih =>
    rw [List.length_cons, Nat.succ_mul vs.length] at hfull
    by_cases hfits : s.packPos + width < 8 * s.cfg.pkbufSize
    · have hput := packed_appends v hmsb hinv hclean hfits
      have ht : (s.packed v width).trap = none := hput.trap.trans h0
      have hstep : packAll width (v :: vs) s = packAll width vs (s.packed v width) := by
        simp [packAll, ht]
      rw [hstep]
      exact ih ht (hput.cfg ▸ hmsb) hput.inv hput.clean (by rw [hput.pos, hput.cfg]; omega)
    · have ht := packed_overflows v hinv (Nat.le_of_not_lt hfits)
      simp [packAll, ht]

/-! The packed bytes -/

/-- The byte count is the bit count, rounded up (R213). -/
theorem packLen_eq (hinv : s.PackInv) : s.packLen = (s.packPos + 7) / 8 := by
  obtain ⟨-, hfree1, hfree8⟩ := hinv
  unfold State.packLen State.packPos
  split <;> omega

/-- The bits of the bytes packed are those of the buffer, and 0 past its last byte. -/
theorem streamBit_packBytes (s : State) (n k : Nat) :
    streamBit (byteAt (s.packBytes n)) k = (decide (k / 8 < n) && s.packBit k) := by
  unfold streamBit byteAt State.packBytes State.packBit streamBit
  by_cases hk : k / 8 < n <;> simp [hk]

/-- The bytes packed hold every bit packed. -/
theorem streamBit_packBytes_before (hinv : s.PackInv) {k : Nat} (hk : k < s.packPos) :
    streamBit (byteAt (s.packBytes s.packLen)) k = s.packBit k := by
  rw [streamBit_packBytes, packLen_eq hinv, decide_eq_true (by omega), Bool.true_and]

/-- The bytes packed are padded with zeros (R213). -/
theorem streamBit_packBytes_after (hinv : s.PackInv) (hclean : s.PackClean) {k : Nat}
    (hk : s.packPos ≤ k) : streamBit (byteAt (s.packBytes s.packLen)) k = false := by
  rw [streamBit_packBytes, packLen_eq hinv]
  by_cases hlast : k / 8 < (s.packPos + 7) / 8
  · obtain ⟨-, hfree1, hfree8⟩ := hinv
    rw [hclean k hk (by unfold State.packPos at hk hlast; omega), Bool.and_false]
  · rw [decide_eq_false hlast, Bool.false_and]

/-! The batch as an operation -/

theorem packStarted_packPos (s : State) : s.packStarted.packPos = 0 := rfl

theorem packStarted_packInv (h : 1 ≤ s.cfg.pkbufSize) : s.packStarted.PackInv :=
  ⟨h, Nat.le_add_left 1 7, le_rfl⟩

theorem packStarted_packClean (s : State) : s.packStarted.PackClean := by
  intro k _ hk
  have hb : k / 8 = 0 := by have : k < 8 := hk; omega
  simp [State.packBit, streamBit, hb, State.packStarted, State.packByte]

theorem execPkBatch_of_width {width : Nat} {vs : List Word} (h0 : s.trap = none)
    (hw : vs = [] ∨ 1 ≤ width ∧ width ≤ 32) :
    execPkBatch width vs s = .next (packAll width vs s.packStarted).batchDone := by
  have hok : batchWidthOk width vs.length = true := by
    rcases hw with rfl | hw
    · rfl
    · simp [batchWidthOk, widthOk, hw]
  simp [execPkBatch, h0, hok]

theorem batchDone_of_trap (h : s.trap ≠ none) : s.batchDone = s := by
  simp [State.batchDone, Option.isSome_iff_ne_none, h]

theorem batchDone_of_none (h : s.trap = none) :
    s.batchDone = s.answer (.bytes (s.packBytes s.packLen)) := by
  simp [State.batchDone, h]

/-- A packed reply, run on its own (R242, R248). -/
theorem execRbCk_packed {seq : Half} {status : Byte} (h0 : s.trap = none) :
    execRbCk seq status .packed s = .next (s.replyPacked seq status) := live_none h0 _

/-- Settles O42: the batch appends every value to an empty stream, or overflows; the bytes it answers
are the stream that a packed reply sends. -/
theorem batchPacksEveryValue : Obligations.BatchPacksEveryValue := by
  intro s width vs h0
  refine ⟨fun hmsb hsize hw => ⟨fun hfits => ?fits, fun hfull => ?overflow⟩,
    fun seq status hno => ?unspelt⟩
  case fits =>
    have hbatch := packAll_appends (s := s.packStarted) (width := width) (vs := vs) h0 hmsb
      (packStarted_packInv hsize) (packStarted_packClean s)
      (by rw [packStarted_packPos, Nat.zero_add]; exact hfits)
    have hready : (packAll width vs s.packStarted).pkReady = true :=
      (congrArg State.pkReady (packAll_rest width vs s.packStarted) :)
    have hexec := execPkBatch_of_width h0 hw
    generalize packAll width vs s.packStarted = u at hbatch hready hexec
    have ht : u.trap = none := hbatch.trap.trans h0
    have hpos : u.packPos = vs.length * width := by
      rw [hbatch.pos, packStarted_packPos, Nat.zero_add]
    rw [batchDone_of_none ht] at hexec
    refine ⟨_, _, hexec, ht, rfl, ?length, fun j i v hv hi => ?bits, fun k hk => ?padding,
      fun seq status hle => ?reply⟩
    case length => rw [State.packBytes_length, packLen_eq hbatch.inv, hpos]
    case bits =>
      have hin : j * width + i < vs.length * width := by
        have hj : j + 1 ≤ vs.length := (List.getElem?_eq_some_iff.1 hv).1
        have := Nat.mul_le_mul_right width hj
        rw [Nat.succ_mul] at this
        omega
      have hnew := hbatch.new _ hin
      rw [packStarted_packPos, Nat.zero_add] at hnew
      rw [streamBit_packBytes_before hbatch.inv (hpos ▸ hin), hnew, batchBit_value hv hi, lowBit]
    case padding => exact streamBit_packBytes_after hbatch.inv hbatch.clean (hpos ▸ hk)
    case reply =>
      rw [State.packBytes_length] at hle
      have hspelt : (u.answer (.bytes (u.packBytes u.packLen))).packSpelt = true :=
        packSpelt_iff.2 ⟨hready, hle⟩
      replace ht : (u.answer (.bytes (u.packBytes u.packLen))).trap = none := ht
      have hrun := execRbCk_packed (seq := seq) (status := status) ht
      rw [replyPacked_of_spelt hspelt] at hrun
      exact hrun
  case overflow =>
    have ht := packAll_overflows (s := s.packStarted) (width := width) (vs := vs) h0 hmsb
      (packStarted_packInv hsize) (packStarted_packClean s)
      (by rw [packStarted_packPos, Nat.zero_add]; exact hfull)
    refine ⟨_, execPkBatch_of_width h0 hw, ?_⟩
    rwa [batchDone_of_trap (by simp [ht])]
  case unspelt =>
    obtain ⟨p, hp, hreply⟩ :=
      replyPacked_of_not_spelt (seq := seq) (status := status) (packSpelt_eq_false hno)
    refine ⟨p, hp, (execRbCk_packed h0).trans ?_⟩
    rw [hreply]
    rfl

/-- Settles O43: UP.INIT by definition, the reads by the two kinds of source. -/
theorem unpackInitPointsAtItsSource : Obligations.UnpackInitPointsAtItsSource := by
  intro s
  refine ⟨fun h0 => ⟨fun b => live_none h0 _, fun n => live_none h0 _⟩, fun b i hsrc hi => ?_,
    fun n i hsrc => ⟨State.sourceByte_pkBuf hsrc i, fun v => ?_⟩⟩
  · rw [State.sourceByte_bytes hsrc, List.getElem?_eq_getElem hi, Option.getD_some]
  · have hsrc' : (s.setPackByte i v).upSrc = .pkBuf n := hsrc
    rw [State.sourceByte_pkBuf hsrc', State.packByte_setPackByte, if_pos rfl]

end Sys2Proof.Machine
end

section
/-! M.EXEC and the framer (R75): a dispatch neither reads nor writes what the framer owns, so a
transfer received after M.TAKE leaves the dispatch, its reply and its calls alone. -/

namespace Sys2Proof.Machine

variable {s t v : State}

/-- `s` with everything the framer writes (R61) as it is in `v`. -/
def State.withFramerOf (s v : State) : State :=
  { s with st := v.st, len := v.len, cnt := v.cnt, rxbuf := v.rxbuf, done := v.done,
           busy := v.busy }

/-- The command ends alike whatever the framer holds, and leaves what it holds. -/
def FramerIndependent (k : State → DispatchEnd × State) : Prop :=
  ∀ s v : State, k (s.withFramerOf v) = Prod.map id (State.withFramerOf · v) (k s)

@[simp] theorem withFramerOf_cfg : (s.withFramerOf v).cfg = s.cfg := rfl

@[simp] theorem withFramerOf_answers : (s.withFramerOf v).answers = s.answers := rfl

@[simp] theorem nextReply_withFramerOf : (s.withFramerOf v).nextReply = s.nextReply := rfl

@[simp] theorem replied_withFramerOf :
    (s.withFramerOf v).replied = s.replied.withFramerOf v := by
  simp only [State.replied, withFramerOf_answers]
  cases s.answers <;> rfl

@[simp] theorem called_withFramerOf (fn : CollabFn) (a : Byte) :
    (s.withFramerOf v).called fn a = (s.called fn a).withFramerOf v := by
  simp only [State.called, replied_withFramerOf, nextReply_withFramerOf]
  rfl

theorem lifecycleDone_framerIndependent : FramerIndependent State.lifecycleDone := fun _ _ => rfl

theorem startThen_framerIndependent {a : Byte} {k : State → DispatchEnd × State}
    (hk : FramerIndependent k) : FramerIndependent (startThen a k) := by
  intro s v
  simp only [startThen, nextReply_withFramerOf, called_withFramerOf]
  cases s.nextReply with
  | ok w => exact hk ((s.called .start a).setEn a true) v
  | timeout => rfl
  | halt => rfl

theorem autoInit_framerIndependent {a : Byte} {k : State → DispatchEnd × State}
    (hk : FramerIndependent k) : FramerIndependent (autoInit a k) := by
  intro s v
  cases hen : s.enabled a
  case false =>
    rw [autoInit_disabled hen, autoInit_disabled (s := s.withFramerOf v) hen]
    exact startThen_framerIndependent hk s v
  case true =>
    rw [autoInit_enabled hen, autoInit_enabled (s := s.withFramerOf v) hen]
    exact hk s v

theorem cmdStart_framerIndependent (a : Byte) : FramerIndependent (cmdStart a) :=
  autoInit_framerIndependent lifecycleDone_framerIndependent

theorem cmdStop_framerIndependent (a : Byte) : FramerIndependent (cmdStop a) := by
  intro s v
  simp only [cmdStop, nextReply_withFramerOf, called_withFramerOf]
  cases s.nextReply <;> rfl

theorem lifecycleCall_framerIndependent (fn : CollabFn) (a : Byte) :
    FramerIndependent (lifecycleCall fn a) := by
  intro s v
  simp only [lifecycleCall, nextReply_withFramerOf, called_withFramerOf]
  cases s.nextReply <;> rfl

theorem cmdHandle_framerIndependent (a o : Byte) (x : Half) :
    FramerIndependent (cmdHandle a o x) := by
  intro s v
  simp only [cmdHandle, nextReply_withFramerOf, called_withFramerOf]
  cases s.nextReply <;> rfl

theorem cmdBody_framerIndependent (a o : Byte) (x : Half) : FramerIndependent (cmdBody a o x) := by
  intro s v
  rw [cmdBody_eq, cmdBody_eq, withFramerOf_cfg]
  split_ifs
  exacts [cmdStop_framerIndependent a s v, lifecycleCall_framerIndependent .sleep a s v,
    lifecycleCall_framerIndependent .wakeup a s v, cmdHandle_framerIndependent a o x s v]

theorem dispatch_framerIndependent (a o : Byte) (x : Half) : FramerIndependent (dispatch a o x) := by
  intro s v
  cases hk : s.cfg.known a o
  case false =>
    rw [dispatch_unknown hk, dispatch_unknown (s := s.withFramerOf v) hk]
    rfl
  by_cases hs : o = s.cfg.opStart
  · rw [dispatch_start hk hs, dispatch_start (s := s.withFramerOf v) hk hs]
    exact cmdStart_framerIndependent a s v
  · rw [dispatch_body hk hs, dispatch_body (s := s.withFramerOf v) hk hs]
    exact autoInit_framerIndependent (cmdBody_framerIndependent a o x) s v

/-- What the framer holds reaches, through the end of M.EXEC, only the fields it owns (R184). -/
theorem finishExec_withFramerOf (r : DispatchEnd × State) (w : State) :
    (finishExec (Prod.map id (State.withFramerOf · v) r)).withFramerOf w =
      (finishExec r).withFramerOf w := by
  obtain ⟨_ | _ | _, d⟩ := r <;> rfl

/-- M.EXEC of a latched command (R184). -/
theorem execMExec_latched (h0 : s.trap = none) (hcv : s.cv = true) :
    execMExec s = .next (finishExec (dispatch s.ca s.co s.cx s)) :=
  (live_none h0 _).trans (if_pos hcv)

/-- M.EXEC with no command latched (R42; log entry 12). -/
theorem execMExec_unlatched (h0 : s.trap = none) (hcv : s.cv = false) : execMExec s = .next s :=
  (live_none h0 _).trans (if_neg (by simp [State.execEnabled, hcv]))

/-- M.EXEC after another transfer: the same state, but for what the framer writes (R75). -/
theorem execMExec_withFramerOf (v : State) (h : execMExec s = .next t) :
    ∃ u, execMExec (s.withFramerOf v) = .next u ∧ u.withFramerOf v = t.withFramerOf v := by
  rcases live_next h with ⟨h0, -⟩ | ⟨h0, rfl⟩
  case inr => exact ⟨t.withFramerOf v, live_debugHalt (s := t.withFramerOf v) h0 _, rfl⟩
  cases hcv : s.cv
  case false =>
    rw [execMExec_unlatched h0 hcv] at h
    exact ⟨_, execMExec_unlatched (s := s.withFramerOf v) h0 hcv, by rw [next_inj h]; rfl⟩
  case true =>
    rw [execMExec_latched h0 hcv] at h
    refine ⟨_, execMExec_latched (s := s.withFramerOf v) h0 hcv, ?_⟩
    rw [next_inj h, dispatch_framerIndependent, finishExec_withFramerOf]
    rfl

/-- Settles O24: the two runs of M.EXEC leave the same state, but for what the framer writes. -/
theorem dispatchIgnoresNewTransfers : Obligations.DispatchIgnoresNewTransfers := by
  intro s t st len cnt m done busy h
  obtain ⟨u, hu, hut⟩ := execMExec_withFramerOf
    { s with st := st, len := len, cnt := cnt, rxbuf := m, done := done, busy := busy } h
  exact ⟨u, hu, (congrArg State.txStream hut :), (congrArg State.calls hut :),
    (congrArg State.en hut :), (congrArg State.cv hut :), (congrArg State.trap hut :)⟩

end Sys2Proof.Machine
end

section
/-! What a known command other than `start` calls (R187 to R194): on a disabled resource `start`, then
what it calls on an enabled one, which is one entry point and no `start`. -/

namespace Sys2Proof.Machine

variable {s : State} {a o : Byte} {x : Half}

theorem startThen_ok {k : State → DispatchEnd × State} {w : Word} (hr : s.nextReply = .ok w) :
    startThen a k s = k ((s.called .start a).setEn a true) := by
  simp only [startThen, hr]

theorem startThen_timeout {k : State → DispatchEnd × State} (hr : s.nextReply = .timeout) :
    startThen a k s = (.timeout, (s.called .start a).drawEn a) := by
  simp only [startThen, hr]

/-- A dispatch to a disabled resource starts it and goes on as AUTOINIT does (R185, R187). -/
theorem dispatch_disabled (hk : s.cfg.known a o = true) (hs : o ≠ s.cfg.opStart)
    (hen : s.enabled a = false) : dispatch a o x s = startThen a (cmdBody a o x) s := by
  rw [dispatch_body hk hs, autoInit_disabled hen]

theorem dispatch_enabled_body (hk : s.cfg.known a o = true) (hs : o ≠ s.cfg.opStart)
    (hen : s.enabled a = true) : dispatch a o x s = cmdBody a o x s := by
  rw [dispatch_body hk hs, autoInit_enabled hen]

/-- Once `start` completes the dispatch is that of the same triple from the started resource (R187). -/
theorem dispatch_started {w : Word} (hk : s.cfg.known a o = true) (hs : o ≠ s.cfg.opStart)
    (hen : s.enabled a = false) (hr : s.nextReply = .ok w) :
    dispatch a o x s = dispatch a o x ((s.called .start a).setEn a true) := by
  rw [dispatch_disabled hk hs hen, startThen_ok hr,
    dispatch_enabled_body (by simpa using hk) (by simpa using hs) (by simp)]

/-- The one call of a command to an enabled resource (R189 to R194). -/
theorem cmdBody_firstCall (hen : s.enabled a = true) :
    (cmdBody a o x s).2.calls =
      s.calls ++ [⟨firstCall s a o x, a, answerOf (firstCall s a o x) s.nextReply⟩] := by
  rw [cmdBody_eq, firstCall, if_neg (by simp [hen] : ¬ s.enabled a = false)]
  split_ifs
  exacts [cmdStop_calls a s, lifecycleCall_calls .sleep a s, lifecycleCall_calls .wakeup a s,
    cmdHandle_calls a o x s]

theorem firstCall_ne_start (hen : s.enabled a = true) : firstCall s a o x ≠ .start := by
  rw [firstCall, if_neg (by simp [hen] : ¬ s.enabled a = false)]
  split_ifs <;> simp

/-- Settles O32: AUTOINIT by the answer of `start`, then the one call of an enabled resource. -/
theorem disabledResourceIsStartedFirst : Obligations.DisabledResourceIsStartedFirst := by
  intro s a o x hk hs
  refine ⟨fun hen => ?disabled, fun hen => ?enabled⟩
  case disabled =>
    have hcalls := State.called_calls s .start a
    have hcalled := DispatchChanges.called a s .start
    cases hr : s.nextReply with
    | ok w =>
      exact ⟨_, dispatch_started hk hs hen hr, hcalls.trans (by rw [hr]; rfl), by simp,
        (hcalled.trans (.setEn a _ true)).sameButDispatch⟩
    | timeout =>
      exact ⟨_, (dispatch_disabled hk hs hen).trans (startThen_timeout hr),
        hcalls.trans (by rw [hr]; rfl), (hcalled.trans (.drawEn a _)).sameButDispatch⟩
    | halt =>
      exact ⟨_, (dispatch_disabled hk hs hen).trans (startThen_halt hr),
        hcalls.trans (by rw [hr]; rfl), State.called_en s .start a, hcalled.sameButDispatch⟩
  case enabled =>
    rw [dispatch_enabled_body hk hs hen]
    exact ⟨_, cmdBody_firstCall hen, firstCall_ne_start hen, rfl⟩

end Sys2Proof.Machine
end

section
/-! Words (R91 to R111): decoding inverts the encoder, a word has one spelling, and what decoding
selects is an operation the block can select. -/

namespace Sys2Proof

variable {c : Config}

/-! Streaming requests -/

/-- A command's word decodes to what its triple selects (R91, R92). -/
theorem decodeStream_encodeCommand (c : Config) (a o : Byte) (x : Half) :
    decodeStream c (encodeCommand c a o x) = .ok (decodeCommand c a o x) := by
  simp [encodeCommand, decodeStream, decodePayload]

theorem decodeCommand_unknown {a o : Byte} (x : Half) (hk : c.known a o = false) :
    decodeCommand c a o x = .cmdInvalid a o x := by
  simp [decodeCommand, hk]

/-- The generic opcodes, last first, in the direction in which `decodeCommand` compares them. -/
theorem Config.Legal.generic_reverse_nodup (h : c.Legal) :
    [c.opWrite, c.opRead, c.opWakeup, c.opSleep, c.opStop, c.opStart].Nodup :=
  List.nodup_reverse.2 h.2.1

/-- The dispatcher's command for each generic opcode, when the opcodes are distinct (R101). -/
theorem decodeCommand_generic (hc : c.Legal) {a o : Byte} (x : Half) (hk : c.known a o = true) :
    (o = c.opStart → decodeCommand c a o x = .cmdStart a x) ∧
    (o = c.opStop → decodeCommand c a o x = .cmdStop a x) ∧
    (o = c.opSleep → decodeCommand c a o x = .cmdSleep a x) ∧
    (o = c.opWakeup → decodeCommand c a o x = .cmdWakeup a x) ∧
    (o = c.opRead → decodeCommand c a o x = .cmdRead a x) ∧
    (o = c.opWrite → decodeCommand c a o x = .cmdWrite a x) := by
  have hne := hc.generic_reverse_nodup
  simp only [List.nodup_cons, List.mem_cons, List.not_mem_nil, or_false, not_or] at hne
  obtain ⟨hwrite, hread, hwakeup, hsleep, hstop, -⟩ := hne
  refine ⟨?_, ?_, ?_, ?_, ?_, ?_⟩ <;> rintro rfl <;> simp [decodeCommand, *]

theorem decodeCommand_other {a o : Byte} (x : Half) (hk : c.known a o = true)
    (ho : o ∉ c.generic) : decodeCommand c a o x = .cmdRspec a o x := by
  simp only [Config.generic, List.mem_cons, List.not_mem_nil, or_false, not_or] at ho
  simp [decodeCommand, *]

/-! Checksummed words -/

theorem decodeFrame_of_not_valid {f : List Byte} (h : frameValid c f = false) :
    decodeFrame c f = .ckDrop f := by
  simp [decodeFrame, h]

theorem decodeCode_getId (c : Config) (seq : Half) (ops : List Byte) :
    decodeCode c seq Config.cmdGetId ops = .ckGetid seq ops := if_pos rfl

theorem decodeCode_unroutable {seq code : Half} {ops : List Byte}
    (hcode : code ≠ Config.cmdGetId) (hr : c.routeOf code ops = none) :
    decodeCode c seq code ops = .ckUnsup seq code ops := by
  rw [decodeCode, if_neg hcode, if_neg (by simp [hr])]

/-- The length byte of a reply says its length (R95). -/
theorem encodeReply_lengthByte (c : Config) (seq : Half) (status : Byte) {p : List Byte}
    (h : p.length ≤ 249) :
    (BitVec.ofNat 8 (6 + p.length)).toNat = (encodeReply c seq status p).length := by
  rw [encodeReply_length, BitVec.toNat_ofNat]
  omega

/-- A reply's reader finds what was sent (R95). -/
theorem readCkReply_encodeReply (c : Config) (seq : Half) (status : Byte) (p : List Byte)
    (h : p.length ≤ 249) : readCkReply c (encodeReply c seq status p) = some (seq, status, p) := by
  have htests : readCkReply c (encodeReply c seq status p) =
      some (join16 (hiByte seq) (loByte seq), status, (p ++ [_]).dropLast) :=
    if_pos ⟨rfl, encodeReply_lengthByte c seq status h, by simp, withChecksum_closed _⟩
  rw [htests, join16_hi_lo, List.dropLast_concat]

theorem readStreamReply_wordBytes (c : Config) (w : Word) :
    readStreamReply c (wordBytes w c.replyOrder) = some w := by
  cases h : c.replyOrder <;> simp [wordBytes, readStreamReply, h]

/-! The round trip -/

/-- The word of every well-formed operation with a format decodes to it (R91, R92, R94,
R99 to R103). -/
theorem decode_encode {i : Instr} {fmt : Format} (hc : c.Legal) (hi : i.wellFormed c = true)
    (hf : formatOf i = some fmt) : decode c fmt (encode c i) = .ok i := by
  cases i with
  | rxSkip b | rxSync b =>
    cases hf
    simp_all [Instr.wellFormed, encode, decode, decodeByte]
  | rxLen _ | rxData _ | rxMasked _ | ckFrame _ => cases hf; rfl
  | ckDrop f =>
    cases hf
    have hbad : frameValid c f = false := by simpa [Instr.wellFormed] using hi
    simp only [encode, decode, decodeFrame_of_not_valid hbad]
  | ckGetid seq ops =>
    cases hf
    have hlen : ops.length ≤ 248 := by simpa [Instr.wellFormed] using hi
    simp only [encode, decode, decodeFrame_encodeRequest _ _ _ _ hlen, decodeCode_getId]
  | ckRoute seq code ops =>
    cases hf
    simp only [Instr.wellFormed, Bool.and_eq_true, decide_eq_true_eq, bne_iff_ne,
      Option.isSome_iff_exists] at hi
    obtain ⟨⟨hlen, hcode⟩, r, hr⟩ := hi
    simp only [encode, decode, decodeFrame_encodeRequest _ _ _ _ hlen, decodeCode_route hcode hr]
  | ckUnsup seq code ops =>
    cases hf
    simp only [Instr.wellFormed, Bool.and_eq_true, decide_eq_true_eq, bne_iff_ne,
      Option.isNone_iff_eq_none] at hi
    obtain ⟨⟨hlen, hcode⟩, hr⟩ := hi
    simp only [encode, decode, decodeFrame_encodeRequest _ _ _ _ hlen,
      decodeCode_unroutable hcode hr]
  | cmdInvalid a o x =>
    cases hf
    have hk : c.known a o = false := by simpa [Instr.wellFormed] using hi
    simp only [encode, decode, decodeStream_encodeCommand, decodeCommand_unknown x hk]
  | cmdStart a x | cmdStop a x | cmdSleep a x | cmdWakeup a x | cmdRead a x | cmdWrite a x =>
    cases hf
    obtain ⟨hstart, hstop, hsleep, hwakeup, hread, hwrite⟩ := decodeCommand_generic hc x hi
    simp only [encode, decode, decodeStream_encodeCommand, hstart, hstop, hsleep,
      hwakeup, hread, hwrite]
  | cmdRspec a o x =>
    cases hf
    simp only [Instr.wellFormed, Bool.and_eq_true, Bool.not_eq_true', List.contains_eq_mem,
      decide_eq_false_iff_not] at hi
    obtain ⟨hk, ho⟩ := hi
    simp only [encode, decode, decodeStream_encodeCommand, decodeCommand_other x hk ho]
  | mTake | mExec | pkInit | pkPut _ _ | pkLen | pkBatch _ _ | upInit _ | upGet _ | upBatch _ _
  | rbStream _ | rbCk _ _ _ | evPreempt | evAbort | evEnterBus | evReset => cases hf

/-- Settles O1: the request formats by the constructors, the two reply formats by their readers. -/
theorem decodeOfEncodeIsIdentity : Obligations.DecodeOfEncodeIsIdentity :=
  ⟨fun _ _ _ hc hi hf => decode_encode hc hi hf, readStreamReply_wordBytes, readCkReply_encodeReply⟩

/-- Settles O2: the device has the spec's values, and the words are read by evaluating the model. -/
theorem writtenWordsDecode : Obligations.WrittenWordsDecode :=
  ⟨rfl, rfl, rfl, rfl, rfl, rfl, rfl, rfl, rfl, rfl⟩

/-! One spelling -/

/-- A word put together from four bytes has them as its bytes (R93). -/
theorem wordBytes_joinWord (b0 b1 b2 b3 : Byte) :
    wordBytes (joinWord b0 b1 b2 b3) .le = [b0, b1, b2, b3] := by
  have h0 := b0.isLt
  have h1 := b1.isLt
  have h2 := b2.isLt
  have h3 := b3.isLt
  have hsum : (joinWord b0 b1 b2 b3).toNat =
      b0.toNat + 256 * (b1.toNat + 256 * (b2.toNat + 256 * b3.toNat)) := by
    simp only [joinWord, BitVec.toNat_ofNat]
    omega
  simp only [wordBytes, List.cons.injEq, and_true]
  refine ⟨?_, ?_, ?_, ?_⟩ <;>
    (apply BitVec.eq_of_toNat_eq; rw [byteOf_toNat, hsum]; omega)

/-- Four bytes that are read as a reply word are the word's bytes, in either order (R93). -/
theorem wordBytes_of_readStreamReply {bs : List Byte} {w : Word}
    (h : readStreamReply c bs = some w) : wordBytes w c.replyOrder = bs := by
  unfold readStreamReply at h
  split at h
  case h_2 => cases h
  case h_1 b0 b1 b2 b3 =>
    cases ho : c.replyOrder <;> simp only [ho] at h <;> cases h
    case le => exact wordBytes_joinWord b0 b1 b2 b3
    case be => exact congrArg List.reverse (wordBytes_joinWord b3 b2 b1 b0)

theorem ofNat_of_toNat {b : Byte} {n : Nat} (h : b.toNat = n) : BitVec.ofNat 8 n = b := by
  rw [← h, BitVec.ofNat_toNat, BitVec.setWidth_eq]

/-- A sequence that its last byte closes is the bytes before it with their checksum (R94, R95). -/
theorem withChecksum_of_closed {g : List Byte} {e : Byte}
    (h : (g ++ [e]).getLast? = some (ck8 (g ++ [e]).dropLast)) : withChecksum g = g ++ [e] := by
  rw [List.getLast?_concat, List.dropLast_concat] at h
  rw [withChecksum, ← Option.some.inj h]

/-- Bytes that pass the tests of a reply's reader are the one spelling of what it finds (R95). -/
theorem encodeReply_of_readCkReply {f : List Byte} {seq : Half} {status : Byte} {p : List Byte}
    (h : readCkReply c f = some (seq, status, p)) :
    p.length ≤ 249 ∧ encodeReply c seq status p = f := by
  unfold readCkReply at h
  split at h
  case h_2 => cases h
  case h_1 s l sh sl k rest =>
    split at h
    case isFalse => cases h
    case isTrue htests =>
      obtain ⟨rfl, hl, hrest, hclosed⟩ := htests
      obtain ⟨q, e, rfl⟩ := (List.eq_nil_or_concat' rest).resolve_left hrest
      rw [List.dropLast_concat] at h
      cases h
      simp only [List.length_cons, List.length_append, List.length_nil] at hl
      refine ⟨by omega, ?_⟩
      rw [encodeReply, ofNat_of_toNat (b := l) (by omega), hiByte_join16, loByte_join16]
      exact withChecksum_of_closed (g := [c.sof, l, sh, sl, status] ++ p) hclosed

/-- A read that passes the tests of R162 is a request of at most 248 operand bytes. -/
theorem encodeRequest_of_frameValid {f : List Byte} (h : frameValid c f = true) :
    ∃ seq code ops, ops.length ≤ 248 ∧ encodeRequest c seq code ops = f := by
  obtain ⟨hmin, hsof, hl, hclosed⟩ := (frameValid_iff c f).1 h
  match f with
  | s :: l :: sh :: sl :: kh :: kl :: k :: rest =>
    obtain ⟨q, e, hq⟩ := (List.eq_nil_or_concat' (k :: rest)).resolve_left (by simp)
    rw [hq] at hl hclosed ⊢
    simp only [List.getElem?_cons_succ, List.getElem?_cons_zero, Option.map_some,
      Option.some.injEq, List.length_cons, List.length_append, List.length_nil] at hsof hl
    refine ⟨join16 sh sl, join16 kh kl, q, by omega, ?_⟩
    rw [encodeRequest, ofNat_of_toNat (b := l) (by omega), hiByte_join16, loByte_join16,
      hiByte_join16, loByte_join16, ← hsof]
    exact withChecksum_of_closed (g := [s, l, sh, sl, kh, kl] ++ q) hclosed

/-! What decoding selects -/

/-- The operands meet the opcode table's conditions, and the operation has a word (R111). -/
def Selectable (c : Config) (i : Instr) : Prop :=
  i.wellFormed c = true ∧ (formatOf i).isSome = true

theorem decodeByte_selectable (c : Config) (masked : Bool) (st : FramerState) (b : Byte) :
    Selectable c (decodeByte c masked st b) := by
  cases masked
  case true => exact ⟨rfl, rfl⟩
  cases st with
  | waiting =>
    by_cases hb : b = c.sync <;> simp [decodeByte, Selectable, Instr.wellFormed, formatOf, hb]
  | lengthPending => exact ⟨rfl, rfl⟩
  | receiving => exact ⟨rfl, rfl⟩

theorem decodeCommand_selectable (c : Config) (a o : Byte) (x : Half) :
    Selectable c (decodeCommand c a o x) := by
  cases hk : c.known a o
  case false => rw [decodeCommand_unknown x hk]; exact ⟨by simp [Instr.wellFormed, hk], rfl⟩
  have hop : ∀ {o'}, o = o' → c.known a o' = true := fun h => h ▸ hk
  simp only [decodeCommand, hk, Bool.not_true, Bool.false_eq_true, if_false]
  split_ifs with hstart hstop hsleep hwakeup hread hwrite
  exacts [⟨hop hstart, rfl⟩, ⟨hop hstop, rfl⟩, ⟨hop hsleep, rfl⟩, ⟨hop hwakeup, rfl⟩,
    ⟨hop hread, rfl⟩, ⟨hop hwrite, rfl⟩, ⟨by simp [Instr.wellFormed, Config.generic, *], rfl⟩]

/-- A read is dropped, or it is a request, and its command code selects the outcome (R162, R164). -/
theorem decodeFrame_cases (c : Config) (f : List Byte) :
    frameValid c f = false ∧ decodeFrame c f = .ckDrop f ∨
      ∃ seq code ops, ops.length ≤ 248 ∧ encodeRequest c seq code ops = f ∧
        decodeFrame c f = decodeCode c seq code ops := by
  cases h : frameValid c f
  case false => exact .inl ⟨rfl, decodeFrame_of_not_valid h⟩
  case true =>
    obtain ⟨seq, code, ops, hlen, rfl⟩ := encodeRequest_of_frameValid h
    exact .inr ⟨seq, code, ops, hlen, rfl, decodeFrame_encodeRequest c seq code ops hlen⟩

/-- The three outcomes of a valid frame, by its command code and operands (R103). -/
theorem decodeCode_cases (c : Config) (seq code : Half) (ops : List Byte) :
    code = Config.cmdGetId ∧ decodeCode c seq code ops = .ckGetid seq ops ∨
      code ≠ Config.cmdGetId ∧ (c.routeOf code ops).isSome = true ∧
        decodeCode c seq code ops = .ckRoute seq code ops ∨
      code ≠ Config.cmdGetId ∧ (c.routeOf code ops).isNone = true ∧
        decodeCode c seq code ops = .ckUnsup seq code ops := by
  unfold decodeCode
  split_ifs with hcode hr
  · exact .inl ⟨hcode, rfl⟩
  · exact .inr (.inl ⟨hcode, hr, rfl⟩)
  · exact .inr (.inr ⟨hcode, by simpa using hr, rfl⟩)

theorem decodeFrame_selectable (c : Config) (f : List Byte) : Selectable c (decodeFrame c f) := by
  rcases decodeFrame_cases c f with ⟨hbad, h⟩ | ⟨seq, code, ops, hlen, -, h⟩
  · rw [h]
    exact ⟨by simp [Instr.wellFormed, hbad], rfl⟩
  · rcases decodeCode_cases c seq code ops with ⟨-, h'⟩ | ⟨hcode, hr, h'⟩ | ⟨hcode, hr, h'⟩ <;>
      rw [h, h']
    · exact ⟨by simp [Instr.wellFormed, hlen], rfl⟩
    · exact ⟨by simpa [Instr.wellFormed, hlen, hr] using hcode, rfl⟩
    · exact ⟨by simpa [Instr.wellFormed, hlen, hr] using hcode, rfl⟩

/-- A streaming request that is read as an operation carries a command (R92). -/
theorem decodeStream_ok {bs : List Byte} {i : Instr} (h : decodeStream c bs = .ok i) :
    ∃ a o x, i = decodeCommand c a o x := by
  unfold decodeStream at h
  split at h
  case h_1 =>
    split_ifs at h
    split at h
    · cases h; exact ⟨_, _, _, rfl⟩
    · cases h
  case h_2 => split_ifs at h
  case h_3 => cases h

/-- Whatever bytes decode to, the block can select (R100, R101, R103). -/
theorem selectable_of_decode {fmt : Format} {bs : List Byte} {i : Instr}
    (h : decode c fmt bs = .ok i) : Selectable c i := by
  unfold decode at h
  split at h
  · cases h; exact decodeByte_selectable ..
  · cases h
  · cases h; exact ⟨rfl, rfl⟩
  · cases h; exact decodeFrame_selectable ..
  · obtain ⟨a, o, x, rfl⟩ := decodeStream_ok h
    exact decodeCommand_selectable ..

/-- Settles O3: what decoding selects is well formed, and the readers' tests admit one spelling. -/
theorem decodedIsWellFormed : Obligations.DecodedIsWellFormed :=
  ⟨fun _ _ _ _ h => (selectable_of_decode h).1, fun _ _ _ h => wordBytes_of_readStreamReply h,
    fun _ _ _ _ _ h => encodeReply_of_readCkReply h⟩

end Sys2Proof
end

section
/-! What a step runs: the operation a received byte selects (R100, R130), and that no event causes
an operation that its decoding does not select. -/

namespace Sys2Proof.Machine

variable {s : State}

/-! Selection -/

theorem State.masked_eq_true : s.masked = true ↔ s.mode ≠ .peripheralBus ∨ s.rxie = false := by
  simp [State.masked]

/-- Settles O5: a masked byte is never decoded, an unmasked one by `ST` and, when waiting, itself. -/
theorem byteSelectsItsOperation : Obligations.ByteSelectsItsOperation := by
  intro s b
  refine ⟨fun h => ?masked, fun hbus hie => ?unmasked⟩
  case masked => rw [State.eventInstr, State.masked_eq_true.2 h]; rfl
  case unmasked =>
    have hdecode : s.eventInstr (.rx b) = decodeByte s.cfg false s.st b := by
      rw [State.eventInstr, State.masked_eq_false.2 ⟨hbus, hie⟩]
    rw [hdecode]
    exact ⟨fun hst hb => by rw [hst]; exact if_pos hb, fun hst hb => by rw [hst]; exact if_neg hb,
      fun hst => by rw [hst]; rfl, fun hst => by rw [hst]; rfl⟩

theorem whenSelected_of_selected {sel : Bool} {k : Host.Outcome State Fault Refusal}
    (h0 : s.trap = none) (hsel : sel = true) : whenSelected s sel k = k := by
  rw [whenSelected, live_none h0, if_pos hsel]

/-! Refusals -/

/-- The outcome is no refusal for an operation that is not selected or a reply that is too long. -/
def RunsSelected (k : Host.Outcome State Fault Refusal) : Prop :=
  k ≠ .refused .notSelected ∧ k ≠ .refused .payloadTooLong

theorem RunsSelected.next (t : State) : RunsSelected (.next t) := ⟨nofun, nofun⟩

theorem RunsSelected.fault (f : Fault) : RunsSelected (.fault f) := ⟨nofun, nofun⟩

theorem RunsSelected.live {k : Host.Outcome State Fault Refusal}
    (hk : s.trap = none → RunsSelected k) : RunsSelected (live s k) := by
  unfold Machine.live
  split
  exacts [hk ‹_›, .next s, .fault _, .fault _]

theorem RunsSelected.ite {p : Prop} [Decidable p] {k k' : Host.Outcome State Fault Refusal}
    (h : p → RunsSelected k) (h' : ¬ p → RunsSelected k') : RunsSelected (if p then k else k') := by
  split
  exacts [h ‹_›, h' ‹_›]

/-- A read's outcome is run where its operands meet the opcode table's conditions (R103). -/
theorem runsSelected_frameOutcome {sel : Bool} {k : State} (hsel : sel = true) :
    RunsSelected (frameOutcome s sel k) :=
  .live fun _ => .ite (fun _ => .next s) fun _ => by rw [if_pos hsel]; exact .next k

theorem runsSelected_whenSelected {sel : Bool} {k : Host.Outcome State Fault Refusal}
    (hsel : sel = true) (hk : RunsSelected k) : RunsSelected (whenSelected s sel k) :=
  .live fun _ => by rwa [if_pos hsel]

/-- A received byte runs the operation it selects, where that is selected (R100, R130). -/
theorem runsSelected_received (b : Byte) :
    RunsSelected (exec (decodeByte s.cfg s.masked s.st b) s) := by
  cases hm : s.masked
  case true => exact runsSelected_whenSelected hm (.next s)
  cases hst : s.st with
  | waiting =>
    by_cases hb : b = s.cfg.sync
    · rw [decodeByte, if_neg Bool.false_ne_true, if_pos hb]
      exact runsSelected_whenSelected (by simp [hm, hst, hb]) (.next _)
    · rw [decodeByte, if_neg Bool.false_ne_true, if_neg hb]
      exact runsSelected_whenSelected (by simp [hm, hst, hb]) (.next s)
  | lengthPending => exact runsSelected_whenSelected (by simp [hm, hst]) (.next _)
  | receiving =>
    exact runsSelected_whenSelected (by simp [hm, hst])
      (.ite (fun _ => .next _) fun _ => .fault _)

/-- The bytes in the frame buffer run the operation they decode to (R162, R164). -/
theorem runFrame_eq_exec (s : State) :
    runFrame s = exec (decodeFrame s.cfg s.frameBytes) s := by
  unfold runFrame
  rcases decodeFrame_cases s.cfg s.frameBytes with ⟨-, h⟩ | ⟨seq, code, ops, -, -, h⟩
  · rw [h]; rfl
  · rcases decodeCode_cases s.cfg seq code ops with ⟨-, h'⟩ | ⟨-, -, h'⟩ | ⟨-, -, h'⟩ <;>
      rw [h, h'] <;> rfl

theorem runsSelected_runFrame (s : State) : RunsSelected (runFrame s) := by
  rw [runFrame_eq_exec]
  rcases decodeFrame_cases s.cfg s.frameBytes with ⟨hbad, h⟩ | ⟨seq, code, ops, hlen, -, h⟩
  · rw [h]
    exact runsSelected_frameOutcome (by simp [hbad])
  · rcases decodeCode_cases s.cfg seq code ops with ⟨-, h'⟩ | ⟨hcode, hr, h'⟩ | ⟨hcode, hr, h'⟩ <;>
      rw [h, h']
    · exact runsSelected_frameOutcome (decide_eq_true hlen)
    · obtain ⟨r, hr⟩ := Option.isSome_iff_exists.1 hr
      simp only [exec, execCkRoute, hr]
      exact runsSelected_frameOutcome (by simpa [hlen] using hcode)
    · exact runsSelected_frameOutcome (by simpa [hlen, hr] using hcode)

/-- No event causes an operation that is refused as not selected or too long (log entries 13
and 26). -/
theorem runsSelected_event (s : State) (e : Event) : RunsSelected (exec (s.eventInstr e) s) := by
  cases e with
  | rx b => exact runsSelected_received b
  | ck f =>
    exact .live fun _ => .ite (fun _ => .next s) fun _ => .ite (fun _ => .next s) fun _ =>
      runsSelected_runFrame _
  | take =>
    exact .live fun _ => .ite (fun _ => .ite (fun _ => ⟨nofun, nofun⟩) fun _ => .next _)
      fun _ => .next s
  | exec => exact .live fun _ => .ite (fun _ => .next _) fun _ => .next s
  | preempt => exact .live fun _ => .ite (fun _ => .next _) fun _ => .next s
  | abort | enterBus | pkInit | upInit _ => exact .live fun _ => .next _
  | reset => exact .next _
  | pkLen | pkBatch _ _ => exact .live fun _ => .ite (fun _ => ⟨nofun, nofun⟩) fun _ => .next _
  | pkPut _ _ | upGet _ | upBatch _ _ =>
    exact .live fun _ => .ite (fun _ => ⟨nofun, nofun⟩) fun _ =>
      .ite (fun _ => ⟨nofun, nofun⟩) fun _ => .next _

/-- An operation without a format has no word (R111). -/
theorem encode_of_formatOf_eq_none (c : Config) {i : Instr} (h : formatOf i = none) :
    encode c i = [] := by
  cases i with
  | mTake | mExec | pkInit | pkPut _ _ | pkLen | pkBatch _ _ | upInit _ | upGet _ | upBatch _ _
  | rbStream _ | rbCk _ _ _ | evPreempt | evAbort | evEnterBus | evReset => rfl
  | _ => cases h

/-- Settles O6: an event runs what its decoding selects, and decoding selects only operations with a
format. -/
theorem stepRunsOnlySelectedOperations : Obligations.StepRunsOnlySelectedOperations := by
  refine ⟨fun s => ?step, fun s seq status p h0 hp => ?tooLong, fun c i hi => ?noFormat⟩
  case step =>
    cases hes : s.events with
    | nil => rw [step_idle hes]; exact RunsSelected.next s
    | cons e es => rw [step_of_event hes]; exact runsSelected_event s.delivered e
  case tooLong => exact (live_none h0 _).trans (if_neg (by omega))
  case noFormat =>
    refine ⟨encode_of_formatOf_eq_none c hi, fun fmt bs h => ?_⟩
    have hformat := (selectable_of_decode h).2
    simp [hi] at hformat

end Sys2Proof.Machine
end

section
/-! Commands, replies and the latch on their own (R92, R101, R183, R185, R186, R241). -/

namespace Sys2Proof

/-- Byte `i` of a `u32` is its bits `8 * i` to `8 * i + 7` (R93). -/
theorem byteOf_eq_extractLsb' (w : Word) (i : Nat) : byteOf w i = w.extractLsb' (8 * i) 8 := by
  apply BitVec.eq_of_toNat_eq
  rw [byteOf_toNat, BitVec.extractLsb'_toNat, Nat.shiftRight_eq_div_pow, Nat.pow_mul]

end Sys2Proof

namespace Sys2Proof.Machine

/-- Settles O26: the selected command is the run of its dispatch. -/
theorem dispatchRunsTheSelectedCommand : Obligations.DispatchRunsTheSelectedCommand :=
  fun _ _ _ _ _ h0 => exec_decodeCommand h0

/-- Settles O27: CMD.INVALID is selected, and it is what DISPATCH runs of an unknown pair. -/
theorem unknownCommandAnswersSentinel : Obligations.UnknownCommandAnswersSentinel := by
  intro s a o x h0 hk
  exact ⟨runCommand_of_selected h0 (by simp [hk]), dispatch_unknown hk⟩

/-- Settles O49: the bytes of the word as bit slices, in each order. -/
theorem streamingReplyIsFourBytes : Obligations.StreamingReplyIsFourBytes := by
  intro s w h0
  have hexec : exec (.rbStream w) s = .next (s.replyWord w) := live_none h0 _
  rw [hexec, State.replyWord, State.sendStream]
  cases s.cfg.replyOrder <;> simp only [wordBytes, byteOf_eq_extractLsb']

/-- M.TAKE of a completed transfer of at least four bytes (R183). -/
theorem execMTake_of_enabled {s : State} (h0 : s.trap = none) (hbus : s.mode = .peripheralBus)
    (hdone : s.done = true) (hcv : s.cv = false) (hlen : 4 ≤ s.len.toNat) :
    execMTake s = .next s.taken := by
  have hen : s.takeEnabled = true := by simp [State.takeEnabled, hbus, hdone, hcv]
  rw [execMTake, live_none h0, if_pos hen, if_neg (by omega)]

/-- A byte of RXBUF that has been written is no free value (R24). -/
theorem rxByte_of_read {s : State} {i : Nat} {b : Byte} (h : Memory.read s.rxbuf i = some b) :
    s.rxByte i = b := by
  rw [State.rxByte, h, Option.getD_some]

/-- Settles O21: M.TAKE is enabled, and the operand is joined low byte first. -/
theorem takeParsesThePayload : Obligations.TakeParsesThePayload := by
  intro s h0 hbus hdone hcv hlen
  exact ⟨fun _ _ => rxByte_of_read, join16 (s.rxByte 3) (s.rxByte 2), join16_toNat _ _,
    execMTake_of_enabled h0 hbus hdone hcv hlen⟩

end Sys2Proof.Machine
end

section
/-! A buffered read in HOST_DEBUG (R160 to R170): the answers to a request, and that every reply
echoes the request's sequence id. -/

namespace Sys2Proof.Machine

variable {s t : State}

/-! The answers to a request -/

theorem frameOutcome_of_host {sel : Bool} {k : State} (h0 : s.trap = none)
    (hm : s.mode = .hostDebug) (hsel : sel = true) : frameOutcome s sel k = .next k := by
  simp [frameOutcome, live_none h0, State.frameEnabled, hm, hsel]

/-- A read in HOST_DEBUG that fits the frame buffer runs what its bytes decode to (R161, R164). -/
theorem execCkFrame_of_host {f : List Byte} (h0 : s.trap = none) (hm : s.mode = .hostDebug)
    (hf : f.length ≤ 255) :
    execCkFrame f s = exec (decodeFrame s.cfg f) (s.loadFrame f) := by
  have hload : runFrame (s.loadFrame f) = exec (decodeFrame s.cfg f) (s.loadFrame f) := by
    rw [runFrame_eq_exec, State.frameBytes_loadFrame, State.loadFrame_cfg]
  rw [execCkFrame, live_none h0, if_neg (by simp [State.frameEnabled, hm]),
    if_neg (Nat.not_lt.2 hf), hload]

/-- A request in HOST_DEBUG runs what its command code selects (R164). -/
theorem execCkFrame_encodeRequest {seq code : Half} {ops : List Byte} (h0 : s.trap = none)
    (hm : s.mode = .hostDebug) (hlen : ops.length ≤ 248) :
    execCkFrame (encodeRequest s.cfg seq code ops) s =
      exec (decodeCode s.cfg seq code ops) (s.loadFrame (encodeRequest s.cfg seq code ops)) := by
  rw [execCkFrame_of_host h0 hm (by rw [encodeRequest_length]; omega),
    decodeFrame_encodeRequest _ _ _ _ hlen]

theorem execCkGetid_of_host {seq : Half} {ops : List Byte} (h0 : s.trap = none)
    (hm : s.mode = .hostDebug) (hlen : ops.length ≤ 248) :
    execCkGetid seq ops s = .next (s.replyFrame seq Config.stOk [s.cfg.family, s.cfg.ident]) :=
  frameOutcome_of_host h0 hm (decide_eq_true hlen)

theorem execCkUnsup_of_host {seq code : Half} {ops : List Byte} (h0 : s.trap = none)
    (hm : s.mode = .hostDebug) (hlen : ops.length ≤ 248) (hcode : code ≠ Config.cmdGetId)
    (hr : s.cfg.routeOf code ops = none) :
    execCkUnsup seq code ops s = .next (s.replyFrame seq s.cfg.stUnsupported []) :=
  frameOutcome_of_host h0 hm (by simpa [hlen, hr] using hcode)

/-- Settles O16: the request decodes to CK.GETID, which answers in the loaded state as in `s`. -/
theorem getIdIsAnswered : Obligations.GetIdIsAnswered := by
  intro s seq ops h0 hm hlen
  have hrun := execCkFrame_encodeRequest (seq := seq) (code := Config.cmdGetId) h0 hm hlen
  rw [decodeCode_getId] at hrun
  exact ⟨execCkGetid_of_host h0 hm hlen, _,
    hrun.trans (execCkGetid_of_host (s := s.loadFrame _) h0 hm hlen), rfl, rfl⟩

/-- Settles O17: the request decodes to CK.UNSUP, which answers in the loaded state as in `s`. -/
theorem unroutableCodeIsUnsupported : Obligations.UnroutableCodeIsUnsupported := by
  intro s seq code ops h0 hm hlen hcode hr
  have hrun := execCkFrame_encodeRequest (seq := seq) (code := code) h0 hm hlen
  rw [decodeCode_unroutable hcode hr] at hrun
  exact ⟨execCkUnsup_of_host h0 hm hlen hcode hr, _,
    hrun.trans (execCkUnsup_of_host (s := s.loadFrame _) h0 hm hlen hcode hr), rfl, rfl⟩

/-! The sequence id -/

/-- TX(CK) is as it was, or has one reply more, with sequence id `seq` and a payload that can be
spelt (R170, R242). -/
def AtMostOneReply (seq : Half) (s t : State) : Prop :=
  t.txCk = s.txCk ∨ ∃ (status : Byte) (p : List Byte), p.length ≤ 249 ∧
    t.txCk = s.txCk ++ encodeReply s.cfg seq status p

theorem atMostOneReply_replyFrame (seq : Half) (status : Byte) {p : List Byte}
    (hp : p.length ≤ 249) : AtMostOneReply seq s (s.replyFrame seq status p) :=
  .inr ⟨status, p, hp, rfl⟩

/-- CK.ROUTE sends at most one reply, however its dispatch ends (R166, R247, R265). -/
theorem finishRoute_atMostOneReply (packs : Bool) (seq : Half) (r : DispatchEnd × State) :
    AtMostOneReply seq r.2 (finishRoute packs seq r) := by
  obtain ⟨_ | _ | _, d⟩ := r
  case response status w =>
    cases packs
    · exact atMostOneReply_replyFrame seq status (by simp)
    · rcases d.replyPacked_sends seq status with ⟨-, hp, h⟩ | ⟨-, p, hp, h⟩
      · exact .inr ⟨status, d.packBytes d.packLen, by simpa using hp,
          by simp only [finishRoute, if_true, h]; rfl⟩
      · exact .inr ⟨status, p, hp, by simp only [finishRoute, if_true, h]; rfl⟩
  case timeout => exact .inr ⟨_, _, cutPayload_length _, rfl⟩
  case halt => exact .inl rfl

/-- Only a valid read is answered, and with its own sequence id (R162, R170). -/
theorem runFrame_atMostOneReply (h : runFrame s = .next t) :
    t.txCk = s.txCk ∨ ∃ seq code ops, encodeRequest s.cfg seq code ops = s.frameBytes ∧
      AtMostOneReply seq s t := by
  rw [runFrame_eq_exec] at h
  rcases decodeFrame_cases s.cfg s.frameBytes with ⟨-, hd⟩ | ⟨seq, code, ops, -, hf, hd⟩ <;>
    rw [hd] at h
  · exact .inl (congrArg State.txCk (execCkDrop_next h))
  refine .inr ⟨seq, code, ops, hf, ?_⟩
  rcases decodeCode_cases s.cfg seq code ops with ⟨-, hc⟩ | ⟨-, -, hc⟩ | ⟨-, -, hc⟩ <;> rw [hc] at h
  · rcases execCkGetid_next h with rfl | rfl
    exacts [.inl rfl, atMostOneReply_replyFrame seq _ (by simp)]
  · rcases execCkRoute_next h with rfl | ⟨a, o, x, -, rfl⟩
    · exact .inl rfl
    · have hsent := finishRoute_atMostOneReply (s.cfg.packs a o) seq (dispatch a o x s)
      have hcfg := dispatch_cfg a o x s
      have htx : (dispatch a o x s).2.txCk = s.txCk :=
        (congrArg State.txCk (dispatch_rest a o x s) :)
      rwa [AtMostOneReply, hcfg, htx] at hsent
  · rcases execCkUnsup_next h with rfl | rfl
    exacts [.inl rfl, atMostOneReply_replyFrame seq _ (by simp)]

/-- Settles O19: what is appended is one encoded reply, whose third and fourth bytes are those of
the request. -/
theorem repliesEchoTheSequenceId : Obligations.RepliesEchoTheSequenceId := by
  intro s t f h
  rcases execCkFrame_next h with rfl | ⟨-, hrun⟩
  · exact .inl rfl
  rcases runFrame_atMostOneReply hrun with hsame | ⟨seq, code, ops, hf, hreply⟩
  · exact .inl hsame
  rcases hreply with hsame | ⟨status, p, hp, htx⟩
  · exact .inl hsame
  rw [State.frameBytes_loadFrame, State.loadFrame_cfg] at hf
  subst hf
  refine .inr ⟨encodeReply s.cfg seq status p, htx, ?least, ?most, rfl, ?length, rfl, rfl,
    ?checksum⟩
  case least => rw [encodeReply_length]; omega
  case most => rw [encodeReply_length]; omega
  case length => exact congrArg some (encodeReply_lengthByte s.cfg seq status hp)
  case checksum => rw [encodeReply, withChecksum_closed, Option.map_some, ck8_toNat]

end Sys2Proof.Machine
end

section
/-! A whole streaming frame (R131 to R138): the sync byte, the length and the payload, a step a
byte. -/

namespace Sys2Proof.Machine

variable {s : State} {es : List Event}

/-- The framer hears a received byte (R130): no fault state, on the bus, the interrupt enabled. -/
def Listening (s : State) : Prop := s.trap = none ∧ s.mode = .peripheralBus ∧ s.rxie = true

theorem Listening.trap (h : Listening s) : s.trap = none := h.1

theorem Listening.unmasked (h : Listening s) : s.masked = false := State.masked_eq_false.2 h.2

theorem execRxSync_of_waiting (h : Listening s) (hst : s.st = .waiting) :
    execRxSync s.cfg.sync s = .next { s.raiseBusy with st := .lengthPending } :=
  whenSelected_of_selected h.trap (by simp [h.unmasked, hst])

theorem execRxLen_of_lengthPending (h : Listening s) (hst : s.st = .lengthPending) (b : Byte) :
    execRxLen b s = .next (s.lengthTaken b) :=
  whenSelected_of_selected h.trap (by simp [h.unmasked, hst])

theorem execRxData_of_receiving (h : Listening s) (hst : s.st = .receiving)
    (hcnt : s.cnt.toNat < 255) (b : Byte) : execRxData b s = .next (s.dataTaken b) :=
  (whenSelected_of_selected h.trap (by simp [h.unmasked, hst])).trans (if_pos hcnt)

/-- The sync byte opens a transfer of an idle framer (R132). -/
theorem step_syncByte (h : Listening s) (hst : s.st = .waiting)
    (hes : s.events = .rx s.cfg.sync :: es) :
    ∃ t, step s = .next t ∧ Listening t ∧ t.st = .lengthPending ∧ t.events = es ∧
      t.rxbuf = s.rxbuf ∧ t.busy = (s.busy || s.cfg.flowControl) := by
  have ⟨_, hbus, hie⟩ := h
  obtain ⟨hinstr, -⟩ := (byteSelectsItsOperation s s.cfg.sync).2 hbus hie
  have hstep : step s = .next { s.delivered.raiseBusy with st := .lengthPending } := by
    rw [step_of_event hes, hinstr hst rfl]
    exact execRxSync_of_waiting (s := s.delivered) h hst
  exact ⟨_, hstep, h, rfl, congrArg List.tail hes, rfl, rfl⟩

/-- A step in which the length byte reaches the framer (R133). -/
theorem step_lengthByte {b : Byte} (h : Listening s) (hst : s.st = .lengthPending)
    (hes : s.events = .rx b :: es) : step s = .next (s.delivered.lengthTaken b) := by
  have ⟨_, hbus, hie⟩ := h
  obtain ⟨-, -, hinstr, -⟩ := (byteSelectsItsOperation s b).2 hbus hie
  rw [step_of_event hes, hinstr hst]
  exact execRxLen_of_lengthPending (s := s.delivered) h hst b

/-- A step in which a payload byte reaches the framer (R134). -/
theorem step_dataByte {b : Byte} (h : Listening s) (hst : s.st = .receiving)
    (hcnt : s.cnt.toNat < 255) (hes : s.events = .rx b :: es) :
    step s = .next (s.delivered.dataTaken b) := by
  have ⟨_, hbus, hie⟩ := h
  obtain ⟨-, -, -, hinstr⟩ := (byteSelectsItsOperation s b).2 hbus hie
  rw [step_of_event hes, hinstr hst]
  exact execRxData_of_receiving (s := s.delivered) h hst hcnt b

/-- The transfer lacks exactly the payload bytes `p`, which come next, and then the events `es`; it
is complete when it lacks none (R135, R138). -/
structure Lacks (s : State) (p : List Byte) (es : List Event) : Prop where
  listening : Listening s
  events : s.events = p.map .rx ++ es
  count : s.cnt.toNat + p.length = s.len.toNat
  receiving : p ≠ [] → s.st = .receiving
  complete : p = [] → s.st = .waiting ∧ s.done = true

theorem ofNat_length_toNat {p : List Byte} (h : p.length ≤ 255) :
    (BitVec.ofNat 8 p.length).toNat = p.length := by
  rw [BitVec.toNat_ofNat]
  omega

/-- The length byte of a payload leaves a transfer that lacks all of it (R133). -/
theorem step_lengthByte_lacks {p : List Byte} (h : Listening s) (hst : s.st = .lengthPending)
    (hp : p.length ≤ 255) (hes : s.events = .rx (BitVec.ofNat 8 p.length) :: (p.map .rx ++ es)) :
    ∃ t, step s = .next t ∧ Lacks t p es ∧ t.cnt = 0 ∧ t.rxbuf = s.rxbuf ∧ t.busy = s.busy := by
  refine ⟨_, step_lengthByte h hst hes, ?_⟩
  have hlen := ofNat_length_toNat hp
  have hevents : s.delivered.events = p.map .rx ++ es := congrArg List.tail hes
  have hcount : (0 : Byte).toNat + p.length = (BitVec.ofNat 8 p.length).toNat := by simp [hlen]
  rcases s.delivered.lengthTaken_cases (BitVec.ofNat 8 p.length) with ⟨h0, ht⟩ | ⟨hne, ht⟩ <;>
    rw [ht]
  · rw [h0] at hlen
    have hnil : p = [] := List.length_eq_zero_iff.1 hlen.symm
    exact ⟨⟨h, hevents, hcount, fun hne => absurd hnil hne, fun _ => ⟨rfl, rfl⟩⟩,
      rfl, rfl, rfl⟩
  · have hcons : p ≠ [] := fun hnil => hne (by rw [hnil]; rfl)
    exact ⟨⟨h, hevents, hcount, fun _ => rfl, fun hnil => absurd hnil hcons⟩,
      rfl, rfl, rfl⟩

/-- `t` is the transfer of `s` with the bytes `p` stored from `CNT` on. -/
structure Stored (p : List Byte) (s t : State) : Prop where
  rxbuf : t.rxbuf = Memory.writeAll s.rxbuf s.cnt.toNat p
  len : t.len = s.len
  busy : t.busy = s.busy

/-- A payload byte is stored, and the transfer lacks the rest (R134). -/
theorem step_dataByte_lacks {b : Byte} {p : List Byte} (h : Lacks s (b :: p) es) :
    ∃ t, step s = .next t ∧ Lacks t p es ∧ t.cnt.toNat = s.cnt.toNat + 1 ∧ Stored [b] s t := by
  have hst : s.st = .receiving := h.receiving (List.cons_ne_nil b p)
  have hcount : s.cnt.toNat + (p.length + 1) = s.len.toNat := h.count
  have hlen := s.len.isLt
  refine ⟨_, step_dataByte h.listening hst (by omega) h.events, ?_⟩
  have hcnt : (s.cnt + 1).toNat = s.cnt.toNat + 1 := by bv_omega
  have hcount' : (s.cnt + 1).toNat + p.length = s.len.toNat := by omega
  have hnil : s.cnt + 1 = s.len ↔ p = [] := by
    rw [← List.length_eq_zero_iff, ← BitVec.toNat_inj]
    omega
  have hevents : s.delivered.events = p.map .rx ++ es := congrArg List.tail h.events
  have hl := h.listening
  rcases s.delivered.dataTaken_cases b with ⟨hlast, ht⟩ | ⟨hmore, ht⟩ <;> rw [ht]
  · exact ⟨⟨hl, hevents, hcount', fun hne => absurd (hnil.1 hlast) hne, fun _ => ⟨rfl, rfl⟩⟩, hcnt,
      rfl, rfl, rfl⟩
  · exact ⟨⟨hl, hevents, hcount', fun _ => hst, fun h => absurd (hnil.2 h) hmore⟩, hcnt,
      rfl, rfl, rfl⟩

theorem runSteps_succ {t : State} (n : Nat) (h : step s = .next t) :
    runSteps (n + 1) s = runSteps n t := by
  simp only [runSteps, h]

/-- The payload takes one step a byte and is stored in order (R138). -/
theorem runSteps_payload (p : List Byte) (h : Lacks s p es) :
    ∃ t, runSteps p.length s = .next t ∧ Lacks t [] es ∧ Stored p s t := by
  induction p generalizing s with
  | nil => exact ⟨s, rfl, h, rfl, rfl, rfl⟩
  | cons b p ih =>
    obtain ⟨u, hstep, hu, hcnt, hb⟩ := step_dataByte_lacks h
    obtain ⟨t, hrun, ht, hp⟩ := ih hu
    refine ⟨t, (runSteps_succ _ hstep).trans hrun, ht, ?_, hp.len.trans hb.len,
      hp.busy.trans hb.busy⟩
    rw [hp.rxbuf, hb.rxbuf, hcnt]
    rfl

/-- Settles O11: the sync byte, the length byte, then the payload by induction. -/
theorem wholeFrameIsReceived : Obligations.WholeFrameIsReceived := by
  intro s p es h0 hbus hie hst hp hes
  have hl : Listening s := ⟨h0, hbus, hie⟩
  obtain ⟨v, hsync, hv, hvst, hves, hvbuf, hvbusy⟩ := step_syncByte hl hst hes
  obtain ⟨u, hlength, hu, hcnt, hubuf, hubusy⟩ := step_lengthByte_lacks hv hvst hp hves
  obtain ⟨t, hpayload, ht, hstored⟩ := runSteps_payload p hu
  have hulen : u.len.toNat = p.length := by simpa [hcnt] using hu.count.symm
  have htlen : t.len.toNat = p.length := by rw [hstored.len, hulen]
  obtain ⟨hidle, hdone⟩ := ht.complete rfl
  refine ⟨t, ?run, hidle, hdone, htlen, ht.count.trans htlen, ht.events, fun i => ?buffer, ?busy⟩
  case run => rw [runSteps_succ _ hsync, runSteps_succ _ hlength, hpayload]
  case buffer =>
    rw [hstored.rxbuf, hubuf, hvbuf, hcnt, Memory.read_writeAll]
    simp
  case busy =>
    rw [hstored.busy, hubusy, hvbusy]
    cases s.cfg.flowControl <;> simp

end Sys2Proof.Machine
end

section
/-! The streaming framer's operations one by one (R131 to R136): what each does where it is selected,
and what it may write in any state. -/

namespace Sys2Proof.Machine

variable {s : State}

/-! Where an operation is selected -/

theorem execRxSkip_of_waiting (h : Listening s) (hst : s.st = .waiting) {b : Byte}
    (hb : b ≠ s.cfg.sync) : execRxSkip b s = .next s :=
  whenSelected_of_selected h.trap (by simp [h.unmasked, hst, hb])

theorem execRxMasked_of_masked (h0 : s.trap = none) (hm : s.masked = true) (b : Byte) :
    execRxMasked b s = .next s :=
  whenSelected_of_selected h0 hm

/-- Settles O7: each operation is selected, and its effect is none. -/
theorem skippedAndMaskedBytesChangeNothing : Obligations.SkippedAndMaskedBytesChangeNothing :=
  fun _ b h0 =>
    ⟨fun hbus hie hst hb => execRxSkip_of_waiting ⟨h0, hbus, hie⟩ hst hb,
      fun h => execRxMasked_of_masked h0 (State.masked_eq_true.2 h) b⟩

/-- Settles O8: `BUSY` is raised exactly where there is flow control. -/
theorem syncByteOpensTransfer : Obligations.SyncByteOpensTransfer := by
  intro s h0 hbus hie hst
  have hbusy : (s.busy || s.cfg.flowControl) = if s.cfg.flowControl then true else s.busy := by
    cases s.cfg.flowControl <;> simp
  rw [← hbusy]
  exact execRxSync_of_waiting ⟨h0, hbus, hie⟩ hst

/-- Settles O9: a length of 0 completes the transfer, any other starts the payload. -/
theorem lengthByteStartsPayload : Obligations.LengthByteStartsPayload := by
  intro s b h0 hbus hie hst
  have hexec : exec (.rxLen b) s = .next (s.lengthTaken b) :=
    execRxLen_of_lengthPending ⟨h0, hbus, hie⟩ hst b
  rw [hexec]
  rcases s.lengthTaken_cases b with ⟨hb, ht⟩ | ⟨hb, ht⟩
  · rw [if_pos hb, ht]
    rfl
  · rw [if_neg hb, ht]

/-! What an operation may write -/

/-- RX.LEN writes at most `LEN`, `CNT`, `ST` and `DONE` (R133). -/
theorem lengthTaken_frame (s : State) (b : Byte) :
    { s.lengthTaken b with len := s.len, cnt := s.cnt, st := s.st, done := s.done } = s := by
  rcases s.lengthTaken_cases b with ⟨-, ht⟩ | ⟨-, ht⟩
  · rw [ht]
    rfl
  · rw [ht]

/-- RX.DATA writes at most `RXBUF`, `CNT`, `ST` and `DONE` (R134). -/
theorem dataTaken_frame (s : State) (b : Byte) :
    { s.dataTaken b with rxbuf := s.rxbuf, cnt := s.cnt, st := s.st, done := s.done } = s := by
  rcases s.dataTaken_cases b with ⟨-, ht⟩ | ⟨-, ht⟩ <;> rw [ht] <;> rfl

theorem dataTaken_cnt (s : State) (b : Byte) : (s.dataTaken b).cnt = s.cnt + 1 := by
  rcases s.dataTaken_cases b with ⟨-, ht⟩ | ⟨-, ht⟩ <;> rw [ht] <;> rfl

theorem dataTaken_rxbuf (s : State) (b : Byte) :
    (s.dataTaken b).rxbuf = Memory.write s.rxbuf s.cnt.toNat b := by
  rcases s.dataTaken_cases b with ⟨-, ht⟩ | ⟨-, ht⟩ <;> rw [ht] <;> rfl

theorem read_dataTaken_same (s : State) (b : Byte) :
    Memory.read (s.dataTaken b).rxbuf s.cnt.toNat = some b := by
  rw [dataTaken_rxbuf, Memory.read_write, if_pos rfl]

theorem read_dataTaken_of_ne (s : State) (b : Byte) {i : Nat} (hi : i ≠ s.cnt.toNat) :
    Memory.read (s.dataTaken b).rxbuf i = Memory.read s.rxbuf i := by
  rw [dataTaken_rxbuf, Memory.read_write, if_neg hi]

/-- The transfer completes exactly on its last byte (R134, R135). -/
theorem dataTaken_completes (s : State) (b : Byte) (hst : s.st = .receiving)
    (hcnt : s.cnt.toNat < s.len.toNat) :
    if s.cnt.toNat + 1 = s.len.toNat then (s.dataTaken b).done = true ∧ (s.dataTaken b).st = .waiting
    else (s.dataTaken b).done = s.done ∧ (s.dataTaken b).st = .receiving := by
  have hlast : s.cnt + 1 = s.len ↔ s.cnt.toNat + 1 = s.len.toNat := by bv_omega
  rcases s.dataTaken_cases b with ⟨h, ht⟩ | ⟨h, ht⟩
  · rw [if_pos (hlast.1 h), ht]
    exact ⟨rfl, rfl⟩
  · rw [if_neg (mt hlast.2 h), ht]
    exact ⟨rfl, hst⟩

/-- Settles O10: the byte is appended, and completion is tested on the count that results. -/
theorem dataByteIsStored : Obligations.DataByteIsStored := by
  intro s b h0 hbus hie hst hcnt
  have hroom : s.cnt.toNat < 255 := by have := s.len.isLt; omega
  refine ⟨s.dataTaken b, execRxData_of_receiving ⟨h0, hbus, hie⟩ hst hroom b,
    read_dataTaken_same s b, fun _ hi => read_dataTaken_of_ne s b hi, ?count,
    dataTaken_completes s b hst hcnt, dataTaken_frame s b⟩
  case count =>
    rw [dataTaken_cnt]
    bv_omega

/-- Settles O12: an operation that answers a next state has either its effect or, in the fault state
`DebugHalt`, none. -/
theorem framerOperationsFrame : Obligations.FramerOperationsFrame := by
  intro b s t
  refine ⟨execRxSkip_next, execRxMasked_next (b := b), fun h => ?sync, fun h => ?len, fun h => ?data⟩
  case sync => rcases execRxSync_next h with rfl | ⟨-, rfl⟩ <;> rfl
  case len =>
    rcases execRxLen_next h with rfl | ⟨-, rfl⟩
    exacts [rfl, lengthTaken_frame s b]
  case data =>
    rcases execRxData_next h with rfl | ⟨-, -, rfl⟩
    · exact ⟨rfl, fun _ _ => rfl⟩
    · exact ⟨dataTaken_frame s b, fun _ hi => read_dataTaken_of_ne s b hi⟩

end Sys2Proof.Machine
end

section
/-! A buffered read in HOST_DEBUG, loaded or dropped (R160 to R164), and one byte of a valid frame
changed (R169). -/

namespace Sys2Proof

/-! The checksum of a sequence with one byte changed -/

/-- Changing one byte changes the sum modulo 256 (R96). -/
theorem getElem?_of_ck8_set_eq {f : List Byte} {i : Nat} {b : Byte} (hi : i < f.length)
    (h : ck8 (f.set i b) = ck8 f) : f[i]? = some b := by
  induction f generalizing i with
  | nil => exact absurd hi (Nat.not_lt_zero i)
  | cons a f ih =>
    cases i with
    | zero =>
      rw [List.set_cons_zero, ck8_cons, ck8_cons, BitVec.add_left_inj] at h
      rw [List.getElem?_cons_zero, h]
    | succ i =>
      rw [List.set_cons_succ, ck8_cons, ck8_cons, BitVec.add_right_inj] at h
      exact ih (Nat.lt_of_succ_lt_succ hi) h

/-- Two checksummed sequences never differ in exactly one byte: not in one that is summed, and not
in the checksum (R96, R169). -/
theorem getElem?_of_withChecksum_set_eq {g h : List Byte} {i : Nat} {b : Byte}
    (hi : i < (withChecksum g).length) (hset : (withChecksum g).set i b = withChecksum h) :
    (withChecksum g)[i]? = some b := by
  rw [withChecksum, withChecksum, List.set_append] at hset
  split_ifs at hset with hg
  case pos =>
    obtain ⟨rfl, hck⟩ := List.append_inj' hset rfl
    rw [withChecksum, List.getElem?_append_left hg]
    exact getElem?_of_ck8_set_eq hg (List.cons.inj hck).1.symm
  case neg =>
    obtain rfl : i = g.length := by rw [withChecksum_length] at hi; omega
    rw [Nat.sub_self] at hset
    obtain ⟨rfl, hck⟩ := List.append_inj' hset rfl
    rw [withChecksum, List.getElem?_concat_length, (List.cons.inj hck).1]

/-- A valid frame with one byte changed fails a test of R162: both sequences would be closed by their
checksum (R169). -/
theorem not_frameValid_set {c : Config} {f : List Byte} {i : Nat} {b : Byte}
    (h : frameValid c f = true) (hi : i < f.length) (hb : f[i]? ≠ some b) :
    frameValid c (f.set i b) = false := by
  rw [← Bool.not_eq_true]
  intro hset
  obtain ⟨_, _, _, -, rfl⟩ := encodeRequest_of_frameValid h
  obtain ⟨_, _, _, -, hrequest⟩ := encodeRequest_of_frameValid hset
  exact hb (getElem?_of_withChecksum_set_eq hi hrequest.symm)

/-- The four tests of R162 with the checksum as a number (R96). -/
theorem frameValid_iff_sum (c : Config) (f : List Byte) :
    frameValid c f = true ↔
      7 ≤ f.length ∧ f[0]? = some c.sof ∧ f[1]?.map BitVec.toNat = some f.length ∧
        f.getLast?.map BitVec.toNat = some ((f.dropLast.map BitVec.toNat).sum % 256) := by
  have hlast : f.getLast?.map BitVec.toNat = some (ck8 f.dropLast).toNat ↔
      f.getLast? = some (ck8 f.dropLast) :=
    (Option.map_injective BitVec.toNat_injective).eq_iff (b := some (ck8 f.dropLast))
  rw [frameValid_iff, ← ck8_toNat, hlast]

end Sys2Proof

namespace Sys2Proof.Machine

variable {s : State} {f : List Byte}

/-! A buffered read is loaded or dropped -/

/-- A buffered read in PERIPHERAL_BUS changes nothing (R160). -/
theorem execCkFrame_of_bus (h0 : s.trap = none) (hm : s.mode = .peripheralBus) :
    execCkFrame f s = .next s := by
  rw [execCkFrame, live_none h0, if_pos (by simp [State.frameEnabled, hm])]

/-- A read longer than the frame buffer is dropped unstored (R161). -/
theorem execCkFrame_of_too_long (h0 : s.trap = none) (hf : 255 < f.length) :
    execCkFrame f s = .next s := by
  rw [execCkFrame, live_none h0, if_pos (c := Config.fbufSize < f.length) hf, ite_self]

theorem execCkDrop_of_not_valid (h0 : s.trap = none) (hm : s.mode = .hostDebug)
    (hf : frameValid s.cfg f = false) : execCkDrop f s = .next s :=
  frameOutcome_of_host h0 hm (by simp [hf])

/-- A read that fails a test of R162 is at most loaded: no reply, no call (R161, R163). -/
theorem execCkFrame_of_not_valid (h0 : s.trap = none) (hm : s.mode = .hostDebug)
    (hf : frameValid s.cfg f = false) :
    execCkFrame f s = .next s ∨ execCkFrame f s = .next (s.loadFrame f) := by
  rcases Nat.lt_or_ge 255 f.length with hlen | hlen
  · exact .inl (execCkFrame_of_too_long h0 hlen)
  · rw [execCkFrame_of_host h0 hm hlen, decodeFrame_of_not_valid hf]
    exact .inr (execCkDrop_of_not_valid (s := s.loadFrame f) h0 hm hf)

/-- A read that fails a test of R162 changes at most `FBUF` and `FLEN` (R161, R163). -/
theorem execCkFrame_frame_of_not_valid (h0 : s.trap = none) (hm : s.mode = .hostDebug)
    (hf : frameValid s.cfg f = false) :
    ∃ t, execCkFrame f s = .next t ∧ { t with fbuf := s.fbuf, flen := s.flen } = s := by
  rcases execCkFrame_of_not_valid h0 hm hf with h | h <;> exact ⟨_, h, rfl⟩

/-- `FBUF` after a load is the read, and behind it what it held (R161). -/
theorem read_loadFrame_fbuf (s : State) (f : List Byte) (i : Nat) :
    Memory.read (s.loadFrame f).fbuf i =
      if i < f.length then f[i]? else Memory.read s.fbuf i := by
  simp [Memory.read_writeAll]

/-- Settles O13: such a read is not a valid frame. -/
theorem invalidFrameIsDropped : Obligations.InvalidFrameIsDropped := by
  intro s f h0 hm hbad
  have hf : frameValid s.cfg f = false := by
    rwa [← frameValid_iff_sum, Bool.not_eq_true] at hbad
  exact ⟨execCkFrame_frame_of_not_valid h0 hm hf, execCkDrop_of_not_valid h0 hm hf⟩

/-- Settles O14: in the third clause the outcome runs in the loaded state. -/
theorem bufferedReadRunsItsOutcome : Obligations.BufferedReadRunsItsOutcome := by
  intro s f h0
  refine ⟨execCkFrame_of_bus h0, fun _ => execCkFrame_of_too_long h0, fun hm hf =>
    ⟨s.loadFrame f, execCkFrame_of_host h0 hm hf, rfl, fun i hi => ?_, fun i hi => ?_, rfl⟩⟩
  · rw [read_loadFrame_fbuf, if_pos hi]
  · rw [read_loadFrame_fbuf, if_neg (Nat.not_lt.2 hi)]

/-- Settles O15: the changed read is not a valid frame, so it is dropped. -/
theorem singleByteMutationIsRejected : Obligations.SingleByteMutationIsRejected :=
  fun _ _ _ _ h0 hm hf hi hb => execCkFrame_frame_of_not_valid h0 hm (not_frameValid_set hf hi hb)

end Sys2Proof.Machine
end

section
/-! The start discipline (R196): a dispatch makes its calls one after the other, each of them keeps the
discipline, and no other operation that an event causes touches the calls or the enabled bits. -/

namespace Sys2Proof.Machine

variable {s t : State} {a : Byte} {ks : List Call} {k : Call}

/-! Histories -/

/-- Where an entry of a history stands that has just grown by one: it is the new entry, or the new one
comes after it. -/
theorem split_concat {pre post : List Call} {j : Call} (h : ks ++ [k] = pre ++ j :: post) :
    (pre = ks ∧ j = k) ∨ ∃ post', post = post' ++ [k] ∧ ks = pre ++ j :: post' := by
  rcases List.eq_nil_or_concat' post with rfl | ⟨post', k', rfl⟩
  · obtain ⟨rfl, hjk⟩ := List.append_inj' h rfl
    exact .inl ⟨rfl, (List.singleton_inj.1 hjk).symm⟩
  · rw [← List.cons_append, ← List.append_assoc] at h
    obtain ⟨hks, hkk⟩ := List.append_inj' h rfl
    rw [List.singleton_inj.1 hkk]
    exact .inr ⟨post', rfl, hks⟩

/-- After a stop, or an entry that is no start of a stopped resource, the resource is stopped. -/
theorem StoppedSince.concat (hk : ¬ k.isStart a) (h : StoppedSince a ks ∨ k.isStop a) :
    StoppedSince a (ks ++ [k]) := by
  intro pre post j hsplit hj
  rcases split_concat hsplit with ⟨-, rfl⟩ | ⟨post', rfl, hks⟩
  · exact absurd hj hk
  rcases h with h | h
  · obtain ⟨i, hi, hstop⟩ := h pre post' j hks hj
    exact ⟨i, List.mem_append_left _ hi, hstop⟩
  · exact ⟨k, by simp, h⟩

/-- The starts stay separated when the new entry, if it is one, finds its resource stopped. -/
theorem StartsSeparated.concat (h : StartsSeparated a ks) (hk : k.isStart a → StoppedSince a ks) :
    StartsSeparated a (ks ++ [k]) := by
  intro pre mid post j j' hsplit hj hj'
  rcases split_concat hsplit with ⟨hks, rfl⟩ | ⟨post', rfl, hks⟩
  · exact hk hj' pre mid j hks.symm hj
  · exact h pre mid post' j j' hks hj hj'

/-! Dispatches -/

/-- The discipline speaks of the calls and the enabled bits alone. -/
theorem State.StartDiscipline.congr (h : s.StartDiscipline) (hcalls : t.calls = s.calls)
    (hen : t.en = s.en) : t.StartDiscipline := by
  intro a
  rw [enabled_of_en hen, hcalls]
  exact h a

/-- One call keeps the discipline when a completed start takes its resource from disabled to enabled,
and no resource becomes disabled but by its stop. -/
theorem State.StartDiscipline.call (h : s.StartDiscipline) (hcalls : t.calls = s.calls ++ [k])
    (hstart : ∀ b, k.isStart b → s.enabled b = false ∧ t.enabled b = true)
    (hstop : ∀ b, t.enabled b = false → s.enabled b = false ∨ k.isStop b) : t.StartDiscipline := by
  intro b
  obtain ⟨hsep, hsince⟩ := h b
  rw [hcalls]
  refine ⟨hsep.concat fun hk => hsince (hstart b hk).1, fun hdis => ?_⟩
  have hk : ¬ k.isStart b := fun hk => by simp [(hstart b hk).2] at hdis
  exact .concat hk ((hstop b hdis).imp_left hsince)

/-- A call of another entry point than `start` keeps the discipline, as only a stop disables. -/
theorem State.StartDiscipline.call_of_ne_start {fn : CollabFn} {ans : Answer}
    (h : s.StartDiscipline) (hcalls : t.calls = s.calls ++ [⟨fn, a, ans⟩]) (hfn : fn ≠ .start)
    (hstop : ∀ b, t.enabled b = false → s.enabled b = false ∨ fn = .stop ∧ a = b) :
    t.StartDiscipline :=
  h.call hcalls (fun _ hk => absurd hk.1 hfn) hstop

theorem cmdStop_discipline (h : s.StartDiscipline) : (cmdStop a s).2.StartDiscipline := by
  refine h.call_of_ne_start (cmdStop_calls a s) (by simp) fun b hb => ?_
  by_cases hba : b = a
  · exact .inr ⟨rfl, hba.symm⟩
  · rw [(cmdStop_changes a s).en b hba] at hb
    exact .inl hb

theorem lifecycleCall_en (fn : CollabFn) (a : Byte) (s : State) :
    (lifecycleCall fn a s).2.en = s.en := by
  have hen := State.called_en s fn a
  unfold lifecycleCall
  split <;> exact hen

theorem cmdHandle_en (a o : Byte) (x : Half) (s : State) : (cmdHandle a o x s).2.en = s.en := by
  have hen := State.called_en s (.handle o x) a
  unfold cmdHandle
  split <;> exact hen

theorem lifecycleCall_discipline {fn : CollabFn} (hfn : fn ≠ .start) (h : s.StartDiscipline) :
    (lifecycleCall fn a s).2.StartDiscipline :=
  h.call_of_ne_start (lifecycleCall_calls fn a s) hfn fun b hb =>
    .inl (enabled_of_en (lifecycleCall_en fn a s) b ▸ hb)

theorem cmdBody_discipline (a o : Byte) (x : Half) (h : s.StartDiscipline) :
    (cmdBody a o x s).2.StartDiscipline := by
  rw [cmdBody_eq]
  split_ifs
  · exact cmdStop_discipline h
  · exact lifecycleCall_discipline (by simp) h
  · exact lifecycleCall_discipline (by simp) h
  · exact h.call_of_ne_start (cmdHandle_calls a o x s) (by simp) fun b hb =>
      .inl (enabled_of_en (cmdHandle_en a o x s) b ▸ hb)

/-- A call of `start` for a disabled resource keeps the discipline when, completed, it enables it
(R187, R188). -/
theorem State.StartDiscipline.call_start {ans : Answer} (h : s.StartDiscipline)
    (hdis : s.enabled a = false) (hcalls : t.calls = s.calls ++ [⟨.start, a, ans⟩])
    (hdone : ans = .done → t.enabled a = true) (hrest : ∀ b, b ≠ a → t.enabled b = s.enabled b) :
    t.StartDiscipline := by
  refine h.call hcalls (fun b hk => ?_) fun b hb => .inl ?_
  · obtain ⟨-, rfl, hans⟩ := hk
    exact ⟨hdis, hdone hans⟩
  · by_cases hba : b = a
    · rw [hba, hdis]
    · rw [← hrest b hba, hb]

/-- A start of a disabled resource and what follows it, by the answer (R187). -/
theorem startThen_discipline {c : State → DispatchEnd × State}
    (hc : ∀ u : State, u.StartDiscipline → (c u).2.StartDiscipline) (h : s.StartDiscipline)
    (hdis : s.enabled a = false) : (startThen a c s).2.StartDiscipline := by
  have hcalls := State.called_calls s .start a
  have hcalled := DispatchChanges.called a s .start
  cases hr : s.nextReply with
  | ok w =>
    rw [startThen_ok hr]
    exact hc _ (h.call_start hdis hcalls (by simp) (hcalled.trans (.setEn a _ true)).en)
  | timeout =>
    rw [startThen_timeout hr]
    exact h.call_start hdis hcalls (by simp [hr, answerOf]) (hcalled.trans (.drawEn a _)).en
  | halt =>
    rw [startThen_halt hr]
    exact h.call_start hdis hcalls (by simp [hr, answerOf]) hcalled.en

/-- AUTOINIT and the command it is the head of (R187). -/
theorem autoInit_discipline {c : State → DispatchEnd × State}
    (hc : ∀ u : State, u.StartDiscipline → (c u).2.StartDiscipline) (h : s.StartDiscipline) :
    (autoInit a c s).2.StartDiscipline := by
  cases hen : s.enabled a
  · rw [autoInit_disabled hen]
    exact startThen_discipline hc h hen
  · rw [autoInit_enabled hen]
    exact hc s h

/-- Every dispatch keeps the discipline (R185 to R194). -/
theorem dispatch_discipline (a o : Byte) (x : Half) (h : s.StartDiscipline) :
    (dispatch a o x s).2.StartDiscipline := by
  cases hk : s.cfg.known a o
  case false => rwa [dispatch_unknown hk]
  by_cases hs : o = s.cfg.opStart
  · rw [dispatch_start hk hs]
    exact autoInit_discipline (c := State.lifecycleDone) (fun _ hu => hu) h
  · rw [dispatch_body hk hs]
    exact autoInit_discipline (fun _ => cmdBody_discipline a o x) h

/-! Steps -/

theorem runFrame_discipline (h : s.StartDiscipline) (hx : runFrame s = .next t) :
    t.StartDiscipline := by
  rcases runFrame_next hx with rfl | ⟨_, _, _, rfl⟩ | ⟨_, _, _, a, o, x, -, -, rfl⟩
  · exact h
  · exact h
  · exact (dispatch_discipline a o x h).congr (finishRoute_calls ..) (finishRoute_en ..)

/-- After a reset no call has been made (R49). -/
theorem afterReset_discipline (s : State) : s.afterReset.StartDiscipline := by
  have hcalls : s.afterReset.calls = [] := rfl
  intro a
  rw [hcalls]
  exact ⟨fun pre mid post j j' hnil => by simp at hnil, fun _ pre post j hnil => by simp at hnil⟩

/-- Every operation that an event causes keeps the discipline. -/
theorem exec_discipline {e : Event} (h : s.StartDiscipline)
    (hx : exec (s.eventInstr e) s = .next t) : t.StartDiscipline := by
  have hframe := exec_eventFrame hx
  cases e with
  | ck f =>
    rcases execCkFrame_next hx with rfl | ⟨-, hx⟩
    exacts [h, runFrame_discipline (s := s.loadFrame f) h hx]
  | exec =>
    rcases execMExec_next hx with rfl | ⟨-, rfl⟩
    exacts [h, (dispatch_discipline _ _ _ h).congr (finishExec_calls _) (finishExec_en _)]
  | reset =>
    rw [next_inj hx]
    exact afterReset_discipline s
  | _ => exact h.congr (congrArg State.calls hframe :) (congrArg State.en hframe :)

/-- Settles O36: the dispatching events keep the discipline call by call, a reset forgets the calls,
and the table of writers says that no other event touches them. -/
theorem stepKeepsStartDiscipline : Obligations.StepKeepsStartDiscipline := by
  intro s t h hstep
  rcases step_next hstep with rfl | ⟨e, es, -, hx⟩
  · exact h
  · exact exec_discipline (s := s.delivered) (e := e) h hx

end Sys2Proof.Machine
end

section
/-! What ends a command (R182 to R197): a lifecycle call that completes, a timeout at the first call,
and the automatic start of a disabled resource as the start it stands for. -/

namespace Sys2Proof

variable {c : Config}

theorem Config.Legal.opStop_ne_opStart (h : c.Legal) : c.opStop ≠ c.opStart := by
  obtain ⟨-, hnodup, -⟩ := h
  intro heq
  exact (List.nodup_cons.1 hnodup).1 (by rw [← heq]; exact List.mem_cons_self)

/-- Every resource of a legal registry knows the six generic opcodes (R181). -/
theorem Config.Legal.known_generic {a o g : Byte} (h : c.Legal) (hk : c.known a o = true)
    (hg : g ∈ c.generic) : c.known a g = true := by
  obtain ⟨-, -, -, hcaps⟩ := h
  unfold Config.known Config.capsOf at hk ⊢
  cases hr : c.registry.find? (fun r => r.addr == a) with
  | none => simp [hr] at hk
  | some r => simpa using hcaps r (List.mem_of_find?_eq_some hr) g hg

end Sys2Proof

namespace Sys2Proof.Machine

variable {s u : State} {a o : Byte} {x : Half}

/-! Lifecycle calls -/

/-- Answering a command writes only the answer, which the frame of its dispatch leaves alone. -/
theorem DispatchChanges.answered (h : DispatchChanges a s u) (r : Result) :
    SameButDispatch a s { u.answer r with result := s.result } :=
  ⟨(congrArg (fun v : State => { v with result := s.result }) h.rest :), h.en⟩

/-- A lifecycle command that completes in `u`, having made the one call `k`, answers OK and
`LIFECYCLE_RESULT` and keeps the enabled bits of `u` (R188 to R191). -/
theorem answerCommand_lifecycleDone {k : Call} (h : DispatchChanges a s u)
    (hcalls : u.calls = s.calls ++ [k]) :
    ∃ t, answerCommand u.lifecycleDone = .next t ∧ t.calls = s.calls ++ [k] ∧ t.en = u.en ∧
      t.result = .response 0x00 s.cfg.lifecycleResult ∧
      SameButDispatch a s { t with result := s.result } := by
  have hcfg : u.cfg = s.cfg := (congrArg State.cfg h.rest :)
  exact ⟨_, rfl, hcalls, rfl, by rw [← hcfg]; rfl, h.answered _⟩

/-- A lifecycle call that completes is recorded as done (R46, R195). -/
theorem called_calls_ok {fn : CollabFn} {w : Word} (hr : s.nextReply = .ok w)
    (hfn : ∀ o x, fn ≠ .handle o x) : (s.called fn a).calls = s.calls ++ [⟨fn, a, .done⟩] := by
  have hans : answerOf fn (.ok w) = .done := by
    cases fn with
    | handle o x => exact absurd rfl (hfn o x)
    | _ => rfl
  rw [State.called_calls, hr, hans]

theorem cmdStart_enabled (hen : s.enabled a = true) : cmdStart a s = s.lifecycleDone := if_pos hen

theorem cmdStart_disabled (hen : s.enabled a = false) :
    cmdStart a s = startThen a State.lifecycleDone s := if_neg (by simp [hen])

theorem cmdStart_ok {w : Word} (hen : s.enabled a = false) (hr : s.nextReply = .ok w) :
    cmdStart a s = ((s.called .start a).setEn a true).lifecycleDone := by
  rw [cmdStart_disabled hen, startThen_ok hr]

/-- Settles O28: a start of an enabled resource is its answer alone; of a disabled one it is the call
and the bit. -/
theorem startInitialisesOnce : Obligations.StartInitialisesOnce := by
  intro s a x h0 hk
  have hrun : exec (.cmdStart a x) s = answerCommand (cmdStart a s) := runCommand_of_selected h0 hk
  rw [hrun]
  refine ⟨fun hen => ?enabled, fun w hen hr => ?disabled⟩
  case enabled =>
    rw [cmdStart_enabled hen]
    rfl
  case disabled =>
    obtain ⟨t, ht, hcalls, hten, hresult, hsame⟩ := answerCommand_lifecycleDone
      ((DispatchChanges.called a s .start).trans (.setEn a _ true))
      (called_calls_ok (a := a) hr (by simp))
    rw [cmdStart_ok hen hr]
    exact ⟨t, ht, hcalls, by simp [enabled_of_en hten], hresult, hsame⟩

/-- Settles O29: stop is passed on, and clears the bit. -/
theorem stopDisables : Obligations.StopDisables := by
  intro s a x w h0 hk hen hr
  have hrun : exec (.cmdStop a x) s = answerCommand (cmdStop a s) := runCommand_of_enabled h0 hen hk
  have hstop : cmdStop a s = ((s.called .stop a).setEn a false).lifecycleDone := by
    simp only [cmdStop, hr]
  obtain ⟨t, ht, hcalls, hten, hresult, hsame⟩ := answerCommand_lifecycleDone
    ((DispatchChanges.called a s .stop).trans (.setEn a _ false))
    (called_calls_ok (a := a) hr (by simp))
  rw [hrun, hstop]
  exact ⟨t, ht, hcalls, by simp [enabled_of_en hten], hresult, hsame⟩

/-- A lifecycle call that completes and leaves the enabled bits alone (R190, R191). -/
theorem answerCommand_lifecycleCall {fn : CollabFn} {w : Word} (hr : s.nextReply = .ok w)
    (hfn : ∀ o x, fn ≠ .handle o x) :
    ∃ t, answerCommand (lifecycleCall fn a s) = .next t ∧ t.calls = s.calls ++ [⟨fn, a, .done⟩] ∧
      t.en = s.en ∧ t.result = .response 0x00 s.cfg.lifecycleResult ∧
      SameButDispatch a s { t with result := s.result } := by
  have hcall : lifecycleCall fn a s = (s.called fn a).lifecycleDone := by
    simp only [lifecycleCall, hr]
  rw [hcall, ← State.called_en s fn a]
  exact answerCommand_lifecycleDone (.called a s fn) (called_calls_ok hr hfn)

/-- Settles O30: both commands are the one lifecycle call that leaves the enabled bits alone. -/
theorem sleepAndWakeupArePassedOn : Obligations.SleepAndWakeupArePassedOn := by
  intro s a x w h0 hen hr
  refine ⟨fun hk => ?sleep, fun hk => ?wakeup⟩
  case sleep =>
    have hrun : exec (.cmdSleep a x) s = answerCommand (lifecycleCall .sleep a s) :=
      runCommand_of_enabled h0 hen hk
    rw [hrun]
    exact answerCommand_lifecycleCall hr (by simp)
  case wakeup =>
    have hrun : exec (.cmdWakeup a x) s = answerCommand (lifecycleCall .wakeup a s) :=
      runCommand_of_enabled h0 hen hk
    rw [hrun]
    exact answerCommand_lifecycleCall hr (by simp)

/-! Timeouts -/

theorem called_calls_timeout {fn : CollabFn} (hr : s.nextReply = .timeout) :
    (s.called fn a).calls = s.calls ++ [⟨fn, a, .timeout⟩] := by
  have hans : answerOf fn .timeout = .timeout := by cases fn <;> rfl
  rw [State.called_calls, hr, hans]

/-- On a disabled resource every command waits for `start` first (R187, R188). -/
theorem dispatch_disabled_timeout (hk : s.cfg.known a o = true) (hr : s.nextReply = .timeout)
    (hen : s.enabled a = false) :
    dispatch a o x s = (.timeout, (s.called .start a).drawEn a) := by
  by_cases hs : o = s.cfg.opStart
  · rw [dispatch_start hk hs, cmdStart_disabled hen, startThen_timeout hr]
  · rw [dispatch_disabled hk hs hen, startThen_timeout hr]

/-- Any command of an enabled resource but `stop` draws nothing at a timeout (R190 to R194). -/
theorem cmdBody_timeout (hr : s.nextReply = .timeout) (hen : s.enabled a = true)
    (hstop : o ≠ s.cfg.opStop) :
    cmdBody a o x s = (.timeout, s.called (firstCall s a o x) a) := by
  rw [cmdBody_eq, firstCall, if_neg (by simp [hen] : ¬ s.enabled a = false), if_neg hstop,
    if_neg hstop]
  split_ifs
  · simp only [lifecycleCall, hr]
  · simp only [lifecycleCall, hr]
  · simp only [cmdHandle, hr]

theorem cmdBody_stop_timeout (hr : s.nextReply = .timeout) :
    cmdBody a s.cfg.opStop x s = (.timeout, (s.called .stop a).drawEn a) := by
  rw [cmdBody_eq, if_pos rfl]
  simp only [cmdStop, hr]

/-- Settles O33: the dispatch ends at its first call, with `EN[a]` drawn after `start` and `stop`. -/
theorem timeoutEndsTheDispatch : Obligations.TimeoutEndsTheDispatch := by
  intro s a o x hlegal hk hr
  have hdraw (fn : CollabFn) : DispatchChanges a s ((s.called fn a).drawEn a) :=
    (DispatchChanges.called a s fn).trans (.drawEn a _)
  refine ⟨fun hen => ?disabled, fun hen ho => ?stop, fun hen hs hstop => ?other⟩
  case disabled =>
    exact ⟨_, dispatch_disabled_timeout hk hr hen, called_calls_timeout hr,
      (hdraw .start).sameButDispatch⟩
  case stop =>
    subst ho
    exact ⟨_, (dispatch_enabled_body hk hlegal.opStop_ne_opStart hen).trans
      (cmdBody_stop_timeout hr), called_calls_timeout hr, (hdraw .stop).sameButDispatch⟩
  case other =>
    refine ⟨_, (dispatch_enabled_body hk hs hen).trans (cmdBody_timeout hr hen hstop), ?_,
      State.called_en .., (DispatchChanges.called a s _).sameButDispatch⟩
    rw [called_calls_timeout hr, firstCall, if_neg (by simp [hen]), if_neg hstop]

/-! The automatic start -/

/-- Settles O35: after the explicit start the state is the one from which AUTOINIT goes on. -/
theorem autoInitEqualsExplicitStart : Obligations.AutoInitEqualsExplicitStart := by
  intro s a o x x' w hlegal hen hr hk hs
  have hstart : dispatch a s.cfg.opStart x' s =
      ((s.called .start a).setEn a true).lifecycleDone := by
    rw [dispatch_start (hlegal.known_generic hk (by simp [Config.generic])) rfl,
      cmdStart_ok hen hr]
  rw [hstart]
  exact ⟨dispatch_started hk hs hen hr, by simp [State.lifecycleDone, Config.stOk]⟩

end Sys2Proof.Machine
end

section
/-! The main loop's steps (R183, R184): M.TAKE refused or not enabled, and M.EXEC by the end of its
dispatch. -/

namespace Sys2Proof.Machine

variable {s : State}

/-- Settles O22: the enabling conditions first, then the length. -/
theorem takeRefusesShortTransfers : Obligations.TakeRefusesShortTransfers := by
  intro s h0
  refine ⟨fun hbus hdone hcv hlen => ?short, fun hdis => ?notEnabled, execMExec_unlatched h0⟩
  case short =>
    have hen : s.takeEnabled = true := by simp [State.takeEnabled, hbus, hdone, hcv]
    exact (live_none h0 _).trans ((if_pos hen).trans (if_pos hlen))
  case notEnabled =>
    have hen : ¬ s.takeEnabled = true := by
      simp only [State.takeEnabled, Bool.and_eq_true, beq_iff_eq, Bool.not_eq_true']
      rintro ⟨⟨hbus, hdone⟩, hcv⟩
      simp [hbus, hdone, hcv] at hdis
    exact (live_none h0 _).trans (if_neg hen)

/-- What M.EXEC's reply leaves, after operations that kept the configuration, the history and `BUSY`
(R184). -/
theorem served_eq {d : State} (hcfg : d.cfg = s.cfg) (htx : d.txStream = s.txStream)
    (hbusy : d.busy = s.busy) (w : Word) :
    d.served w = { d with
      txStream := s.txStream ++ wordBytes w s.cfg.replyOrder, cv := false,
      busy := if s.cfg.flowControl then false else s.busy } := by
  have hdrop : (if d.cfg.flowControl then false else d.busy) = (d.busy && !d.cfg.flowControl) := by
    cases d.cfg.flowControl <;> simp
  rw [← hcfg, ← htx, ← hbusy, hdrop]
  rfl

/-- Settles O23: what M.EXEC does with each end of its dispatch, which keeps the configuration, the
history and `BUSY`. -/
theorem execDispatchesAndReplies : Obligations.ExecDispatchesAndReplies := by
  intro s h0 hcv
  have hexec : exec .mExec s = .next (finishExec (dispatch s.ca s.co s.cx s)) :=
    execMExec_latched h0 hcv
  have hrest := dispatch_rest s.ca s.co s.cx s
  have hcfg := dispatch_cfg s.ca s.co s.cx s
  rw [hexec]
  generalize dispatch s.ca s.co s.cx s = r at hrest hcfg
  have htx : r.2.txStream = s.txStream := (congrArg State.txStream hrest :)
  have hbusy : r.2.busy = s.busy := (congrArg State.busy hrest :)
  obtain ⟨_ | _ | _, d⟩ := r
  case response status w => exact congrArg _ (served_eq hcfg htx hbusy w)
  case timeout =>
    exact ⟨Config.freeWord d.draws,
      congrArg _ (served_eq (d := d.drawn.idleFramer) hcfg htx hbusy _)⟩
  case halt => rfl

end Sys2Proof.Machine
end

section
/-! Single puts (R211 to R213, R220): what PK.INIT, PK.PUT and PK.LEN leave, where a put that fills the
buffer stops, and which bytes of the buffer the packer writes. -/

namespace Sys2Proof.Machine

variable {s t u : State}

/-! The bytes written -/

/-- Of the buffer's bytes `t` has those of `s`, but for the ones from the byte being filled in `s` to
the one being filled in `t`. -/
structure PackWrites (s t : State) : Prop where
  le : s.pkIdx ≤ t.pkIdx
  sameBut : Memory.SameBut (fun i => s.pkIdx ≤ i ∧ i ≤ t.pkIdx) s.pkBuf t.pkBuf

theorem PackWrites.refl (s : State) : PackWrites s s := ⟨le_rfl, fun _ _ => rfl⟩

theorem PackWrites.trans (hst : PackWrites s t) (htu : PackWrites t u) : PackWrites s u where
  le := hst.le.trans htu.le
  sameBut i hi := by
    have hle := hst.le
    have hle' := htu.le
    rw [htu.sameBut i (by omega), hst.sameBut i (by omega)]

/-- A write at one index leaves the bytes at the others. -/
theorem sameBut_write {p : Nat → Prop} {i : Nat} (m : Memory) (b : Byte) (hp : p i) :
    Memory.SameBut p m (Memory.write m i b) := fun j hj => by
  have hji : j ≠ i := fun h => hj (h ▸ hp)
  rw [Memory.read_write, if_neg hji]

theorem packChunk_writes (s : State) (v : Word) (width rem : Nat) :
    PackWrites s (s.packChunk v width rem) :=
  ⟨le_rfl, sameBut_write _ _ ⟨le_rfl, le_rfl⟩⟩

theorem packAdvanced_writes (s : State) : PackWrites s s.packAdvanced :=
  ⟨Nat.le_succ _, sameBut_write _ _ ⟨Nat.le_succ _, le_rfl⟩⟩

/-- The loop of PK.PUT writes from the byte being filled before to the one after (R212). -/
theorem packLoop_writes (v : Word) (width fuel rem : Nat) (s : State) :
    PackWrites s (packLoop v width fuel rem s) := by
  induction fuel generalizing rem s with
  | zero => exact .refl s
  | succ fuel ih =>
    have hchunk := packChunk_writes s v width rem
    unfold packLoop
    split
    · exact .refl s
    split
    · exact ⟨le_rfl, fun _ _ => rfl⟩
    split
    · exact ⟨hchunk.le, hchunk.sameBut⟩
    split
    · exact ⟨hchunk.le, hchunk.sameBut⟩
    · exact (hchunk.trans (packAdvanced_writes _)).trans (ih ..)

theorem packed_writes (s : State) (v : Word) (width : Nat) : PackWrites s (s.packed v width) :=
  packLoop_writes ..

/-- The puts of a batch write from the byte being filled before to the one after (R214). -/
theorem packAll_writes (width : Nat) (vs : List Word) (s : State) :
    PackWrites s (packAll width vs s) := by
  induction vs generalizing s with
  | nil => exact .refl s
  | cons v vs ih =>
    have hput := packed_writes s v width
    simp only [packAll]
    split
    · exact hput
    · exact hput.trans (ih _)

/-! A put that fills the buffer -/

/-- `t` is `s` with the rest of its packed stream's buffer filled, bit `i` of what is appended being
`bit i`: the byte being filled is the last, and the bits before those are as they were. -/
structure PackFills (s t : State) (bit : Nat → Bool) : Prop where
  last : t.pkIdx + 1 = s.cfg.pkbufSize
  kept : ∀ k, k < s.packPos → t.packBit k = s.packBit k
  new : ∀ i, s.packPos + i < 8 * s.cfg.pkbufSize → t.packBit (s.packPos + i) = bit i

/-- Appending `n` bits and then filling the buffer is filling the buffer. -/
theorem PackAppends.trans_fills {n : Nat} {f g bit : Nat → Bool} (hst : PackAppends s t n f)
    (htu : PackFills t u g) (hf : ∀ i, i < n → f i = bit i) (hg : ∀ i, g i = bit (n + i)) :
    PackFills s u bit where
  last := hst.cfg ▸ htu.last
  kept k hk := by rw [htu.kept k (by rw [hst.pos]; omega), hst.kept k hk]
  new i hi := by
    by_cases hin : i < n
    · rw [htu.kept _ (by rw [hst.pos]; omega), hst.new i hin, hf i hin]
    · have hpos : s.packPos + i = t.packPos + (i - n) := by rw [hst.pos]; omega
      rw [hpos, htu.new _ (by rw [← hpos, hst.cfg]; exact hi), hg,
        Nat.add_sub_cancel' (Nat.le_of_not_lt hin)]

/-- The turn that overflows fills the last byte (R220). -/
theorem packChunk_fills {v : Word} {width rem : Nat} (hmsb : s.cfg.packOrder = .msbFirst)
    (hinv : s.PackInv) (hclean : s.PackClean) (hrem : s.pkFree ≤ rem)
    (hlast : s.pkIdx + 1 = s.cfg.pkbufSize) :
    PackFills s ((s.packChunk v width rem).raise .codecOverflow) (lowBit v rem) := by
  obtain ⟨-, -, hfree⟩ := hinv
  refine ⟨hlast, fun k hk => packBit_packChunk_before hmsb hfree hk, fun i hi => ?_⟩
  have hi' : i < s.pkFree := by unfold State.packPos at hi; omega
  refine (packBit_packChunk_new hmsb hclean hfree hi').trans ?_
  rw [decide_eq_true (by omega), Bool.true_and]

/-- The loop of PK.PUT fills the buffer where the bits that remain do (R212, R220). -/
theorem packLoop_fills {v : Word} {width fuel rem : Nat} (hfuel : rem < fuel)
    (hmsb : s.cfg.packOrder = .msbFirst) (hinv : s.PackInv) (hclean : s.PackClean)
    (hfull : 8 * s.cfg.pkbufSize ≤ s.packPos + rem) :
    PackFills s (packLoop v width fuel rem s) (lowBit v rem) := by
  induction fuel generalizing rem s with
  | zero => exact absurd hfuel (Nat.not_lt_zero _)
  | succ fuel ih =>
    have ⟨hidx, hfree1, hfree8⟩ := hinv
    have hge : s.pkFree ≤ rem := by unfold State.packPos at hfull; omega
    have h0 : rem ≠ 0 := by omega
    by_cases hlast : s.pkIdx + 1 = s.cfg.pkbufSize
    · rw [packLoop_overflow v width fuel rem s h0 hlast hge]
      exact packChunk_fills hmsb hinv hclean hge hlast
    · have hnext : s.pkIdx + 1 < s.cfg.pkbufSize := by omega
      have happ := packChunk_across_appends (v := v) (width := width) hmsb hinv hclean hge hnext
      rw [packLoop_across v width fuel rem s h0 hnext hge]
      exact happ.trans_fills
        (ih (by omega) hmsb happ.inv happ.clean (by rw [happ.pos, happ.cfg]; omega))
        (fun _ _ => rfl) (lowBit_sub v rem s.pkFree)

theorem packed_fills (v : Word) {width : Nat} (hmsb : s.cfg.packOrder = .msbFirst)
    (hinv : s.PackInv) (hclean : s.PackClean) (hfull : 8 * s.cfg.pkbufSize ≤ s.packPos + width) :
    PackFills s (s.packed v width) (lowBit v width) :=
  packLoop_fills (Nat.lt_succ_self width) hmsb hinv hclean hfull

/-! The operations -/

theorem execPkPut_of_width {width : Nat} (v : Word) (h0 : s.trap = none) (hready : s.pkReady = true)
    (hw : 1 ≤ width ∧ width ≤ 32) : execPkPut v width s = .next (s.packed v width) := by
  simp [execPkPut, h0, hready, (widthOk_iff width).2 hw]

theorem execPkLen_of_ready (h0 : s.trap = none) (hready : s.pkReady = true) :
    execPkLen s = .next (s.answer (.length s.packLen)) := by
  simp [execPkLen, h0, hready]

/-- Settles O38: PK.INIT by definition, its write to byte 0 by the buffer's laws. -/
theorem packInitStartsAStream : Obligations.PackInitStartsAStream := fun s h0 =>
  ⟨s.packStarted, live_none h0 _, rfl, rfl, rfl, (Memory.read_write ..).trans (if_pos rfl),
    sameBut_write _ _ rfl, rfl⟩

/-- Settles O39: what the loop of PK.PUT appends, writes and leaves. -/
theorem putAppendsTheLowBits : Obligations.PutAppendsTheLowBits := by
  intro s v width h0 hmsb hready hw1 hw32 hinv hclean hfits
  have happ := packed_appends v hmsb hinv hclean hfits
  have hrest : { s.packed v width with
      pkIdx := s.pkIdx, pkFree := s.pkFree, pkBuf := s.pkBuf, trap := s.trap } = s :=
    packed_rest s v width
  rw [← happ.trap] at hrest
  exact ⟨_, execPkPut_of_width v h0 hready ⟨hw1, hw32⟩, happ.trap.trans h0, happ.pos, happ.inv,
    happ.clean, happ.kept, happ.new, (packed_writes s v width).sameBut, hrest⟩

/-- Settles O40: the loop of PK.PUT stops at the last byte of the buffer, which it fills. -/
theorem putPastTheEndOverflows : Obligations.PutPastTheEndOverflows := by
  intro s v width h0 hmsb hready hw1 hw32 hinv hclean hfull
  have hfill := packed_fills v hmsb hinv hclean hfull
  refine ⟨_, execPkPut_of_width v h0 hready ⟨hw1, hw32⟩, packed_overflows v hinv hfull, hfill.last,
    hfill.kept, hfill.new, fun i hi => (packed_writes s v width).sameBut i ?_⟩
  have hlast := hfill.last
  omega

/-- Settles O41: the byte count by the two cases of the byte being filled. -/
theorem lengthCountsThePartialByte : Obligations.LengthCountsThePartialByte := by
  intro s h0 hready hfree1 hfree8
  have hlen : s.packLen = (s.packPos + 7) / 8 := by
    unfold State.packLen State.packPos
    split <;> omega
  exact hlen ▸ execPkLen_of_ready h0 hready

end Sys2Proof.Machine
end

section
/-! The codec's refusals (R219, R302) and its frame (R211 to R217). -/

namespace Sys2Proof.Machine

variable {s t : State}

theorem widthOk_eq_false {width : Nat} (hw : width = 0 ∨ 32 < width) : widthOk width = false := by
  simp only [widthOk, decide_eq_false_iff_not]; omega

/-- Settles O47: the width is tested first, then the initialisation. -/
theorem codecRefusals : Obligations.CodecRefusals := by
  intro s v vs width n h0
  refine ⟨fun hw => ?width, fun hw1 hw32 hready => ?packer, fun hw1 hw32 hready => ?unpacker⟩
  case width =>
    have hput := widthOk_eq_false hw
    have hbatch (n : Nat) : batchWidthOk width (n + 1) = false := by simp [batchWidthOk, hput]
    refine ⟨(live_none h0 _).trans ?_, (live_none h0 _).trans ?_, (live_none h0 _).trans ?_,
      (live_none h0 _).trans ?_⟩ <;> simp [hput, hbatch]
  case packer =>
    have hput := (widthOk_iff width).2 ⟨hw1, hw32⟩
    exact ⟨(live_none h0 _).trans (by simp [hput, hready]),
      (live_none h0 _).trans (by simp [hready])⟩
  case unpacker =>
    have hget := (widthOk_iff width).2 ⟨hw1, hw32⟩
    have hbatch : batchWidthOk width (n + 1) = true := by simp [batchWidthOk, hget]
    exact ⟨(live_none h0 _).trans (by simp [hget, hready]),
      (live_none h0 _).trans (by simp [hbatch, hready])⟩

/-- The end of a batch writes only the answer (R214). -/
theorem batchDone_rest (s : State) : { s.batchDone with result := s.result } = s := by
  unfold State.batchDone
  split <;> rfl

/-- `t` with what the packer may write (R211, R212, R214) as it is in `s`. -/
def State.withPackerOf (t s : State) : State :=
  { t with pkBuf := s.pkBuf, pkIdx := s.pkIdx, pkFree := s.pkFree, pkReady := s.pkReady,
           result := s.result, trap := s.trap }

theorem packed_withPackerOf (s : State) (v : Word) (width : Nat) :
    (s.packed v width).withPackerOf s = s :=
  (congrArg (State.withPackerOf · s) (packed_rest s v width) :)

theorem packBatch_withPackerOf (s : State) (width : Nat) (vs : List Word) :
    (packAll width vs s.packStarted).batchDone.withPackerOf s = s := by
  have hputs := packAll_rest width vs s.packStarted
  generalize packAll width vs s.packStarted = u at hputs ⊢
  calc u.batchDone.withPackerOf s
    _ = u.withPackerOf s := (congrArg (State.withPackerOf · s) (batchDone_rest u) :)
    _ = s.packStarted.withPackerOf s := (congrArg (State.withPackerOf · s) hputs :)
    _ = s := rfl

/-- PK.BATCH writes from byte 0 to the byte being filled after it (R214). -/
theorem packBatch_writes (s : State) (width : Nat) (vs : List Word) :
    Memory.SameBut (fun i => i ≤ (packAll width vs s.packStarted).batchDone.pkIdx) s.pkBuf
      (packAll width vs s.packStarted).batchDone.pkBuf := by
  have hputs := packAll_writes width vs s.packStarted
  generalize packAll width vs s.packStarted = u at hputs
  have hdone := batchDone_rest u
  have hidx : u.batchDone.pkIdx = u.pkIdx := (congrArg State.pkIdx hdone :)
  have hbuf : u.batchDone.pkBuf = u.pkBuf := (congrArg State.pkBuf hdone :)
  rw [hidx, hbuf]
  intro i hi
  have hinit := sameBut_write (p := (· = 0)) s.pkBuf 0 rfl i (by rintro rfl; exact hi (Nat.zero_le _))
  exact (hputs.sameBut i fun h => hi h.2).trans hinit

theorem answerGet_rest (s : State) (width : Nat) :
    { answerGet (s.unpacked width) with
      upIdx := s.upIdx, upFree := s.upFree, result := s.result, trap := s.trap } = s := by
  have hget := unpacked_rest s width
  generalize s.unpacked width = r at hget ⊢
  obtain ⟨_ | v, t⟩ := r <;> exact congrArg (State.answer · s.result) hget

theorem answerBatch_rest (s : State) (width n : Nat) :
    { answerBatch (unpackAll width n s) with
      upIdx := s.upIdx, upFree := s.upFree, result := s.result, trap := s.trap } = s := by
  have hgets := unpackAll_rest width n s
  generalize unpackAll width n s = r at hgets ⊢
  obtain ⟨_ | vs, t⟩ := r <;> exact congrArg (State.answer · s.result) hgets

/-- Settles O48: each operation answers the state it was given, or its one effect. -/
theorem codecFrame : Obligations.CodecFrame := by
  intro s t v vs width n src
  refine ⟨?packer, fun h => ?initBytes, fun h => ?putBytes, fun h => ?batchBytes, fun h => ?length,
    fun h => ?source, ?unpacker⟩
  case packer =>
    rintro (h | h | h)
    · obtain rfl | rfl := execPkInit_next h
      exacts [rfl, rfl]
    · obtain rfl | rfl := execPkPut_next h
      exacts [rfl, packed_withPackerOf s v width]
    · obtain rfl | rfl := execPkBatch_next h
      exacts [rfl, packBatch_withPackerOf s width vs]
  case initBytes =>
    obtain rfl | rfl := execPkInit_next h
    exacts [fun _ _ => rfl, sameBut_write _ _ rfl]
  case putBytes =>
    obtain rfl | rfl := execPkPut_next h
    exacts [fun _ _ => rfl, (packed_writes s v width).sameBut]
  case batchBytes =>
    obtain rfl | rfl := execPkBatch_next h
    exacts [fun _ _ => rfl, packBatch_writes s width vs]
  case length =>
    obtain rfl | rfl := execPkLen_next h
    exacts [rfl, rfl]
  case source =>
    obtain rfl | rfl := execUpInit_next h
    exacts [rfl, rfl]
  case unpacker =>
    rintro (h | h)
    · obtain rfl | rfl := execUpGet_next h
      exacts [rfl, answerGet_rest s width]
    · obtain rfl | rfl := execUpBatch_next h
      exacts [rfl, answerBatch_rest s width n]

end Sys2Proof.Machine
end

section
/-! The unpacker (R215 to R217): what a chunk, a get and a batch of gets read off the stream, bit by
bit, and when they run out of it. -/

namespace Sys2Proof.Machine

variable {s t u : State}

/-- Bit `k` of the stream that the unpacker is pointed at. -/
def State.unpackBit (s : State) (k : Nat) : Bool := streamBit s.sourceByte k

/-! What is read -/

/-- `t` is `s` with the unpacker `n` bits further, and perhaps an answer. -/
structure UnpackMoves (s t : State) (n : Nat) : Prop where
  pos : t.unpackPos = s.unpackPos + n
  inv : t.UnpackInv
  same : { t with upIdx := s.upIdx, upFree := s.upFree, result := s.result } = s

theorem UnpackMoves.refl (hinv : s.UnpackInv) : UnpackMoves s s 0 := ⟨rfl, hinv, rfl⟩

/-- Moving `n` bits and then `m` is moving `n + m`. -/
theorem UnpackMoves.trans {n m : Nat} (hst : UnpackMoves s t n) (htu : UnpackMoves t u m) :
    UnpackMoves s u (n + m) where
  pos := by rw [htu.pos, hst.pos, Nat.add_assoc]
  inv := htu.inv
  same := (congrArg (fun r : State =>
    { r with upIdx := s.upIdx, upFree := s.upFree, result := s.result }) htu.same).trans hst.same

/-- An answer moves nothing. -/
theorem UnpackMoves.answer {n : Nat} (h : UnpackMoves s t n) (r : Result) :
    UnpackMoves s (t.answer r) n := ⟨h.pos, h.inv, h.same⟩

theorem UnpackMoves.cfg {n : Nat} (h : UnpackMoves s t n) : t.cfg = s.cfg :=
  (congrArg State.cfg h.same :)

theorem UnpackMoves.trap {n : Nat} (h : UnpackMoves s t n) : t.trap = s.trap :=
  (congrArg State.trap h.same :)

theorem UnpackMoves.upReady {n : Nat} (h : UnpackMoves s t n) : t.upReady = s.upReady :=
  (congrArg State.upReady h.same :)

theorem UnpackMoves.upN {n : Nat} (h : UnpackMoves s t n) : t.upN = s.upN :=
  (congrArg State.upN h.same :)

theorem UnpackMoves.unpackBit {n : Nat} (h : UnpackMoves s t n) (k : Nat) :
    t.unpackBit k = s.unpackBit k :=
  (congrArg (State.unpackBit · k) h.same :)

/-- `new` is `old` with `n` bits of the stream of `s` below it, read from where the unpacker stands,
the first of them most significant. -/
def ReadsBelow (s : State) (n old new : Nat) : Prop :=
  ∀ i, new.testBit i =
    if i < n then s.unpackBit (s.unpackPos + (n - 1 - i)) else old.testBit (i - n)

theorem ReadsBelow.refl (s : State) (acc : Nat) : ReadsBelow s 0 acc acc := fun _ => rfl

/-- Reading `n` bits and then `m` is reading `n + m`. -/
theorem ReadsBelow.trans {n m a b c : Nat} (hab : ReadsBelow s n a b) (hst : UnpackMoves s t n)
    (hbc : ReadsBelow t m b c) : ReadsBelow s (n + m) a c := by
  intro i
  rw [hbc i, hst.unpackBit, hst.pos]
  by_cases him : i < m
  · have hk : s.unpackPos + n + (m - 1 - i) = s.unpackPos + (n + m - 1 - i) := by omega
    rw [if_pos him, if_pos (by omega), hk]
  · rw [if_neg him, hab (i - m)]
    by_cases hin : i - m < n
    · have hk : n - 1 - (i - m) = n + m - 1 - i := by omega
      rw [if_pos hin, if_pos (by omega), hk]
    · have hk : i - m - n = i - (n + m) := by omega
      rw [if_neg hin, if_neg (by omega), hk]

/-! One chunk -/

/-- A chunk of a byte, bit by bit (R216). -/
theorem testBit_takeChunk (b : Byte) (shift k i : Nat) :
    (takeChunk b shift k).testBit i = (decide (i < k) && b.getLsbD (i + shift)) := by
  simp [takeChunk, Nat.testBit_mod_two_pow, Nat.testBit_div_two_pow, BitVec.getLsbD]

/-- A turn puts the next bits of the stream below the value read so far: as many as the byte being
read still holds, or as remain (R216). -/
theorem unpackChunk_readsBelow {acc width rem : Nat} (hmsb : s.cfg.packOrder = .msbFirst)
    (hfree : s.upFree ≤ 8) :
    ReadsBelow s (min rem s.upFree) acc (s.unpackChunk acc width rem) := by
  intro i
  have hlt : takeChunk (s.sourceByte s.upIdx) (s.upFree - min rem s.upFree) (min rem s.upFree) <
      2 ^ min rem s.upFree := Nat.mod_lt _ (Nat.two_pow_pos _)
  simp only [State.unpackChunk, hmsb, joinChunk, chunkShift]
  rw [Nat.mul_comm acc, Nat.testBit_two_pow_mul_add _ hlt]
  split
  case isTrue hi =>
    have hbyte : (s.unpackPos + (min rem s.upFree - 1 - i)) / 8 = s.upIdx := by
      unfold State.unpackPos; omega
    have hbit : 7 - (s.unpackPos + (min rem s.upFree - 1 - i)) % 8 =
        i + (s.upFree - min rem s.upFree) := by
      unfold State.unpackPos; omega
    rw [testBit_takeChunk, decide_eq_true hi, Bool.true_and, State.unpackBit, streamBit, hbyte, hbit]
  case isFalse => rfl

/-- The byte being read left for the next (R216). -/
def State.unpackAdvanced (s : State) : State := { s with upFree := 8, upIdx := s.upIdx + 1 }

theorem unpackAdvanced_moves (hinv : s.UnpackInv) (hlt : s.upIdx < s.upN) :
    UnpackMoves s s.unpackAdvanced s.upFree := by
  obtain ⟨hN, -, -, hfree⟩ := hinv
  refine ⟨?_, ⟨hN, hlt, Nat.le_add_left 1 7, le_rfl⟩, rfl⟩
  simp only [State.unpackPos, State.unpackAdvanced]
  omega

/-- A word whose bits below `width` are those of `bit`, the first of them most significant, and whose
other bits are 0, read from its most significant bit down. -/
theorem getLsbD_first_most_significant {v : Word} {width : Nat} (bit : Nat → Bool)
    (hv : ∀ i, v.getLsbD i = (decide (i < width) && bit (width - 1 - i))) :
    (∀ i, i < width → v.getLsbD (width - 1 - i) = bit i) ∧ ∀ i, width ≤ i → v.getLsbD i = false := by
  refine ⟨fun i hi => ?_, fun i hi => ?_⟩
  · have hk : width - 1 - (width - 1 - i) = i := by omega
    rw [hv, decide_eq_true (by omega), Bool.true_and, hk]
  · rw [hv, decide_eq_false (Nat.not_lt.2 hi), Bool.false_and]

/-! A get -/

/-- A stream with a bit left has a byte left. -/
theorem upIdx_lt_of_bit_left {n : Nat} (hfree : s.upFree ≤ 8) (h0 : n ≠ 0)
    (hfits : s.unpackPos + n ≤ 8 * s.upN) : s.upIdx < s.upN := by
  unfold State.unpackPos at hfits; omega

/-- The loop of UP.GET reads the bits that remain, where the stream holds them (R216). -/
theorem unpackLoop_reads {width fuel rem acc : Nat} (hfuel : rem < fuel)
    (hmsb : s.cfg.packOrder = .msbFirst) (hinv : s.UnpackInv)
    (hfits : s.unpackPos + rem ≤ 8 * s.upN) :
    ∃ acc' t, unpackLoop width fuel rem acc s = (some acc', t) ∧ UnpackMoves s t rem ∧
      ReadsBelow s rem acc acc' := by
  induction fuel generalizing rem acc s with
  | zero => exact absurd hfuel (Nat.not_lt_zero _)
  | succ fuel ih =>
    have ⟨hN, hidx, hfree1, hfree8⟩ := hinv
    by_cases h0 : rem = 0
    · subst h0
      exact ⟨acc, s, unpackLoop_done .., .refl hinv, .refl s acc⟩
    have hlt := upIdx_lt_of_bit_left hfree8 h0 hfits
    have hchunk := unpackChunk_readsBelow (acc := acc) (width := width) (rem := rem) hmsb hfree8
    by_cases hin : rem < s.upFree
    · rw [Nat.min_eq_left hin.le] at hchunk
      refine ⟨_, _, unpackLoop_inside width fuel rem acc s h0 hlt hin, ⟨?pos, ?inv, rfl⟩, hchunk⟩
      case pos => simp only [State.unpackPos]; omega
      case inv => exact ⟨hN, hidx, Nat.sub_pos_of_lt hin, (Nat.sub_le ..).trans hfree8⟩
    · have hge := Nat.le_of_not_lt hin
      rw [Nat.min_eq_right hge] at hchunk
      have hmove := unpackAdvanced_moves hinv hlt
      obtain ⟨acc', t, hloop, hrest, hread⟩ := ih (s := s.unpackAdvanced)
        (rem := rem - s.upFree) (acc := s.unpackChunk acc width rem) (by omega) hmsb hmove.inv
        (by rw [hmove.pos, hmove.upN]; omega)
      have hall := hmove.trans hrest
      have hreads := hchunk.trans hmove hread
      rw [Nat.add_sub_cancel' hge] at hall hreads
      exact ⟨acc', t, (unpackLoop_across width fuel rem acc s h0 hlt hge).trans hloop, hall, hreads⟩

/-- The loop of UP.GET raises `CodecUnderrun` where the stream holds fewer bits than remain (R216). -/
theorem unpackLoop_underruns {width fuel rem acc : Nat} (hfuel : rem < fuel) (hinv : s.UnpackInv)
    (h0 : rem ≠ 0) (hshort : 8 * s.upN < s.unpackPos + rem) :
    ∃ t, unpackLoop width fuel rem acc s = (none, t) ∧ t.trap = some .codecUnderrun := by
  induction fuel generalizing rem acc s with
  | zero => exact absurd hfuel (Nat.not_lt_zero _)
  | succ fuel ih =>
    have ⟨_, _, hfree1, hfree8⟩ := hinv
    by_cases hend : s.upN ≤ s.upIdx
    · exact ⟨_, unpackLoop_underrun width fuel rem acc s h0 hend, rfl⟩
    · have hlt := Nat.lt_of_not_le hend
      have hmove := unpackAdvanced_moves hinv hlt
      have hge : s.upFree < rem := by unfold State.unpackPos at hshort; omega
      rw [unpackLoop_across width fuel rem acc s h0 hlt hge.le]
      exact ih (s := s.unpackAdvanced) (by omega) hmove.inv (by omega)
        (by rw [hmove.pos, hmove.upN]; omega)

/-- UP.GET answers the next `width` bits of the stream, the first most significant, where the stream
holds them (R216). -/
theorem unpacked_reads {width : Nat} (hmsb : s.cfg.packOrder = .msbFirst) (hw : width ≤ 32)
    (hinv : s.UnpackInv) (hfits : s.unpackPos + width ≤ 8 * s.upN) :
    ∃ v t, s.unpacked width = (some v, t) ∧ UnpackMoves s t width ∧
      ∀ i, v.getLsbD i = (decide (i < width) && s.unpackBit (s.unpackPos + (width - 1 - i))) := by
  obtain ⟨acc, t, hloop, hmove, hread⟩ := unpackLoop_reads (width := width) (acc := 0)
    (Nat.lt_succ_self width) hmsb hinv hfits
  refine ⟨BitVec.ofNat 32 acc, t, by simp [State.unpacked, hloop], hmove, fun i => ?_⟩
  rw [BitVec.getLsbD_ofNat, hread i]
  by_cases hi : i < width
  · rw [if_pos hi, decide_eq_true hi, decide_eq_true (by omega)]
  · rw [if_neg hi, Nat.zero_testBit, decide_eq_false hi, Bool.and_false, Bool.false_and]

theorem unpacked_underruns {width : Nat} (hw : 1 ≤ width) (hinv : s.UnpackInv)
    (hshort : 8 * s.upN < s.unpackPos + width) :
    ∃ t, s.unpacked width = (none, t) ∧ t.trap = some .codecUnderrun := by
  obtain ⟨t, hloop, htrap⟩ := unpackLoop_underruns (width := width) (acc := 0)
    (Nat.lt_succ_self width) hinv (by omega) hshort
  exact ⟨t, by simp [State.unpacked, hloop], htrap⟩

theorem execUpGet_of_width {width : Nat} (h0 : s.trap = none) (hready : s.upReady = true)
    (hw : 1 ≤ width ∧ width ≤ 32) :
    execUpGet width s = .next (answerGet (s.unpacked width)) := by
  simp [execUpGet, h0, hready, (widthOk_iff width).2 hw]

/-- Settles O44: the loop of UP.GET reads the bits that remain turn by turn, or runs out of bytes. -/
theorem getReadsTheNextBits : Obligations.GetReadsTheNextBits := by
  intro s width h0 hmsb hready hw1 hw32 hinv
  have hexec := execUpGet_of_width h0 hready ⟨hw1, hw32⟩
  refine ⟨fun hfits => ?fits, fun hshort => ?underrun⟩
  case fits =>
    obtain ⟨v, t, hget, hmove, hbits⟩ := unpacked_reads hmsb hw32 hinv hfits
    obtain ⟨hlow, hhigh⟩ :=
      getLsbD_first_most_significant (fun k => s.unpackBit (s.unpackPos + k)) hbits
    rw [hget] at hexec
    exact ⟨t.answer (.value v), v, hexec, rfl, hmove.pos, hmove.inv, hlow, hhigh, hmove.same⟩
  case underrun =>
    have hrest := unpacked_rest s width
    obtain ⟨t, hget, htrap⟩ := unpacked_underruns hw1 hinv hshort
    rw [hget] at hexec hrest
    exact ⟨t, hexec, htrap, hrest⟩

/-! A batch of gets -/

/-- The gets of a batch answer its values in order, where the stream holds them (R217). -/
theorem unpackAll_reads {width n : Nat} (hmsb : s.cfg.packOrder = .msbFirst) (hw : width ≤ 32)
    (hinv : s.UnpackInv) (hfits : n = 0 ∨ s.unpackPos + n * width ≤ 8 * s.upN) :
    ∃ vs t, unpackAll width n s = (some vs, t) ∧ vs.length = n ∧ UnpackMoves s t (n * width) ∧
      ∀ j v, vs[j]? = some v → ∀ i, v.getLsbD i =
        (decide (i < width) && s.unpackBit (s.unpackPos + j * width + (width - 1 - i))) := by
  induction n generalizing s with
  | zero =>
    refine ⟨[], s, rfl, rfl, ?_, by simp⟩
    rw [Nat.zero_mul]
    exact .refl hinv
  | succ n ih =>
    rw [Nat.succ_mul, Nat.add_comm (n * width)] at hfits ⊢
    replace hfits := hfits.resolve_left n.succ_ne_zero
    obtain ⟨v, t, hget, hmove, hbits⟩ := unpacked_reads hmsb hw hinv (by omega)
    obtain ⟨vs, u, hall, hlen, hrest, hvals⟩ := ih (hmove.cfg ▸ hmsb) hmove.inv
      (.inr (by rw [hmove.pos, hmove.upN]; omega))
    refine ⟨v :: vs, u, by simp [unpackAll, hget, hall], congrArg Nat.succ hlen,
      hmove.trans hrest, ?_⟩
    rintro (_ | j) v' hv' i
    · obtain rfl : v = v' := by simpa using hv'
      rw [hbits i, Nat.zero_mul, Nat.add_zero]
    · rw [hvals j v' hv' i, hmove.unpackBit, hmove.pos, Nat.succ_mul, Nat.add_comm (j * width),
        Nat.add_assoc s.unpackPos]

/-- A batch of gets raises `CodecUnderrun` where the stream holds too few bits for all of them
(R217). -/
theorem unpackAll_underruns {width n : Nat} (hmsb : s.cfg.packOrder = .msbFirst)
    (hw : 1 ≤ width ∧ width ≤ 32) (hinv : s.UnpackInv) (hn : n ≠ 0)
    (hshort : 8 * s.upN < s.unpackPos + n * width) :
    ∃ t, unpackAll width n s = (none, t) ∧ t.trap = some .codecUnderrun := by
  induction n generalizing s with
  | zero => exact absurd rfl hn
  | succ n ih =>
    rw [Nat.succ_mul n] at hshort
    by_cases hfits : s.unpackPos + width ≤ 8 * s.upN
    · obtain ⟨v, t, hget, hmove, -⟩ := unpacked_reads hmsb hw.2 hinv hfits
      have hn' : n ≠ 0 := by rintro rfl; rw [Nat.zero_mul] at hshort; omega
      obtain ⟨u, hall, htrap⟩ := ih (hmove.cfg ▸ hmsb) hmove.inv hn'
        (by rw [hmove.pos, hmove.upN]; omega)
      exact ⟨u, by simp [unpackAll, hget, hall], htrap⟩
    · obtain ⟨t, hget, htrap⟩ := unpacked_underruns hw.1 hinv (Nat.lt_of_not_le hfits)
      exact ⟨t, by simp [unpackAll, hget], htrap⟩

theorem execUpBatch_of_width {width : Nat} (n : Nat) (h0 : s.trap = none) (hready : s.upReady = true)
    (hw : 1 ≤ width ∧ width ≤ 32) :
    execUpBatch width n s = .next (answerBatch (unpackAll width n s)) := by
  simp [execUpBatch, h0, hready, batchWidthOk, (widthOk_iff width).2 hw]

/-- Settles O45, by induction on the number of gets. -/
theorem batchGetsEveryValue : Obligations.BatchGetsEveryValue := by
  intro s width n h0 hmsb hready hw1 hw32 hinv
  have hexec := execUpBatch_of_width n h0 hready ⟨hw1, hw32⟩
  refine ⟨fun hfits => ?fits, fun hn hshort => ?underrun⟩
  case fits =>
    obtain ⟨vs, t, hall, hlen, hmove, hvals⟩ := unpackAll_reads hmsb hw32 hinv hfits
    rw [hall] at hexec
    exact ⟨t.answer (.values vs), vs, hexec, rfl, hlen, hmove.pos, hmove.inv, fun j v hv =>
      getLsbD_first_most_significant (fun k => s.unpackBit (s.unpackPos + j * width + k))
        (hvals j v hv)⟩
  case underrun =>
    obtain ⟨t, hall, htrap⟩ := unpackAll_underruns hmsb ⟨hw1, hw32⟩ hinv hn hshort
    rw [hall] at hexec
    exact ⟨t, hexec, htrap⟩

end Sys2Proof.Machine
end

section
/-! The round trip (R218): the puts of a sequence append its bits one value after the other, and the
gets with the same widths read them back. -/

namespace Sys2Proof.Machine

variable {s t u : State}

/-! Sequences of operations -/

theorem execSeq_cons {i : Instr} {is : List Instr} (h : exec i s = .next t) :
    execSeq (i :: is) s = execSeq is t := by
  simp [execSeq, h]

/-- A sequence that runs to its end is followed by the next. -/
theorem execSeq_append {is js : List Instr} (h : execSeq is s = .next t) :
    execSeq (is ++ js) s = execSeq js t := by
  induction is generalizing s with
  | nil => rw [next_inj h, List.nil_append]
  | cons i is ih =>
    cases hi : exec i s with
    | next u =>
      rw [execSeq_cons hi] at h
      rw [List.cons_append, execSeq_cons hi, ih h]
    | fault f => simp [execSeq, hi] at h
    | refused r => simp [execSeq, hi] at h

/-! The bits of a sequence -/

/-- How many bits a sequence of values and widths packs into. -/
def widthSum (ps : List (Word × Nat)) : Nat := (ps.map Prod.snd).sum

theorem widthSum_cons (p : Word × Nat) (ps : List (Word × Nat)) :
    widthSum (p :: ps) = p.2 + widthSum ps := by
  simp [widthSum]

/-- Bit `k` of the low bits of each value, one value after the other, each in its own width (R223). -/
def sequenceBit : List (Word × Nat) → Nat → Bool
  | [], _ => false
  | p :: ps, k => if k < p.2 then lowBit p.1 p.2 k else sequenceBit ps (k - p.2)

theorem sequenceBit_first {p : Word × Nat} {ps : List (Word × Nat)} {k : Nat} (hk : k < p.2) :
    sequenceBit (p :: ps) k = lowBit p.1 p.2 k := if_pos hk

theorem sequenceBit_rest (p : Word × Nat) (ps : List (Word × Nat)) (k : Nat) :
    sequenceBit (p :: ps) (p.2 + k) = sequenceBit ps k := by
  rw [sequenceBit, if_neg (by omega), Nat.add_sub_cancel_left]

/-! The puts -/

/-- The puts of a sequence append its bits, where they do not fill the buffer (R212). -/
theorem execSeq_pkPut_appends {ps : List (Word × Nat)} (h0 : s.trap = none)
    (hmsb : s.cfg.packOrder = .msbFirst) (hready : s.pkReady = true)
    (hw : ∀ p ∈ ps, 1 ≤ p.2 ∧ p.2 ≤ 32) (hinv : s.PackInv) (hclean : s.PackClean)
    (hfits : s.packPos + widthSum ps < 8 * s.cfg.pkbufSize) :
    ∃ t, execSeq (ps.map fun p => .pkPut p.1 p.2) s = .next t ∧ t.pkReady = true ∧
      PackAppends s t (widthSum ps) (sequenceBit ps) := by
  induction ps generalizing s with
  | nil => exact ⟨s, rfl, hready, .refl hinv hclean _⟩
  | cons p ps ih =>
    obtain ⟨hp, hps⟩ := List.forall_mem_cons.1 hw
    rw [widthSum_cons] at hfits ⊢
    have hput := packed_appends p.1 (width := p.2) hmsb hinv hclean (by omega)
    have hready' : (s.packed p.1 p.2).pkReady = true :=
      (congrArg State.pkReady (packed_rest s p.1 p.2) :).trans hready
    obtain ⟨t, hseq, ht, hrest⟩ := ih (hput.trap.trans h0) (hput.cfg ▸ hmsb) hready' hps hput.inv
      hput.clean (by rw [hput.pos, hput.cfg]; omega)
    have hexec : exec (.pkPut p.1 p.2) s = .next (s.packed p.1 p.2) :=
      execPkPut_of_width p.1 h0 hready hp
    exact ⟨t, (execSeq_cons hexec).trans hseq, ht,
      hput.trans hrest (fun i hi => (sequenceBit_first hi).symm)
        fun i _ => (sequenceBit_rest p ps i).symm⟩

/-! The gets -/

/-- A word with the low bits of a value, and 0 above them, is the value cut to them. -/
theorem eq_ofNat_of_lowBit {v x : Word} {width : Nat} (hx : ∀ i, x.getLsbD i =
    (decide (i < width) && lowBit v width (width - 1 - i))) :
    x = BitVec.ofNat 32 (v.toNat % 2 ^ width) := by
  refine BitVec.eq_of_getLsbD_eq fun i hi => ?_
  rw [hx, BitVec.getLsbD_ofNat, Nat.testBit_mod_two_pow, decide_eq_true hi, Bool.true_and]
  by_cases hlow : i < width
  · have hk : width - 1 - (width - 1 - i) = i := by omega
    rw [lowBit, hk, BitVec.getLsbD]
  · rw [decide_eq_false hlow, Bool.false_and, Bool.false_and]

/-- Gets with the widths of a sequence whose bits the stream holds answer its values in turn: the
last of the first `j + 1` answers value `j` (R216). -/
theorem execSeq_upGet_answers {ps : List (Word × Nat)} (h0 : s.trap = none)
    (hmsb : s.cfg.packOrder = .msbFirst) (hready : s.upReady = true)
    (hw : ∀ p ∈ ps, 1 ≤ p.2 ∧ p.2 ≤ 32) (hinv : s.UnpackInv)
    (hfits : s.unpackPos + widthSum ps ≤ 8 * s.upN)
    (hbits : ∀ k, k < widthSum ps → s.unpackBit (s.unpackPos + k) = sequenceBit ps k)
    {j : Nat} {p : Word × Nat} (hj : ps[j]? = some p) :
    ∃ u, execSeq ((ps.take (j + 1)).map fun p => .upGet p.2) s = .next u ∧
      u.result = .value (BitVec.ofNat 32 (p.1.toNat % 2 ^ p.2)) := by
  induction ps generalizing s j with
  | nil => simp at hj
  | cons q ps ih =>
    obtain ⟨hq, hps⟩ := List.forall_mem_cons.1 hw
    rw [widthSum_cons] at hfits hbits
    obtain ⟨v, t, hget, hmove, hv⟩ := unpacked_reads hmsb hq.2 hinv (by omega)
    have hexec : exec (.upGet q.2) s = .next (t.answer (.value v)) := by
      have h := execUpGet_of_width h0 hready hq
      rwa [hget] at h
    rw [List.take_succ_cons, List.map_cons, execSeq_cons hexec]
    cases j with
    | zero =>
      obtain rfl : q = p := by simpa using hj
      refine ⟨_, rfl, congrArg Result.value (eq_ofNat_of_lowBit fun i => ?_)⟩
      rw [hv i]
      by_cases hi : i < q.2
      · rw [hbits _ (by omega), sequenceBit_first (by omega)]
      · rw [decide_eq_false hi, Bool.false_and, Bool.false_and]
    | succ j =>
      replace hmove := hmove.answer (.value v)
      refine ih (hmove.trap.trans h0) (hmove.cfg ▸ hmsb) (hmove.upReady.trans hready) hps hmove.inv
        (by rw [hmove.pos, hmove.upN]; omega) (fun k hk => ?_) hj
      rw [hmove.unpackBit, hmove.pos, Nat.add_assoc, hbits _ (by omega), sequenceBit_rest]

/-- UP.INIT at the first `n` bytes of the pack buffer and gets with the widths of the sequence packed
there answer its values in turn (R34, R60, R216). -/
theorem execSeq_unpack_answers {ps : List (Word × Nat)} {n : Nat} (h0 : s.trap = none)
    (hmsb : s.cfg.packOrder = .msbFirst) (hw : ∀ p ∈ ps, 1 ≤ p.2 ∧ p.2 ≤ 32)
    (hfits : widthSum ps ≤ 8 * n) (hbits : ∀ k, k < widthSum ps → s.packBit k = sequenceBit ps k)
    {j : Nat} {p : Word × Nat} (hj : ps[j]? = some p) :
    ∃ u, execSeq (.upInit (.pkBuf n) :: (ps.take (j + 1)).map fun p => .upGet p.2) s = .next u ∧
      u.result = .value (BitVec.ofNat 32 (p.1.toNat % 2 ^ p.2)) := by
  have hinit : exec (.upInit (.pkBuf n)) s = .next (s.unpackStarted (.pkBuf n)) := live_none h0 _
  have hpos : (s.unpackStarted (.pkBuf n)).unpackPos = 0 := rfl
  rw [execSeq_cons hinit]
  refine execSeq_upGet_answers (s := s.unpackStarted (.pkBuf n)) h0 hmsb rfl hw
    ⟨rfl, Nat.zero_le _, Nat.le_add_left 1 7, le_rfl⟩
    (by rw [hpos, Nat.zero_add]; exact hfits) (fun k hk => ?_) hj
  rw [hpos, Nat.zero_add]
  exact hbits k hk

/-- Settles O46: the puts append the sequence's bits from the first bit on, `PK.LEN` counts bytes that
hold them all, and the gets read them back. -/
theorem unpackInvertsPack : Obligations.UnpackInvertsPack := by
  intro s ps h0 hmsb hw hfits
  have hsize : 1 ≤ s.cfg.pkbufSize := by omega
  have hpos0 := packStarted_packPos s
  obtain ⟨t, hputs, hready, happ⟩ := execSeq_pkPut_appends (s := s.packStarted) h0 hmsb rfl hw
    (packStarted_packInv hsize) (packStarted_packClean s)
    (by rw [hpos0, Nat.zero_add]; exact hfits)
  have ht : t.trap = none := happ.trap.trans h0
  have hnew := happ.new
  have hpos := happ.pos
  rw [hpos0, Nat.zero_add] at hpos
  have hlen := packLen_eq happ.inv
  refine ⟨t.answer (.length t.packLen), t.packLen, ?pack, rfl, fun j p hj => ?unpack⟩
  case pack =>
    have hinit : exec .pkInit s = .next s.packStarted := live_none h0 _
    have hcount : exec .pkLen t = .next (t.answer (.length t.packLen)) :=
      execPkLen_of_ready ht hready
    rw [List.cons_append, execSeq_cons hinit, execSeq_append hputs, execSeq_cons hcount]
    rfl
  case unpack =>
    refine execSeq_unpack_answers (s := t.answer (.length t.packLen)) ht (happ.cfg ▸ hmsb) hw
      (by omega) (fun k hk => ?_) hj
    rw [← hnew k hk, hpos0, Nat.zero_add]
    rfl

end Sys2Proof.Machine
end

section
/-! The checksummed reply byte by byte (R242), and the frames of the replies and of the control events
(R241, R242, R269 to R271). -/

namespace Sys2Proof

/-- The high byte of a `u16` is its bits 15:8 (R95). -/
theorem hiByte_eq_extractLsb' (v : Half) : hiByte v = v.extractLsb' 8 8 := by
  apply BitVec.eq_of_toNat_eq
  rw [BitVec.extractLsb'_toNat, Nat.shiftRight_eq_div_pow]
  rfl

/-- The low byte of a `u16` is its bits 7:0 (R95). -/
theorem loByte_eq_extractLsb' (v : Half) : loByte v = v.extractLsb' 0 8 := by
  apply BitVec.eq_of_toNat_eq
  rw [BitVec.extractLsb'_toNat, Nat.shiftRight_zero]
  rfl

/-- The bytes of a checksummed reply before its checksum (R95, R242). -/
def replyBody (c : Config) (seq : Half) (status : Byte) (p : List Byte) : List Byte :=
  [c.sof, BitVec.ofNat 8 (6 + p.length), hiByte seq, loByte seq, status] ++ p

theorem encodeReply_eq_replyBody (c : Config) (seq : Half) (status : Byte) (p : List Byte) :
    encodeReply c seq status p = replyBody c seq status p ++ [ck8 (replyBody c seq status p)] := rfl

/-- The checksum of a reply as a number: the sum of its fields modulo 256 (R96, R242). -/
theorem ck8_replyBody_toNat (c : Config) (seq : Half) (status : Byte) (p : List Byte) :
    (ck8 (replyBody c seq status p)).toNat =
      (c.sof.toNat + (BitVec.ofNat 8 (6 + p.length)).toNat + seq.toNat / 256 + seq.toNat % 256 +
        status.toNat + (p.map BitVec.toNat).sum) % 256 := by
  rw [ck8_toNat, replyBody, List.map_append, List.sum_append]
  simp only [List.map_cons, List.map_nil, List.sum_cons, List.sum_nil, hiByte_toNat, loByte_toNat]
  congr 1
  omega

end Sys2Proof

namespace Sys2Proof.Machine

variable {s t : State}

/-- RB.CK of a payload that can be spelt (R242). -/
theorem execRbCk_bytes {seq : Half} {status : Byte} {p : List Byte} (h0 : s.trap = none)
    (hp : p.length ≤ 249) :
    execRbCk seq status (.bytes p) s = .next (s.replyFrame seq status p) :=
  (live_none h0 _).trans (if_pos hp)

/-- Settles O50: the reply is its body, whose sequence id is written in bit slices, and the body's
checksum. -/
theorem checksummedReplyLayout : Obligations.ChecksummedReplyLayout := by
  intro s seq status p h0 hp
  refine ⟨BitVec.ofNat 8 (6 + p.length), ck8 (replyBody s.cfg seq status p), ?length,
    ck8_replyBody_toNat s.cfg seq status p, (execRbCk_bytes h0 hp).trans ?reply⟩
  case length => rw [encodeReply_lengthByte s.cfg seq status hp, encodeReply_length]
  case reply =>
    rw [replyFrame_eq rfl rfl, encodeReply_eq_replyBody, ← hiByte_eq_extractLsb',
      ← loByte_eq_extractLsb']
    simp only [List.append_assoc]
    rfl

/-! Inversion -/

/-- A guard that refuses in its other branch answers a next state in its first alone. -/
theorem next_of_else_refused {c : Prop} [Decidable c] {r : Refusal}
    {k : Host.Outcome State Fault Refusal} (h : (if c then k else .refused r) = .next t) :
    k = .next t := by
  split at h
  · exact h
  · cases h

theorem execRbStream_next {w : Word} (h : execRbStream w s = .next t) : t = s ∨ t = s.replyWord w :=
  live_answers next_inj h

theorem execRbCk_bytes_next {seq : Half} {status : Byte} {p : List Byte}
    (h : execRbCk seq status (.bytes p) s = .next t) : t = s ∨ t = s.replyFrame seq status p :=
  live_answers (fun hk => next_inj (next_of_else_refused hk)) h

theorem execRbCk_packed_next {seq : Half} {status : Byte}
    (h : execRbCk seq status .packed s = .next t) : t = s ∨ t = s.replyPacked seq status :=
  live_answers next_inj h

/-! Frames -/

/-- A packed reply writes its history, and draws at most its payload (R248; log entry 29). -/
theorem replyPacked_rest (s : State) (seq : Half) (status : Byte) :
    { s.replyPacked seq status with txCk := s.txCk, draws := s.draws } = s := by
  rcases s.replyPacked_sends seq status with ⟨-, -, h⟩ | ⟨-, p, -, h⟩ <;> rw [h] <;> rfl

/-- Settles O56: each operation answers the state it was given, or its one effect. -/
theorem repliesAndEventsFrame : Obligations.RepliesAndEventsFrame := by
  intro s t w seq status p
  refine ⟨fun h => ?stream, fun h => ?given, fun h => ?packed, fun h => ?abort, ?control⟩
  case stream => obtain rfl | rfl := execRbStream_next h <;> rfl
  case given => obtain rfl | rfl := execRbCk_bytes_next h <;> rfl
  case packed =>
    obtain rfl | rfl := execRbCk_packed_next h
    exacts [rfl, replyPacked_rest s seq status]
  case abort => obtain rfl | rfl := execEvAbort_next h <;> rfl
  case control =>
    rintro (h | h)
    · obtain rfl | rfl := execEvPreempt_next h <;> rfl
    · obtain rfl | rfl := execEvEnterBus_next h <;> rfl

end Sys2Proof.Machine
end

section
/-! The control events as equations (R269 to R271), and what a fault state leaves of the operations
(R265, R266): every operation but the reset stands under `live`. -/

namespace Sys2Proof.Machine

variable {s : State}

/-! Control events -/

/-- EV.PREEMPT on the bus (R269). -/
theorem execEvPreempt_of_bus (h0 : s.trap = none) (hm : s.mode = .peripheralBus) :
    execEvPreempt s = .next { s.discarded with rxie := false, mode := .hostDebug } :=
  (live_none h0 _).trans (if_pos hm)

/-- EV.PREEMPT in HOST_DEBUG (R269). -/
theorem execEvPreempt_of_host (h0 : s.trap = none) (hm : s.mode = .hostDebug) :
    execEvPreempt s = .next s :=
  (live_none h0 _).trans (if_neg (by simp [hm]))

/-- EV.ABORT (R270). -/
theorem execEvAbort_of_none (h0 : s.trap = none) : execEvAbort s = .next s.discarded :=
  live_none h0 _

/-- EV.ENTER_BUS (R271). -/
theorem execEvEnterBus_of_none (h0 : s.trap = none) :
    execEvEnterBus s = .next { s.discarded with mode := .peripheralBus, rxie := true } :=
  live_none h0 _

/-- Settles O51: on the bus the framer is discarded, masked and left for HOST_DEBUG. -/
theorem preemptionDiscardsTheTransfer : Obligations.PreemptionDiscardsTheTransfer :=
  fun _ h0 => ⟨execEvPreempt_of_bus h0, execEvPreempt_of_host h0⟩

/-- Settles O52: both events discard the transfer, and the entry sets mode and interrupt enable. -/
theorem abortAndEnterBusResetTheTransfer : Obligations.AbortAndEnterBusResetTheTransfer :=
  fun _ h0 => ⟨execEvAbort_of_none h0, execEvEnterBus_of_none h0⟩

/-! Fault states -/

theorem live_codecOverflow (h : s.trap = some .codecOverflow)
    (k : Host.Outcome State Fault Refusal) : live s k = .fault .codecOverflow := by simp [live, h]

theorem live_codecUnderrun (h : s.trap = some .codecUnderrun)
    (k : Host.Outcome State Fault Refusal) : live s k = .fault .codecUnderrun := by simp [live, h]

/-- Every operation other than EV.RESET looks at the fault state first (R265, R266). -/
theorem exec_eq_live (s : State) {i : Instr} (hi : i ≠ .evReset) : ∃ k, exec i s = live s k := by
  cases i with
  | evReset => exact absurd rfl hi
  | ckRoute seq code ops =>
    rw [exec, execCkRoute]
    split <;> exact ⟨_, rfl⟩
  | _ => exact ⟨_, rfl⟩

/-- Settles O54: under `live` nothing happens after `DebugHalt`, and a reset clears the fault state. -/
theorem debugHaltEnablesOnlyReset : Obligations.DebugHaltEnablesOnlyReset := by
  refine fun s i h => ⟨fun hi => ?halted, s.afterReset, rfl, rfl, rfl⟩
  obtain ⟨k, hk⟩ := exec_eq_live s hi
  exact hk.trans (live_debugHalt h k)

/-- Settles O55: under `live` a codec fault state answers its own fault. -/
theorem codecFaultStopsTheMachine : Obligations.CodecFaultStopsTheMachine := by
  intro s i hi
  obtain ⟨k, hk⟩ := exec_eq_live s hi
  exact ⟨fun h => hk.trans (live_codecOverflow h k), fun h => hk.trans (live_codecUnderrun h k)⟩

end Sys2Proof.Machine
end
